-- ==== Sys2Proof/Word.lean ====
section
/-! DEFINITION. The words of the block: bits, bytes, bit sequences and text (spec R9, R40).
A BitSequence is the spec's pair of a length and a list of bits with `length = count(bits)`; the list alone
carries both, so the invariant of R40 holds by construction. -/

namespace Sys2Proof

/-- A byte; bit 0 has value 1 and bit 7 has value 128 (R9). -/
abbrev Byte := BitVec 8

/-- A 32-bit word: Capabilities, status, IDCODE, USERCODE (R78). -/
abbrev Word32 := BitVec 32

/-- A BitSequence (R40): element 0 is the bit that is clocked first. -/
abbrev BitSeq := List Bool

/-- A byte sequence, in the order the bytes are sent or stored (R54). -/
abbrev Bytes := List Byte

/-- A text: an argument of the command line, a line of the assembly syntax (R84, R263). -/
abbrev Text := List Char

end Sys2Proof
end

