-- ==== Sys2Proof/Syntax.lean ====
section
/-! DEFINITION. The operations of the block as syntax: one constructor of `Instr` per row of spec/opcode_table.json,
and `Call`, the form in which a program holds an operation call (R21, R70, R75, R77, R84). -/

namespace Sys2Proof

/-- The 16 TAP states, in the order and with the index of R24. -/
inductive TapState where
  | testLogicReset | runTestIdle | selectDrScan | captureDr | shiftDr | exit1Dr | pauseDr | exit2Dr | updateDr
  | selectIrScan | captureIr | shiftIr | exit1Ir | pauseIr | exit2Ir | updateIr
  deriving DecidableEq, Repr, Inhabited

/-- The session configuration `cfg` of R32. Durations are in milliseconds; `maxPolls = none` is the spec's `∞` (DESIGN
CHOICE, log 20). -/
structure SessionConfig where
  pollInterval : Nat
  maxPolls : Option Nat
  controlTimeout : Nat
  latencyTimeout : Nat
  usbDebug : Bool
  deriving DecidableEq, Repr

/-- The nine admitted USB opcodes (file 42, introduction): those the block's own operations issue. -/
inductive AdmittedOp where
  | info | flashOnOff | writeEedata | prog | tmsTdi | tmsTdiTdo | tdiTdo | tdi | tapSeq
  deriving DecidableEq, Repr

/-- An operation that may stand in a `ConfigureSeq` (R260): an operation of file 40 or file 42, and no flash operation.
Refused opcodes are left out, because no entry point issues one (R300) (DEDUCED, log 15). -/
inductive SeqOp where
  | tick (tms tdi : Bool)
  | goto (seq : BitSeq)
  | gotoState (target : TapState)
  | assertState (expected : TapState)
  | shiftInstruction (instr : BitSeq)
  | shiftData (bits : BitSeq) (receive : Bool)
  | reset
  | loadInstructionThenData (instr data : BitSeq) (receive : Bool)
  | scanDR (data : BitSeq) (receive : Bool)
  | info (payload : Bytes)
  | flashOnOff (on : Bool)
  | writeEedata (addr value : Byte)
  | prog (payload : Bytes)
  | tmsTdi (tms tdi : Bool)
  | tmsTdiTdo (tms tdi : Bool)
  | tdiTdo (bits : BitSeq) (marked : Bool)
  | tdi (bits : BitSeq) (marked : Bool)
  | tapSeq (seq : BitSeq)
  | command (op : AdmittedOp) (payload : Bytes)
  deriving DecidableEq, Repr

/-- The instructions: one constructor per row of spec/opcode_table.json, with the operands its rule gives.
A USB opcode whose operands are OPEN carries its raw payload bytes. -/
inductive Instr where
  -- USB opcodes (R74; rules R160 to R188)
  | usbReadVersion (payload : Bytes)
  | usbInfo (payload : Bytes)
  | usbReadFlash (payload : Bytes)
  | usbWriteFlash (payload : Bytes)
  | usbEraseFlash (payload : Bytes)
  | usbFlashOnOff (on : Bool)
  | usbReadEedata (payload : Bytes)
  | usbWriteEedata (addr value : Byte)
  | usbReadConfig (payload : Bytes)
  | usbWriteConfig (payload : Bytes)
  | usbIdBoard (payload : Bytes)
  | usbUpdateLed (payload : Bytes)
  | usbSenseInverters (payload : Bytes)
  | usbTmsTdi (tms tdi : Bool)
  | usbTmsTdiTdo (tms tdi : Bool)
  | usbTdiTdo (bits : BitSeq) (marked : Bool)
  | usbTdo (bitCount : Nat)
  | usbTdi (bits : BitSeq) (marked : Bool)
  | usbRuntest (payload : Bytes)
  | usbNullTdi (payload : Bytes)
  | usbTapSeq (seq : BitSeq)
  | usbProg (payload : Bytes)
  | usbSingleTestVector (payload : Bytes)
  | usbGetTestVector (payload : Bytes)
  | usbSetOscFreq (payload : Bytes)
  | usbEnableReturn (payload : Bytes)
  | usbDisableReturn (payload : Bytes)
  | usbReset (payload : Bytes)
  -- JTAG IR instructions (R75)
  | irUser1 | irUser2 | irIdcode | irUsercode | irCfgIn | irJprogram | irJstart | irBypass
  -- USER1 sub-instructions and their command frames (R76, R77)
  | subCapabilities | subFlashSize | subFlashErase
  | subFlashPgm (wordAddress wordCount : Nat)
  | subFlashRead (wordAddress wordCount : Nat)
  -- TAP operations (file 40)
  | tick (tms tdi : Bool)
  | goto (seq : BitSeq)
  | path (a b : TapState)
  | gotoState (target : TapState)
  | assertState (expected : TapState)
  | shiftInstruction (instr : BitSeq)
  | shiftData (bits : BitSeq) (receive : Bool)
  | reset
  | loadInstructionThenData (instr data : BitSeq) (receive : Bool)
  | scanDR (data : BitSeq) (receive : Bool)
  -- codec operations (file 41)
  | makeBits (count value : Nat)
  | concat (a b : BitSeq)
  | toInt (seq : BitSeq)
  | toBytes (seq : BitSeq)
  | fromBytes (bytes : Bytes) (count : Nat)
  | reverse (byte : Byte)
  | payloadBits (bytes : Bytes)
  | payloadBytes (bits : BitSeq)
  | le32 (n : Nat)
  -- the framer (R189) and the state functions (R28, R30)
  | command (op : Byte) (payload : Bytes)
  | hasCap (c : Word32) (bitpos : Nat)
  | decodeStatus (w : Word32)
  -- flash operations (file 43)
  | checkUser1
  | probeCapabilities
  | ensureCapability (bitpos : Nat) (start : Bool)
  | readGeometry
  | validateRange (address length : Nat)
  | eraseFlash
  | pollUntilTerminal
  | programChunk (byteAddress : Nat) (chunk : Bytes)
  | setFlashPin (on : Bool)
  | readFlash (loAddr hiAddr : Nat) (start : Bool)
  | writeFlash (data : Bytes) (address : Nat) (start : Bool)
  | releaseOnExit
  -- session operations (file 44)
  | openSession (cfg : SessionConfig)
  | readIdcode
  | checkIdentity
  | readUsercode
  | toggleProgPin
  | enableFlash (flag : Bool)
  | configureFpga (bitstream : Bytes)
  | parseAddr (s : Text)
  deriving DecidableEq, Repr

/-- The operands of a USB frame, as its rule in file 42 types them. `raw` is a payload whose layout is OPEN. -/
inductive FrameArg where
  | raw (payload : Bytes)
  | onOff (b : Byte)
  | eeprom (addr value : Byte)
  | tick (tms tdi : Bool)
  | bulk (bits : BitSeq) (marked : Bool)
  | bitCount (n : Nat)
  | tmsSeq (seq : BitSeq)
  deriving DecidableEq, Repr

/-- The names of the rows that have no bit pattern of their own in the table: the IR instructions and
sub-instructions whose value is OPEN, and the operations. -/
inductive Mnemonic where
  | user2 | idcode | usercode | cfgIn | jprogram | jstart | bypass
  | subCapabilities | subFlashSize | subFlashErase | subFlashPgm | subFlashRead
  | tick | goto | path | gotoState | assertState | shiftInstruction | shiftData | reset
  | loadInstructionThenData | scanDR
  | makeBits | concat | toInt | toBytes | fromBytes | reverse | payloadBits | payloadBytes | le32
  | command | hasCap | decodeStatus
  | checkUser1 | probeCapabilities | ensureCapability | readGeometry | validateRange | eraseFlash
  | pollUntilTerminal | programChunk | setFlashPin | readFlash | writeFlash | releaseOnExit
  | openSession | readIdcode | checkIdentity | readUsercode | toggleProgPin | enableFlash | configureFpga | parseAddr
  deriving DecidableEq, Repr

/-- A typed argument of an operation call `name(arg, ...)` (R11). -/
inductive Arg where
  | bit (b : Bool)
  | bits (s : BitSeq)
  | nat (n : Nat)
  | byte (b : Byte)
  | bytes (l : Bytes)
  | word (w : Word32)
  | tapState (t : TapState)
  | config (c : SessionConfig)
  | text (t : Text)
  deriving DecidableEq, Repr

/-- One entry of a program (R21), in one of the three encoding layers of file 30: `frame` is a USB frame by its opcode
byte (R70, R74); `ir` a 6-bit instruction value (R75, R83); `named` a call by its mnemonic (R11, R77, R84), for the rows
the table gives no bits (DESIGN CHOICE, log 1). -/
inductive Call where
  | frame (op : Byte) (arg : FrameArg)
  | ir (code : BitVec 6)
  | named (m : Mnemonic) (args : List Arg)
  deriving DecidableEq, Repr

end Sys2Proof
end

