-- ==== Sys2Proof/Config.lean ====
section
/-! DEFINITION. The parameters of R8 and the free values.
An OPEN parameter is a constant without a body, so that no proof can see a value of it. `Params` gathers the OPEN
parameters that are data; the machine's state carries one (`Params` is fixed, no operation writes it), so that a claim
about every state is a claim for every value of the parameters. An OPEN parameter that is a function is given in
`Params` as a finite table (possibly empty) with a body-less function behind it for every input the table does not list. -/

namespace Sys2Proof

/-- The kinds of transport failure (R300, TransportError). -/
inductive FailKind where
  | openFail | claim | read | write | timeout
  deriving DecidableEq, Repr, Inhabited

/-- The board's answer to one transport call (R33): it succeeds with bytes (used by a read), or it fails. -/
inductive Answer where
  | ok (bytes : Bytes)
  | fail (kind : FailKind)
  deriving DecidableEq, Repr, Inhabited

/-- A USER1 sub-instruction: an OPEN value of OPEN width 8 or 9 (R76). -/
inductive SubCode where
  | w8 (value : BitVec 8)
  | w9 (value : BitVec 9)
  deriving DecidableEq, Repr, Inhabited

/-- `BULK_LEN_UNIT` (R8, R71): what the 4-byte length field counts. -/
inductive LenUnit where
  | bits | bytes
  deriving DecidableEq, Repr, Inhabited

/-- The FlashGeometry register's three 8-bit fields (R29). -/
structure Geometry where
  dataWidthBits : Byte
  addrWidthBits : Byte
  blockAddrWidthBits : Byte
  deriving DecidableEq, Repr, Inhabited

/-- The OPEN parameters of R8 that are data. `responseLens`, `bulkResponseLens`, `infoChecksums` and `configureSeqs` are
finite parts of `RESPONSE_LEN`, `INFO_CHECKSUM_OK` and `ConfigureSeq`; what they do not list is answered by the body-less
functions below (DESIGN CHOICE, log 3). -/
structure Params where
  instrUser2 : BitVec 6
  instrIdcode : BitVec 6
  instrUsercode : BitVec 6
  instrCfgIn : BitVec 6
  instrJprogram : BitVec 6
  instrJstart : BitVec 6
  instrBypass : BitVec 6
  subCapabilities : SubCode
  subFlashSize : SubCode
  subFlashErase : SubCode
  subFlashPgm : SubCode
  subFlashRead : SubCode
  /-- `CAP_RAM_WRITE` and the next five are bit positions in 8..23: position `8 + i` for `i < 16`. -/
  capRamWrite : Fin 16
  capRamRead : Fin 16
  capFlashWrite : Fin 16
  capFlashRead : Fin 16
  capRegWrite : Fin 16
  capRegRead : Fin 16
  statusPassed : Word32
  statusFailed : Word32
  eepromFlashFlagOff : Byte
  bulkLenUnit : LenUnit
  responseLens : List (Byte × Nat)
  /-- The response sizes of `TDI_TDO`, by the `len` field of its frame (R72). -/
  bulkResponseLens : List (Nat × Nat)
  infoChecksums : List (Bytes × Bool)
  configureSeqs : List (Bytes × List SeqOp)
  flashInterfaceBitstream : Bytes
  deriving DecidableEq, Repr

/-- What R8 requires of the OPEN parameters beyond their types: six distinct capability positions, two distinct status
words, and a disable value other than `0xAC` (DEDUCED, log 4). -/
def Params.wf (p : Params) : Bool :=
  decide ([p.capRamWrite, p.capRamRead, p.capFlashWrite, p.capFlashRead, p.capRegWrite, p.capRegRead].Nodup)
    && p.statusPassed != p.statusFailed && p.eepromFlashFlagOff != 0xAC

namespace Config

/-! ### Parameters with a value (R8) -/

/-- `IR_WIDTH`. -/
def irWidth : Nat := 6
/-- `INSTR_USER1 = 0b000010` (R75). -/
def instrUser1 : BitVec 6 := 0b000010
/-- `EXPECTED_IDCODE` (R3, R253). -/
def expectedIdcode : Word32 := 0x02218093
/-- `CAPS_GUARD` (R27). -/
def capsGuard : Byte := 0xA5
/-- `RESET_ONES` (R110). -/
def resetOnes : Nat := 5
/-- `FLASH_ONOFF_ASSERT` and `FLASH_ONOFF_RELEASE` (R8, R165) (DEDUCED, log 24). -/
def flashOnOffAssert : Byte := 0x01
def flashOnOffRelease : Byte := 0x00
/-- `EEPROM_FLASH_FLAG_ADDR` and `EEPROM_FLASH_FLAG_ON` (R8, R258). -/
def eepromFlashFlagAddr : Byte := 0xFE
def eepromFlashFlagOn : Byte := 0xAC
/-- `CONTROL_TIMEOUT` and `LATENCY_TIMEOUT` in milliseconds (R8, R32). -/
def controlTimeout : Nat := 1000
def latencyTimeout : Nat := 2000
/-- `NIBBLE_REV` (R146). -/
def nibbleRev : List Nat := [0, 8, 4, 12, 2, 10, 6, 14, 1, 9, 5, 13, 3, 11, 7, 15]

/-! ### OPEN parameters (R8): constants without a body -/

opaque instrUser2 : BitVec 6
opaque instrIdcode : BitVec 6
opaque instrUsercode : BitVec 6
opaque instrCfgIn : BitVec 6
opaque instrJprogram : BitVec 6
opaque instrJstart : BitVec 6
opaque instrBypass : BitVec 6
opaque subCapabilities : SubCode
opaque subFlashSize : SubCode
opaque subFlashErase : SubCode
opaque subFlashPgm : SubCode
opaque subFlashRead : SubCode
/-- The six `CAP_*` positions are distinct members of 8..23: an unknown permutation of the sixteen, at six fixed arguments. -/
opaque capOrder : Equiv.Perm (Fin 16)
opaque statusPassed : Word32
/-- `STATUS_FAILED` differs from `STATUS_PASSED` by an unknown amount from 1 to 2^32 - 1. -/
opaque statusFailedGap : Fin 4294967295
/-- `EEPROM_FLASH_FLAG_OFF` differs from `0xAC` by an unknown amount from 1 to 255. -/
opaque eepromFlagOffGap : Fin 255
opaque bulkLenUnit : LenUnit
opaque flashInterfaceBitstream : Bytes
/-- `POLL_INTERVAL`, in milliseconds; no rule depends on it (R32, R340). -/
opaque pollInterval : Nat

/-- `RESPONSE_LEN(op, payload)` of every opcode but `TDI_TDO` (R72, R189). -/
opaque responseLen : Byte → Bytes → Nat
/-- `RESPONSE_LEN` of `TDI_TDO`, derived from its frame's `len` field (R72). -/
opaque bulkResponseLen : Nat → Nat
/-- `INFO_CHECKSUM_OK` (R250). -/
opaque infoChecksumOk : Bytes → Bool
/-- `ConfigureSeq(bitstream)` (R260). -/
opaque configureSeq : Bytes → List SeqOp

/-! `TransportCodec` (R8, R70): the payload layouts the spec leaves OPEN. -/

/-- `TransportCodec.encodeTick` as a code: the two bits, one a byte, to the payload of a single-tick frame. No two ticks
have one payload, or the board could not tell them apart (R101, R173, R174) (DEDUCED, log 10). -/
opaque tickCode : Equiv.Perm Bytes
/-- `TransportCodec.decodeTdo` (R101, R175). -/
opaque decodeTdo : Bytes → Bool
/-- `TransportCodec.encodeTmsSeq` as a code: the TMS bits, one a byte, to the payload of a `TAP_SEQ` frame; no two
sequences have one payload (R173, R181) (DEDUCED, log 10). -/
opaque tmsCode : Equiv.Perm Bytes
/-- Whether the last bit of a raw bulk frame carries `tms = 1`: how the mark is carried is OPEN (R176, R177) (DEDUCED,
log 10). -/
opaque bulkMark : Byte → Bytes → Bool
/-- How many bits of the last payload byte of a raw bulk frame are padding, where its `len` counts bytes (R71, R176)
(DEDUCED, log 10). -/
opaque bulkPad : Byte → Bytes → Fin 8
/-- `TransportCodec.encodeEeWrite` (R167). -/
opaque encodeEeWrite : Byte → Byte → Bytes
/-- `TransportCodec.encodeInfo` (R250). -/
opaque encodeInfo : Bytes
/-- `TransportCodec.encodeProg` (R255). -/
opaque encodeProg : Bytes
/-- The definite sequence of ticks (TMS, TDI) at the board's JTAG port of a raw JTAG-primitive frame whose payload is the
encoding of no operand (R173) (DEDUCED, log 10). -/
opaque portTicks : Byte → Bytes → List (Bool × Bool)

/-! ### Free values: the draws of the board (R33, R34), by the number of draws made before -/

/-- The answer to a transport call: success with bytes, or failure (R33, U5) (DESIGN CHOICE, log 5). -/
opaque freeAnswer : Nat → Answer
/-- The TDO bit of a tick (R34, U1, U2) (DESIGN CHOICE, log 5). -/
opaque freeTdo : Nat → Bool
/-- The device's TAP state after a transport failure (R23) (DEDUCED, log 6). -/
opaque freeDevTap : Nat → TapState
/-- The device's TAP state at session open (R23, R42, D47) (DEDUCED, log 6). -/
opaque devTapAtOpen : TapState
/-! The geometry an operation works with when none has been read: the spec states no value there, and R214 lets none
be but a legal one. The stride is a power of two, the address width is one less than it is used with, and the block is
no smaller than the stride (DESIGN CHOICE, log 13). -/

/-- The exponent of the stride: 8 to 128 data bits. -/
opaque unreadStrideLog : Fin 5
/-- One less than the address width. -/
opaque unreadAddrGap : Fin 255
/-- The block's exponent, where it is no less than the stride's. -/
opaque unreadBlockLog : Fin 256
/-- The hex text of a `deviceId` that has not been read: the spec states no text there (R253) (DESIGN CHOICE, log 14).
-/
opaque hexOfUnread : Text

/-- The OPEN parameters, gathered. The tables are empty: nothing is known of the functions (DESIGN CHOICE, log 3;
DEDUCED, log 4). -/
def params : Params where
  instrUser2 := instrUser2
  instrIdcode := instrIdcode
  instrUsercode := instrUsercode
  instrCfgIn := instrCfgIn
  instrJprogram := instrJprogram
  instrJstart := instrJstart
  instrBypass := instrBypass
  subCapabilities := subCapabilities
  subFlashSize := subFlashSize
  subFlashErase := subFlashErase
  subFlashPgm := subFlashPgm
  subFlashRead := subFlashRead
  capRamWrite := capOrder 0
  capRamRead := capOrder 1
  capFlashWrite := capOrder 2
  capFlashRead := capOrder 3
  capRegWrite := capOrder 4
  capRegRead := capOrder 5
  statusPassed := statusPassed
  statusFailed := statusPassed + BitVec.ofNat 32 (statusFailedGap.val + 1)
  eepromFlashFlagOff := 0xAC + BitVec.ofNat 8 (eepromFlagOffGap.val + 1)
  bulkLenUnit := bulkLenUnit
  responseLens := []
  bulkResponseLens := []
  infoChecksums := []
  configureSeqs := []
  flashInterfaceBitstream := flashInterfaceBitstream

/-- The session configuration with every default of R32; `pollInterval` is OPEN (DESIGN CHOICE, log 20). -/
def defaultConfig : SessionConfig where
  pollInterval := pollInterval
  maxPolls := none
  controlTimeout := controlTimeout
  latencyTimeout := latencyTimeout
  usbDebug := false

end Config

end Sys2Proof
end

