-- ==== Sys2Proof/Machine/State.lean ====
section
/-! DEFINITION. The state of the block (file 10), the errors it records (R300), the reasons a step can stop, and the
state at session open (R42). -/

namespace Sys2Proof.Machine

/-- The tracked TAP state `tap` (R22): a TAP state or the spec's `Unknown`. -/
inductive Tracked where
  | unknown
  | known (t : TapState)
  deriving DecidableEq, Repr

/-- The instruction-register copy `lastIR` (R25): a BitSequence or `Unknown`. -/
inductive IrCopy where
  | unknown
  | instr (x : BitSeq)
  deriving DecidableEq, Repr

/-- `pendingIR` (R25, R104): what the current IR scan has shifted. -/
inductive PendingIr where
  | clean
  | instr (x : BitSeq)
  | unknown
  deriving DecidableEq, Repr

/-- `flashPin` (R35). -/
inductive FlashPin where
  | asserted | released | unknown
  deriving DecidableEq, Repr

/-- `session` (R36). -/
inductive Session where
  | closed | opened | identified
  deriving DecidableEq, Repr

/-- `OperationStatus` (R30): what a status word decodes to. -/
inductive OperationStatus where
  | passed | failed | inProgress
  deriving DecidableEq, Repr

/-- The ten errors of R300. -/
inductive ErrorCode where
  | transportError | deviceIdentityError | protocolDesyncError | alignmentError | flashOperationFailed
  | invalidArgument | invalidOperand | geometryInvalid | capabilityAbsentError | pollLimitExceeded
  deriving DecidableEq, Repr

/-- The info an error records (R300, column "info recorded"). -/
inductive ErrorInfo where
  /-- TransportError: the kind of the failure. -/
  | transport (kind : FailKind)
  /-- DeviceIdentityError: the offending IDCODE as hex text (R253). -/
  | idcode (hex : Text)
  /-- DeviceIdentityError: `checksum`, with the INFO response (R250). -/
  | checksum (resp : Bytes)
  /-- DeviceIdentityError: the session value (R251). -/
  | session (v : Session)
  /-- ProtocolDesyncError: expected and actual TAP state (R111). -/
  | tapMismatch (expected : TapState) (actual : Tracked)
  /-- ProtocolDesyncError: expected and actual instruction (R211). -/
  | irMismatch (expected : BitSeq) (actual : IrCopy)
  /-- AlignmentError: the value and the stride (R215). -/
  | alignment (value stride : Nat)
  /-- FlashOperationFailed: the status word (R217). -/
  | statusWord (w : Word32)
  /-- InvalidArgument: the argument text (R263). -/
  | argumentText (s : Text)
  /-- InvalidArgument: the reversed range (R220). -/
  | range (lo hi : Nat)
  /-- InvalidOperand: one operand (a length, an opcode, a value). -/
  | operand (n : Nat)
  /-- InvalidOperand: two operands (R140, R144). -/
  | operands (a b : Nat)
  /-- GeometryInvalid: the three fields (R214). -/
  | geometry (d a b : Nat)
  /-- CapabilityAbsentError: the bit position and the capabilities (R213). -/
  | capability (bitpos : Nat) (caps : Word32)
  /-- PollLimitExceeded: the poll count (R217). -/
  | pollCount (k : Nat)
  deriving DecidableEq, Repr

/-- An entry of the error log (R37). -/
structure ErrorEntry where
  code : ErrorCode
  info : ErrorInfo
  deriving DecidableEq, Repr

/-- An entry of the event history (R38). -/
inductive Event where
  | tick (tms tdi tdo : Bool) (preState : Tracked)
  | write (bytes : Bytes)
  | read (bytes : Bytes)
  | fail (kind : FailKind)
  | progress (bytesDone : Nat)
  | error (code : ErrorCode)
  deriving DecidableEq, Repr

/-- The value an operation returns (R20: results are returned as values). -/
inductive Value where
  | none
  | bit (b : Bool)
  | bits (s : BitSeq)
  | nat (n : Nat)
  | byte (b : Byte)
  | bytes (l : Bytes)
  | word (w : Word32)
  | status (st : OperationStatus)
  | geometry (g : Geometry)
  deriving DecidableEq, Repr

/-- What is left of an operation that waits between two status polls (R217): nothing more (`done`), every chunk of a
`writeFlash` whose erase is polled (`erased`), or the chunks after the one that is polled (`chunks`), with the byte
count that is reached when it has passed. A chunk is its byte address and its bytes. -/
inductive Rest where
  | done
  | erased (chunks : List (Nat × Bytes))
  | chunks (cumulative : Nat) (chunks : List (Nat × Bytes))
  deriving DecidableEq, Repr

/-- A status-poll loop in progress: how many polls have been made, and what follows it (DESIGN CHOICE, log 8). -/
structure Busy where
  polls : Nat
  rest : Rest
  deriving DecidableEq, Repr

/-- The board's draws that are given (R33, R34): answers to transport calls, TDO bits, and device TAP states after a
transport failure, each list in the order of the draws. Draws beyond a list's end are the free values of Config (DESIGN
CHOICE, log 5). -/
structure Script where
  answers : List Answer
  tdo : List Bool
  devTaps : List TapState
  deriving DecidableEq, Repr

/-- How many draws of each kind have been made. -/
structure Drawn where
  answers : Nat
  tdo : Nat
  devTaps : Nat
  deriving DecidableEq, Repr

/-- The state. The first thirteen fields are the spec's (R22 to R38); `program` and `pc` are the list of operation calls
and the position in it (R21); the rest is the model's own: whether an error has ended the run (R304), an operation
waiting between polls (R217, R336), the value last returned, the OPEN parameters and the board's draws (DESIGN CHOICE,
log 19). -/
structure State where
  tap : Tracked
  devTap : TapState
  lastIR : IrCopy
  pendingIR : PendingIr
  caps : Option Word32
  geom : Option Geometry
  status : Option Word32
  deviceId : Option Word32
  cfg : SessionConfig
  flashPin : FlashPin
  session : Session
  errors : List ErrorEntry
  history : List Event
  program : List Call
  pc : Nat
  ended : Bool
  busy : Option Busy
  result : Value
  params : Params
  script : Script
  drawn : Drawn
  deriving DecidableEq, Repr

/-- The state at session open, before any operation (R42). `devTap` is a free value; the program is empty: a program is
loaded from outside (DESIGN CHOICE, log 1; DESIGN CHOICE, log 19; DESIGN CHOICE, log 20). -/
def State.reset : State where
  tap := .unknown
  devTap := Config.devTapAtOpen
  lastIR := .unknown
  pendingIR := .unknown
  caps := none
  geom := none
  status := none
  deviceId := none
  cfg := Config.defaultConfig
  flashPin := .unknown
  session := .closed
  errors := []
  history := []
  program := []
  pc := 0
  ended := false
  busy := none
  result := .none
  params := Config.params
  script := { answers := [], tdo := [], devTaps := [] }
  drawn := { answers := 0, tdo := 0, devTaps := 0 }

/-- Why the machine stops. -/
inductive Fault where
  /-- Raised by `openSession` when the session is not `Closed`: R250 gives it no step. Safe: the run is stuck. -/
  | sessionNotClosed
  /-- Raised by `step` after an error has ended the run (R21, R304). Safe: no operation follows. -/
  | runEnded
  /-- Raised by `step` when every operation of the program has completed (R21). Safe: there is nothing to run. -/
  | programComplete
  deriving DecidableEq, Repr

/-- Why an instruction or a program entry is given no meaning. -/
inductive Refusal where
  /-- Raised by `exec` for an instruction that has no meaning yet. Safe. -/
  | notModelled (mnemonic : String)
  /-- The mark `Refused(op)` of R300: raised by a USB opcode whose effect on the board the spec does not give
  (file 42). Safe: the run is stuck there. -/
  | refusedOpcode (op : Byte)
  /-- Raised by `step` for a call whose arguments are not of the types its rule gives (R11). Safe. -/
  | illTypedCall
  deriving DecidableEq, Repr

end Sys2Proof.Machine
end

