-- ==== Sys2Proof/Machine/Operands.lean ====
section
/-! DEFINITION. The pure operand functions: the TAP transition function and the shortest paths (R100, R106), the bit
codec (R140 to R152), the assembly of instruction and frame operands (R75 to R79), and the argument texts (R253, R263). -/

namespace Sys2Proof.Machine

/-! ### The TAP graph -/

/-- `next(state, tms)` of R100. -/
def next : TapState → Bool → TapState
  | .testLogicReset, false => .runTestIdle
  | .testLogicReset, true => .testLogicReset
  | .runTestIdle, false => .runTestIdle
  | .runTestIdle, true => .selectDrScan
  | .selectDrScan, false => .captureDr
  | .selectDrScan, true => .selectIrScan
  | .captureDr, false => .shiftDr
  | .captureDr, true => .exit1Dr
  | .shiftDr, false => .shiftDr
  | .shiftDr, true => .exit1Dr
  | .exit1Dr, false => .pauseDr
  | .exit1Dr, true => .updateDr
  | .pauseDr, false => .pauseDr
  | .pauseDr, true => .exit2Dr
  | .exit2Dr, false => .shiftDr
  | .exit2Dr, true => .updateDr
  | .updateDr, false => .runTestIdle
  | .updateDr, true => .selectDrScan
  | .selectIrScan, false => .captureIr
  | .selectIrScan, true => .testLogicReset
  | .captureIr, false => .shiftIr
  | .captureIr, true => .exit1Ir
  | .shiftIr, false => .shiftIr
  | .shiftIr, true => .exit1Ir
  | .exit1Ir, false => .pauseIr
  | .exit1Ir, true => .updateIr
  | .pauseIr, false => .pauseIr
  | .pauseIr, true => .exit2Ir
  | .exit2Ir, false => .shiftIr
  | .exit2Ir, true => .updateIr
  | .updateIr, false => .runTestIdle
  | .updateIr, true => .selectDrScan

/-- `next` on the tracked state: `next(Unknown, tms) = Unknown` (R100). -/
def nextTracked : Tracked → Bool → Tracked
  | .unknown, _ => .unknown
  | .known t, tms => .known (next t tms)

/-- Where a TMS sequence leads from a TAP state. -/
def walk (t : TapState) (seq : BitSeq) : TapState :=
  seq.foldl next t

/-- Where a TMS sequence leads from a tracked state. -/
def walkTracked (t : Tracked) (seq : BitSeq) : Tracked :=
  seq.foldl nextTracked t

/-- The index of a TAP state (R24). -/
def tapIndex : TapState → Nat
  | .testLogicReset => 0
  | .runTestIdle => 1
  | .selectDrScan => 2
  | .captureDr => 3
  | .shiftDr => 4
  | .exit1Dr => 5
  | .pauseDr => 6
  | .exit2Dr => 7
  | .updateDr => 8
  | .selectIrScan => 9
  | .captureIr => 10
  | .shiftIr => 11
  | .exit1Ir => 12
  | .pauseIr => 13
  | .exit2Ir => 14
  | .updateIr => 15

/-- A shifting state (R102): its ticks shift one bit, whatever their TMS. -/
def isShifting : TapState → Bool
  | .shiftDr => true
  | .shiftIr => true
  | _ => false

/-- The table of R106, row by row. An entry is the path's bits in tick order behind a leading 1. -/
def pathTable : List (List Nat) :=
  [
   [0b1, 0b10, 0b101, 0b1010, 0b10100, 0b10101, 0b101010, 0b1010101, 0b101011, 0b1011, 0b10110, 0b101100, 0b101101, 0b1011010, 0b10110101, 0b1011011],
   [0b1111, 0b1, 0b11, 0b110, 0b1100, 0b1101, 0b11010, 0b110101, 0b11011, 0b111, 0b1110, 0b11100, 0b11101, 0b111010, 0b1110101, 0b111011],
   [0b111, 0b1110, 0b1, 0b10, 0b100, 0b101, 0b1010, 0b10101, 0b1011, 0b11, 0b110, 0b1100, 0b1101, 0b11010, 0b110101, 0b11011],
   [0b111111, 0b1110, 0b1111, 0b1, 0b10, 0b11, 0b110, 0b1101, 0b111, 0b11111, 0b111110, 0b1111100, 0b1111101, 0b11111010, 0b111110101, 0b11111011],
   [0b111111, 0b1110, 0b1111, 0b11110, 0b1, 0b11, 0b110, 0b1101, 0b111, 0b11111, 0b111110, 0b1111100, 0b1111101, 0b11111010, 0b111110101, 0b11111011],
   [0b11111, 0b110, 0b111, 0b1110, 0b1010, 0b1, 0b10, 0b101, 0b11, 0b1111, 0b11110, 0b111100, 0b111101, 0b1111010, 0b11110101, 0b1111011],
   [0b111111, 0b1110, 0b1111, 0b11110, 0b110, 0b1101, 0b1, 0b11, 0b111, 0b11111, 0b111110, 0b1111100, 0b1111101, 0b11111010, 0b111110101, 0b11111011],
   [0b11111, 0b110, 0b111, 0b1110, 0b10, 0b101, 0b1010, 0b1, 0b11, 0b1111, 0b11110, 0b111100, 0b111101, 0b1111010, 0b11110101, 0b1111011],
   [0b1111, 0b10, 0b11, 0b110, 0b1100, 0b1101, 0b11010, 0b110101, 0b1, 0b111, 0b1110, 0b11100, 0b11101, 0b111010, 0b1110101, 0b111011],
   [0b11, 0b110, 0b1101, 0b11010, 0b110100, 0b110101, 0b1101010, 0b11010101, 0b1101011, 0b1, 0b10, 0b100, 0b101, 0b1010, 0b10101, 0b1011],
   [0b111111, 0b1110, 0b1111, 0b11110, 0b111100, 0b111101, 0b1111010, 0b11110101, 0b1111011, 0b11111, 0b1, 0b10, 0b11, 0b110, 0b1101, 0b111],
   [0b111111, 0b1110, 0b1111, 0b11110, 0b111100, 0b111101, 0b1111010, 0b11110101, 0b1111011, 0b11111, 0b111110, 0b1, 0b11, 0b110, 0b1101, 0b111],
   [0b11111, 0b110, 0b111, 0b1110, 0b11100, 0b11101, 0b111010, 0b1110101, 0b111011, 0b1111, 0b11110, 0b1010, 0b1, 0b10, 0b101, 0b11],
   [0b111111, 0b1110, 0b1111, 0b11110, 0b111100, 0b111101, 0b1111010, 0b11110101, 0b1111011, 0b11111, 0b111110, 0b110, 0b1101, 0b1, 0b11, 0b111],
   [0b11111, 0b110, 0b111, 0b1110, 0b11100, 0b11101, 0b111010, 0b1110101, 0b111011, 0b1111, 0b11110, 0b10, 0b101, 0b1010, 0b1, 0b11],
   [0b1111, 0b10, 0b11, 0b110, 0b1100, 0b1101, 0b11010, 0b110101, 0b11011, 0b111, 0b1110, 0b11100, 0b11101, 0b111010, 0b1110101, 0b1]
  ]

/-- The bits of a path-table entry: those after its leading 1, the most significant first. -/
def pathBits (entry : Nat) : BitSeq :=
  (List.range entry.log2).reverse.map entry.testBit

/-- `path(a, b)` of R106: the shortest TMS sequence from `a` to `b`. -/
def path (a b : TapState) : BitSeq :=
  pathBits ((pathTable.getD (tapIndex a) []).getD (tapIndex b) 1)

/-! ### BitSequences and bytes -/

/-- The bits of `makeBits(count, value)` where the value fits (R140): bit 0 first. -/
def bitsOf (count value : Nat) : BitSeq :=
  (List.range count).map value.testBit

/-- `toInt(seq)` of R142: element 0 is bit 0. -/
def toInt (seq : BitSeq) : Nat :=
  seq.foldr (fun b acc => b.toNat + 2 * acc) 0

/-- Byte `j` of `toBytes(seq)` (R143): bits `8j` to `8j + 7`, missing high bits 0. -/
def packedByte (seq : BitSeq) (j : Nat) : Byte :=
  BitVec.ofNat 8 (toInt ((seq.drop (8 * j)).take 8))

/-- `toBytes(seq)` of R143. -/
def toBytes (seq : BitSeq) : Bytes :=
  (List.range ((seq.length + 7) / 8)).map (packedByte seq)

/-- The bits of `fromBytes(bytes, count)` where the bytes supply them (R144). -/
def bitsOfBytes (bytes : Bytes) (count : Nat) : BitSeq :=
  (List.range count).map fun i => (bytes.getD (i / 8) 0).getLsbD (i % 8)

/-- `reverse(byte)` of R146, by the nibble table. -/
def reverse (b : Byte) : Byte :=
  BitVec.ofNat 8
    ((Config.nibbleRev.getD (b.toNat % 16) 0) * 16 + Config.nibbleRev.getD (b.toNat / 16) 0)

/-- `payloadBits(bytes)` of R149: every byte reversed, then serialised. -/
def payloadBits (bytes : Bytes) : BitSeq :=
  bitsOfBytes (bytes.map reverse) (8 * bytes.length)

/-- The bytes of `payloadBytes(bits)` of R150: packed, then every byte reversed. -/
def payloadBytesOf (bits : BitSeq) : Bytes :=
  (toBytes bits).map reverse

/-- The bytes of `le32(n)` of R152. -/
def le32Bytes (n : Nat) : Bytes :=
  [BitVec.ofNat 8 n, BitVec.ofNat 8 (n / 2 ^ 8), BitVec.ofNat 8 (n / 2 ^ 16), BitVec.ofNat 8 (n / 2 ^ 24)]

/-! ### Operand assembly (R79) -/

/-- The 6-bit operand of an IR instruction (R75, R79). -/
def irBits (code : BitVec 6) : BitSeq :=
  bitsOf Config.irWidth code.toNat

/-- `makeBits(6, INSTR_USER1)`. -/
def user1 : BitSeq :=
  irBits Config.instrUser1

/-- The width `SUBW` of a sub-instruction (R76). -/
def subWidth : SubCode → Nat
  | .w8 _ => 8
  | .w9 _ => 9

/-- `makeBits(SUBW, SUB)` of a sub-instruction (R76, R79). -/
def subBits : SubCode → BitSeq
  | .w8 v => bitsOf 8 v.toNat
  | .w9 v => bitsOf 9 v.toNat

/-- A capability's position in the 32-bit Capabilities word: 8 to 23 (R8). -/
def capPosition (i : Fin 16) : Nat :=
  8 + i.val

/-- The `len` field of an `FL` frame that carries `n` bits (R71). -/
def bulkLength (unit : LenUnit) (n : Nat) : Nat :=
  match unit with
  | .bits => n
  | .bytes => (n + 7) / 8

/-- The value of a table at a key, and of the function behind it where the table has no entry (Config.Params). -/
def lookup {α β : Type} [DecidableEq α] (table : List (α × β)) (behind : α → β) (a : α) : β :=
  match table.find? (fun e => decide (e.1 = a)) with
  | some e => e.2
  | none => behind a

/-- The `len` field of an `FL` frame's payload: its first four bytes, the least significant first (R71, R73). -/
def lenField (payload : Bytes) : Nat :=
  (payload.getD 0 0).toNat + 2 ^ 8 * (payload.getD 1 0).toNat + 2 ^ 16 * (payload.getD 2 0).toNat
    + 2 ^ 24 * (payload.getD 3 0).toNat

/-- `RESPONSE_LEN(op, payload)` (R72, R189): for `TDI_TDO`, the `FL` frame that returns TDO, it is derived from `len`
alone (DESIGN CHOICE, log 3). -/
def responseLen (p : Params) (op : Byte) (payload : Bytes) : Nat :=
  if op = 0x44 then lookup p.bulkResponseLens Config.bulkResponseLen (lenField payload)
  else lookup p.responseLens (fun o => Config.responseLen o payload) op

/-- `INFO_CHECKSUM_OK(resp)` (R250). -/
def infoChecksumOk (p : Params) (resp : Bytes) : Bool :=
  lookup p.infoChecksums Config.infoChecksumOk resp

/-- `ConfigureSeq(bitstream)` (R260). -/
def configureSeq (p : Params) (bitstream : Bytes) : List SeqOp :=
  lookup p.configureSeqs Config.configureSeq bitstream

/-! ### The operands of JTAG-primitive frames -/

/-- Bits as bytes, one a byte: what the OPEN codes of TransportCodec work on. -/
def bitBytes (seq : BitSeq) : Bytes :=
  seq.map fun b => if b then 1 else 0

/-- The bits of such bytes, where every byte is 0 or 1. -/
def bytesBits : Bytes → Option BitSeq
  | [] => some []
  | b :: more => if b = 0 ∨ b = 1 then (bytesBits more).map (decide (b = 1) :: ·) else none

/-- `TransportCodec.encodeTick(tms, tdi)` (R101, R174). -/
def encodeTick (tms tdi : Bool) : Bytes :=
  Config.tickCode (bitBytes [tms, tdi])

/-- The tick whose payload this is. -/
def decodeTick (payload : Bytes) : Option (Bool × Bool) :=
  match bytesBits (Config.tickCode.symm payload) with
  | some [tms, tdi] => some (tms, tdi)
  | _ => none

/-- `TransportCodec.encodeTmsSeq(seq)` (R181). -/
def encodeTmsSeq (seq : BitSeq) : Bytes :=
  Config.tmsCode (bitBytes seq)

/-- The TMS sequence whose payload this is. -/
def decodeTmsSeq (payload : Bytes) : Option BitSeq :=
  bytesBits (Config.tmsCode.symm payload)

/-- The payload bytes of a bulk frame: the length field, then the packed bits (R71, R176). -/
def bulkBytes (p : Params) (bits : BitSeq) : Bytes :=
  le32Bytes (bulkLength p.bulkLenUnit bits.length) ++ toBytes bits

/-- The zero bits of a byte above its highest set bit. -/
def highZeros (b : Byte) : Nat :=
  ((List.range 8).takeWhile fun i => !b.getLsbD (7 - i)).length

/-- How many bits a raw bulk payload carries: its length field says so where it counts bits; where it counts bytes, all
the data but the padding of the last byte, which is zero bits (R71). -/
def bulkCount (p : Params) (op : Byte) (payload : Bytes) : Nat :=
  match p.bulkLenUnit with
  | .bits => lenField payload
  | .bytes => 8 * (payload.length - 4) - min (Config.bulkPad op payload).val (highZeros (payload.getLastD 0))

/-- The bits of a raw bulk payload, where it is the payload of one or more bits. Bits whose length `le32` would refuse have
no payload (R152), so a payload that carries so many is none either, whatever its length field reads (DEDUCED, log 10). -/
def bulkOperand (p : Params) (op : Byte) (payload : Bytes) : Option BitSeq :=
  let n := bulkCount p op payload
  let bits := bitsOfBytes (payload.drop 4) n
  if n = 0 ∨ 8 * (payload.length - 4) < n ∨ 2 ^ 32 ≤ bulkLength p.bulkLenUnit n then none
  else if payload = bulkBytes p bits then some bits
  else none

/-- The (tms, tdi) pairs of a bulk frame (R173, R176): `tms = 0` on every bit, and on the last bit the mark. -/
def bulkTicks : BitSeq → Bool → List (Bool × Bool)
  | [], _ => []
  | [b], marked => [(marked, b)]
  | b :: c :: more, marked => (false, b) :: bulkTicks (c :: more) marked

/-- The ticks of a TMS sequence: `tdi = 0` (R103, R181). -/
def pathTicks (seq : BitSeq) : List (Bool × Bool) :=
  seq.map fun tms => (tms, false)

/-- The ticks at the port of a raw JTAG-primitive frame (R173): those of the operand that it is the payload of, as R174 to
R177 and R181 give them, and where it is the payload of none, the OPEN ones (DEDUCED, log 10). -/
def frameTicks (p : Params) (op : Byte) (payload : Bytes) : List (Bool × Bool) :=
  (if op = 0x42 ∨ op = 0x43 then (decodeTick payload).map fun t => [t]
    else if op = 0x4f then (decodeTmsSeq payload).map pathTicks
    else (bulkOperand p op payload).map fun bits => bulkTicks bits (Config.bulkMark op payload)).getD
    (Config.portTicks op payload)

/-- The TDO bits of a frame's `n` ticks that its response carries: the one bit of `TMS_TDI_TDO` (R175), and the bits of
`TDI_TDO` as far as the response goes (R176); the other frames' responses carry none (DEDUCED, log 11). -/
def responseTdo (op : Byte) (resp : Bytes) (n : Nat) : BitSeq :=
  if op = 0x43 then [Config.decodeTdo resp].take n
  else if op = 0x44 then bitsOfBytes resp (min n (8 * resp.length))
  else []

/-! ### Texts -/

/-- The value of a decimal digit. -/
def decDigit (c : Char) : Option Nat :=
  if 48 ≤ c.toNat && c.toNat ≤ 57 then some (c.toNat - 48) else none

/-- The value of a hexadecimal digit, of either case. -/
def hexDigit (c : Char) : Option Nat :=
  if 48 ≤ c.toNat && c.toNat ≤ 57 then some (c.toNat - 48)
  else if 97 ≤ c.toNat && c.toNat ≤ 102 then some (c.toNat - 87)
  else if 65 ≤ c.toNat && c.toNat ≤ 70 then some (c.toNat - 55)
  else none

/-- The value of a text of digits, read after the value `acc`. -/
def digitsFrom (base : Nat) (digit : Char → Option Nat) : Nat → Text → Option Nat
  | acc, [] => some acc
  | acc, c :: rest =>
    match digit c with
    | some d => digitsFrom base digit (acc * base + d) rest
    | none => none

/-- The value of a text of one or more digits. -/
def numeral (base : Nat) (digit : Char → Option Nat) : Text → Option Nat
  | [] => none
  | c :: rest => digitsFrom base digit 0 (c :: rest)

/-- The number an address argument stands for (R263): `0x` and hex digits, or decimal digits. -/
def addrValue : Text → Option Nat
  | '0' :: 'x' :: rest => numeral 16 hexDigit rest
  | s => numeral 10 decDigit s

/-- A hexadecimal digit as a character. -/
def hexChar (d : Nat) : Char :=
  if d < 10 then Char.ofNat (48 + d) else Char.ofNat (87 + d)

/-- A 32-bit value as hex text: `0x` and eight digits (R253) (DESIGN CHOICE, log 14). -/
def hexText (w : Word32) : Text :=
  '0' :: 'x' :: (List.range 8).reverse.map fun i => hexChar (w.toNat / 16 ^ i % 16)

end Sys2Proof.Machine
end

