-- ==== Sys2Proof/Machine/Flags.lean ====
section
/-! DEFINITION. The block has no flags and no condition codes (R26). This file holds the functions that read its
status and control words instead: the capability test (R28), the status decoding (R30) and what is derived from the
geometry (R29, R51, R214). -/

namespace Sys2Proof.Machine

/-- `hasCap(c, bitpos)` of R28: both guard bytes are `0xA5` and the bit is set. -/
def hasCap (c : Word32) (bitpos : Nat) : Bool :=
  c.extractLsb' 24 8 == Config.capsGuard && c.extractLsb' 0 8 == Config.capsGuard && c.getLsbD bitpos

/-- `decodeStatus(w)` of R30. -/
def decodeStatus (p : Params) (w : Word32) : OperationStatus :=
  if w = p.statusPassed then .passed
  else if w = p.statusFailed then .failed
  else .inProgress

/-- `stride = dataWidthBits / 8` (R29). -/
def stride (g : Geometry) : Nat :=
  g.dataWidthBits.toNat / 8

/-- `blockSizeBytes = 2 ^ blockAddrWidthBits` (R29). -/
def blockSizeBytes (g : Geometry) : Nat :=
  2 ^ g.blockAddrWidthBits.toNat

/-- `A = addrWidthBits` (file 43). -/
def addrWidth (g : Geometry) : Nat :=
  g.addrWidthBits.toNat

/-- `address & ~addrMask` with `addrMask = ~(stride - 1)` (R29): the address bits below the stride. -/
def belowStride (address str : Nat) : Nat :=
  address &&& (str - 1)

/-- A power of two. -/
def isPow2 (n : Nat) : Bool :=
  n != 0 && n &&& (n - 1) == 0

/-- The validity checks of R214 on the three geometry fields. -/
def validGeometry (g : Geometry) : Bool :=
  let d := g.dataWidthBits.toNat
  let a := g.addrWidthBits.toNat
  let b := g.blockAddrWidthBits.toNat
  !(d == 0 || d % 8 != 0 || !isPow2 (d / 8) || a == 0 || decide (2 ^ b < d / 8))

/-- The geometry an operation works with when none has been read: a legal one, of which nothing more is known (R214)
(DESIGN CHOICE, log 13). -/
def unreadGeometry : Geometry where
  dataWidthBits := BitVec.ofNat 8 (8 * 2 ^ Config.unreadStrideLog.val)
  addrWidthBits := BitVec.ofNat 8 (Config.unreadAddrGap.val + 1)
  blockAddrWidthBits := BitVec.ofNat 8 (max Config.unreadStrideLog.val Config.unreadBlockLog.val)

/-- The geometry fields of the 24-bit response (R29): `d = g[7:0]`, `a = g[15:8]`, `b = g[23:16]`. -/
def geometryOf (g : Nat) : Geometry where
  dataWidthBits := BitVec.ofNat 8 g
  addrWidthBits := BitVec.ofNat 8 (g / 2 ^ 8)
  blockAddrWidthBits := BitVec.ofNat 8 (g / 2 ^ 16)

/-- The chunks of `writeFlash` (R221): from a byte address, blocks of `block` bytes until the data is used up. The
first argument bounds the number of chunks; the length of the data is enough (R222). -/
def chunksFrom (block : Nat) : Nat → Nat → Bytes → List (Nat × Bytes)
  | 0, _, _ => []
  | _ + 1, _, [] => []
  | fuel + 1, address, b :: more =>
    let chunk := (b :: more).take block
    (address, chunk) :: chunksFrom block fuel (address + chunk.length) ((b :: more).drop block)

/-- The chunks of `writeFlash(data, address, ·)` under a geometry. -/
def chunkPlan (g : Geometry) (address : Nat) (data : Bytes) : List (Nat × Bytes) :=
  chunksFrom (blockSizeBytes g) data.length address data

end Sys2Proof.Machine
end

