-- ==== Sys2Proof/Machine/Ops.lean ====
section
/-! DEFINITION. The shared operations: the board's draws (R33, R34), taking an error (R304, R305, the block's only
exception entry; R306: there is no return from one), one tick (R101 to R104), one framed exchange (R189), and how an
operation's outcome settles into the next state (R21). -/

namespace Sys2Proof.Machine

/-- How an operation leaves before its end: an error was raised (R304), or it waits for the next status poll (R217). -/
inductive Exit where
  | raised | waiting
  deriving DecidableEq, Repr

/-- An operation of R11: it reads and writes the state, and returns a value or leaves early. -/
abbrev Op (α : Type) := EStateM Exit State α

/-! ### Draws -/

/-- The answer of the `k`-th transport call (DESIGN CHOICE, log 5). -/
def State.answerAt (s : State) (k : Nat) : Answer :=
  (s.script.answers[k]?).getD (Config.freeAnswer k)

/-- The TDO bit of the `k`-th drawn tick (DESIGN CHOICE, log 5). -/
def State.tdoAt (s : State) (k : Nat) : Bool :=
  (s.script.tdo[k]?).getD (Config.freeTdo k)

/-- The device's TAP state after the `k`-th transport failure (DESIGN CHOICE, log 5; DEDUCED, log 6). -/
def State.devTapAt (s : State) (k : Nat) : TapState :=
  (s.script.devTaps[k]?).getD (Config.freeDevTap k)

/-- Draws the next answer of the board. -/
def drawAnswer : Op Answer := fun s =>
  .ok (s.answerAt s.drawn.answers) { s with drawn := { s.drawn with answers := s.drawn.answers + 1 } }

/-- Draws a TDO bit (R34). -/
def drawTdo : Op Bool := fun s =>
  .ok (s.tdoAt s.drawn.tdo) { s with drawn := { s.drawn with tdo := s.drawn.tdo + 1 } }

/-- Draws `n` TDO bits. -/
def drawTdos : Nat → Op BitSeq
  | 0 => pure []
  | n + 1 => do
    let b ← drawTdo
    let rest ← drawTdos n
    return b :: rest

/-! ### Taking an error -/

/-- The state effect of an error (R305). After a transport failure the device's TAP state is a draw (R23) (DEDUCED, log
6). -/
def State.errorEffect (s : State) (code : ErrorCode) : State :=
  match code with
  | .transportError =>
    { s with
      tap := .unknown
      lastIR := .unknown
      pendingIR := .unknown
      devTap := s.devTapAt s.drawn.devTaps
      drawn := { s.drawn with devTaps := s.drawn.devTaps + 1 } }
  | .protocolDesyncError => { s with tap := .unknown, lastIR := .unknown, pendingIR := .unknown }
  | _ => s

/-- Error entry (R304, steps 1 to 3): the error log, the history, the state effect. -/
def State.enterError (s : State) (code : ErrorCode) (info : ErrorInfo) : State :=
  State.errorEffect
    { s with errors := s.errors ++ [{ code := code, info := info }], history := s.history ++ [.error code] } code

/-- The state effect of a transport failure that an operation catches (R23, R305): the first failed read of `openSession`
(R250) (DEDUCED, log 6). -/
def loseTap : Op Unit := fun s =>
  .ok () (s.errorEffect .transportError)

/-- `raise E(info)` (R10, R304). The cleanup of step 4 is `releaseAfter`, the end of the run of step 5 is `settle`. -/
def raise {α : Type} (code : ErrorCode) (info : ErrorInfo) : Op α := fun s =>
  .error .raised (s.enterError code info)

/-- Raises the TransportError of a failed transport call. The flash pin is `Unknown` after a failed `FLASH_ONOFF`
frame (R305). -/
def raiseTransport {α : Type} (flashPinFrame : Bool) (kind : FailKind) : Op α := fun s =>
  .error .raised
    { s.enterError .transportError (.transport kind) with
      flashPin := if flashPinFrame then .unknown else s.flashPin }

/-! ### Transport calls (R10, R33) -/

/-- The kinds a failing `TransportOpen`, `UsbWrite` or `UsbRead` can have (R300); any other drawn kind counts as the
call's own (DESIGN CHOICE, log 21). -/
def openKind : FailKind → FailKind
  | .claim => .claim
  | _ => .openFail

def writeKind : FailKind → FailKind
  | .timeout => .timeout
  | _ => .write

def readKind : FailKind → FailKind
  | .timeout => .timeout
  | _ => .read

/-- `TransportOpen()` (R250). -/
def transportOpen : Op Unit := do
  match ← drawAnswer with
  | .ok _ => pure ()
  | .fail k => raiseTransport false (openKind k)

/-- `UsbWrite(bytes)` (R10). The bytes leave the block; what the history keeps of them is the caller's. -/
def usbWrite (flashPinFrame : Bool) (_bytes : Bytes) : Op Unit := do
  match ← drawAnswer with
  | .ok _ => pure ()
  | .fail k => raiseTransport flashPinFrame (writeKind k)

/-- `UsbRead(maxlen)` with the failure returned and not raised: the form `openSession` needs for its one retry (R250).
A successful read returns between 0 and `maxlen` bytes (R33). -/
def tryRead (maxlen : Nat) : Op (Except FailKind Bytes) := do
  match ← drawAnswer with
  | .ok bytes => return .ok (bytes.take maxlen)
  | .fail k => return .error (readKind k)

/-- `UsbRead(maxlen)` (R10). -/
def usbRead (flashPinFrame : Bool) (maxlen : Nat) : Op Bytes := do
  match ← tryRead maxlen with
  | .ok bytes => return bytes
  | .error k => raiseTransport flashPinFrame k

/-- Appends events to the history (R38). -/
def record (events : List Event) : Op Unit := fun s =>
  .ok () { s with history := s.history ++ events }

/-! ### The JTAG port -/

/-- `updateIR(pre, post)` of R104, on the pair `lastIR`, `pendingIR`. -/
def updateIR (inShiftInstruction : Bool) (pre post : Tracked) (lastIR : IrCopy) (pendingIR : PendingIr) :
    IrCopy × PendingIr :=
  if post = .known .testLogicReset ∨ post = .unknown then (.unknown, .unknown)
  else if post = .known .captureIr then (lastIR, .clean)
  else if pre = .known .shiftIr ∧ inShiftInstruction = false then (lastIR, .unknown)
  else if post = .known .updateIr then
    (match pendingIR with
      | .instr x => .instr x
      | _ => .unknown, pendingIR)
  else (lastIR, pendingIR)

/-- The effect of one tick that has reached the board (R101): the device and the tracked state advance alike, the
instruction tracking runs, and the tick is recorded with its pre-state (DEDUCED, log 9). -/
def State.portTick (s : State) (inShiftInstruction tms tdi tdo : Bool) : State :=
  let post := nextTracked s.tap tms
  let ir := updateIR inShiftInstruction s.tap post s.lastIR s.pendingIR
  { s with
    devTap := next s.devTap tms
    tap := post
    lastIR := ir.1
    pendingIR := ir.2
    history := s.history ++ [.tick tms tdi tdo s.tap] }

/-- One tick at the port, as an operation. -/
def portTick (inShiftInstruction tms tdi tdo : Bool) : Op Unit := fun s =>
  .ok () (s.portTick inShiftInstruction tms tdi tdo)

/-- A run of ticks at the port that is no `shiftInstruction`: (tms, tdi, tdo) each (R173). -/
def portTicks : List (Bool × Bool × Bool) → Op Unit
  | [] => pure ()
  | (tms, tdi, tdo) :: more => do
    portTick false tms tdi tdo
    portTicks more

/-- `tick(tms, tdi) -> tdo` of R101, with the flag `inShiftInstruction` of R104. The TDO bit is a draw (R34). -/
def tickIn (inShiftInstruction tms tdi : Bool) : Op Bool := do
  usbWrite false (encodeTick tms tdi)
  let s ← get
  let _ ← usbRead false (responseLen s.params 0x43 (encodeTick tms tdi))
  let tdo ← drawTdo
  portTick inShiftInstruction tms tdi tdo
  return tdo

/-- `tick(tms, tdi)` outside `shiftInstruction`. -/
def tick (tms tdi : Bool) : Op Bool :=
  tickIn false tms tdi

/-- Clocks a non-empty operand, one tick a bit, `tms = 0` on every bit but the last (R107), and returns the TDO bits. -/
def shiftBits (inShiftInstruction : Bool) : BitSeq → Op BitSeq
  | [] => pure []
  | [b] => do
    let t ← tickIn inShiftInstruction true b
    return [t]
  | b :: c :: more => do
    let t ← tickIn inShiftInstruction false b
    let rest ← shiftBits inShiftInstruction (c :: more)
    return t :: rest

/-! ### Operands that are checked -/

/-- `makeBits(count, value)` of R140. -/
def makeBits (count value : Nat) : Op BitSeq :=
  if value < 2 ^ count then pure (bitsOf count value)
  else raise .invalidOperand (.operands count value)

/-- `fromBytes(bytes, count)` of R144. -/
def fromBytes (bytes : Bytes) (count : Nat) : Op BitSeq :=
  if count ≤ 8 * bytes.length then pure (bitsOfBytes bytes count)
  else raise .invalidOperand (.operands count bytes.length)

/-- `payloadBytes(bits)` of R150. -/
def payloadBytes (bits : BitSeq) : Op Bytes :=
  if bits.length % 8 = 0 then pure (payloadBytesOf bits)
  else raise .invalidOperand (.operand bits.length)

/-- `le32(n)` of R152. -/
def le32 (n : Nat) : Op Bytes :=
  if n < 2 ^ 32 then pure (le32Bytes n)
  else raise .invalidOperand (.operand n)

/-! ### The framing primitive -/

/-- One framed exchange of R189 with an opcode of the vocabulary: one write, then exactly one read, then both are
recorded. The timeouts have no effect in the untimed model (R311) (DEDUCED, log 9). -/
def exchange (op : Byte) (payload : Bytes) : Op Bytes := do
  let onPin := op == 0x50
  usbWrite onPin (op :: payload)
  let s ← get
  let resp ← usbRead onPin (responseLen s.params op payload)
  record [.write (op :: payload), .read resp]
  return resp

/-- A framed exchange that has these ticks (tms, tdi) at the port (R173): their TDO bits are those that the response
carries, and then draws (DEDUCED, log 11). -/
def portFrame (op : Byte) (payload : Bytes) (ticks : List (Bool × Bool)) : Op Bytes := do
  let resp ← exchange op payload
  let given := responseTdo op resp ticks.length
  let drawn ← drawTdos (ticks.length - given.length)
  portTicks ((ticks.zip (given ++ drawn)).map fun t => (t.1.1, t.1.2, t.2))
  return resp

/-! ### Settling -/

/-- How an operation's result settles: a completed operation returns its value and the position advances by one (R21); a
raised error ends the run at its position (R304, step 5); an operation that waits for a poll stays in progress (DESIGN
CHOICE, log 19). -/
def settle {α : Type} (value : α → Value) : EStateM.Result Exit State α → State
  | .ok a s => { s with result := value a, pc := s.pc + 1, busy := none }
  | .error .raised s => { s with result := .none, ended := true, busy := none }
  | .error .waiting s => s

/-- Runs an operation as an instruction. -/
def runOp {α : Type} (value : α → Value) (op : Op α) (s : State) : Host.Outcome State Fault Refusal :=
  .next (settle value (op s))

/-- Runs an operation that returns nothing. -/
def runUnit (op : Op Unit) (s : State) : Host.Outcome State Fault Refusal :=
  runOp (fun _ => .none) op s

/-- The mark `Refused(op)` of R189 and R300: nothing is written, and the run is stuck. -/
def refuseOpcode (op : Byte) : Host.Outcome State Fault Refusal :=
  .refused (.refusedOpcode op)

end Sys2Proof.Machine
end

