-- ==== Sys2Proof/Machine/Codec.lean ====
section
/-! DEFINITION. The meanings of the codec rows (file 41) and of the state functions `hasCap` and `decodeStatus`
(R28, R30). They write no state of the block: they return a value, or raise InvalidOperand. -/

namespace Sys2Proof.Machine

/-- Row `makeBits` (R140). -/
def execMakeBits (count value : Nat) (s : State) : Host.Outcome State Fault Refusal :=
  runOp .bits (makeBits count value) s

/-- Row `concat` (R141). -/
def execConcat (a b : BitSeq) (s : State) : Host.Outcome State Fault Refusal :=
  runOp .bits (pure (a ++ b)) s

/-- Row `toInt` (R142). -/
def execToInt (seq : BitSeq) (s : State) : Host.Outcome State Fault Refusal :=
  runOp .nat (pure (toInt seq)) s

/-- Row `toBytes` (R143). -/
def execToBytes (seq : BitSeq) (s : State) : Host.Outcome State Fault Refusal :=
  runOp .bytes (pure (toBytes seq)) s

/-- Row `fromBytes` (R144). -/
def execFromBytes (bytes : Bytes) (count : Nat) (s : State) : Host.Outcome State Fault Refusal :=
  runOp .bits (fromBytes bytes count) s

/-- Row `reverse` (R146). -/
def execReverse (byte : Byte) (s : State) : Host.Outcome State Fault Refusal :=
  runOp .byte (pure (reverse byte)) s

/-- Row `payloadBits` (R149). -/
def execPayloadBits (bytes : Bytes) (s : State) : Host.Outcome State Fault Refusal :=
  runOp .bits (pure (payloadBits bytes)) s

/-- Row `payloadBytes` (R150). -/
def execPayloadBytes (bits : BitSeq) (s : State) : Host.Outcome State Fault Refusal :=
  runOp .bytes (payloadBytes bits) s

/-- Row `le32` (R152). -/
def execLe32 (n : Nat) (s : State) : Host.Outcome State Fault Refusal :=
  runOp .bytes (le32 n) s

/-- Row `hasCap` (R28). -/
def execHasCap (c : Word32) (bitpos : Nat) (s : State) : Host.Outcome State Fault Refusal :=
  runOp .bit (pure (hasCap c bitpos)) s

/-- Row `decodeStatus` (R30). -/
def execDecodeStatus (w : Word32) (s : State) : Host.Outcome State Fault Refusal :=
  runOp .status (pure (decodeStatus s.params w)) s

end Sys2Proof.Machine
end

