-- ==== Sys2Proof/Decode.lean ====
section
/-! DEFINITION. Decoding a program entry to its instruction, and encoding an instruction, from the tables of file 30:
the opcode map (R74), the IR value of USER1 (R75), and the typed calls of the rows without a bit pattern (R11, R84).
`decode` is total and rejects by name. `decodeTableWord` reads a row's bits as spec/opcode_table.json numbers them. -/

namespace Sys2Proof

/-! ### The opcode map -/

/-- What file 42 makes of an opcode byte: one of the 28 of R74, admitted or refused, or a byte outside the vocabulary. -/
inductive OpcodeClass where
  | admitted | refused | unlisted
  deriving DecidableEq, Repr

/-- The admitted opcodes (file 42, introduction). -/
def admittedOpcodes : List Byte :=
  [0x40, 0x50, 0x05, 0x42, 0x43, 0x44, 0x46, 0x4f, 0x49]

/-- The refused opcodes (file 42; D39). -/
def refusedOpcodes : List Byte :=
  [0x00, 0x01, 0x02, 0x03, 0x04, 0x06, 0x07, 0x31, 0x32, 0x41,
   0x45, 0x47, 0x48, 0x4a, 0x4b, 0x4c, 0x4d, 0x4e, 0xff]

/-- The class of an opcode byte (R74, R81). -/
def opcodeClass (op : Byte) : OpcodeClass :=
  if op ∈ admittedOpcodes then .admitted
  else if op ∈ refusedOpcodes then .refused
  else .unlisted

/-- The JTAG primitives among the admitted opcodes (R173, R174 to R177, R181). -/
def isJtagPrimitive (op : Byte) : Bool :=
  op ∈ ([0x42, 0x43, 0x44, 0x46, 0x4f] : List Byte)

/-! ### Decoding -/

/-- Why a program entry is no instruction. -/
inductive Reject where
  /-- The first byte of a frame is outside the vocabulary of R74 (R81). -/
  | unknownOpcode (op : Byte)
  /-- The argument byte of `FLASH_ONOFF` is neither `0x01` nor `0x00` (R165). -/
  | badOnOffByte (b : Byte)
  /-- The frame's operands are not of the form its opcode takes (R71, R74). -/
  | badFrameOperand (op : Byte)
  /-- The call's arguments are not of the types its rule gives (R11). -/
  | badArguments (m : Mnemonic)
  deriving DecidableEq, Repr

/-- The instruction of a USB frame (R70 to R74). -/
def decodeFrame (op : Byte) (arg : FrameArg) : Except Reject Instr :=
  if op = 0x00 then
    match arg with
    | .raw p => .ok (.usbReadVersion p)
    | _ => .error (.badFrameOperand op)
  else if op = 0x40 then
    match arg with
    | .raw p => .ok (.usbInfo p)
    | _ => .error (.badFrameOperand op)
  else if op = 0x01 then
    match arg with
    | .raw p => .ok (.usbReadFlash p)
    | _ => .error (.badFrameOperand op)
  else if op = 0x02 then
    match arg with
    | .raw p => .ok (.usbWriteFlash p)
    | _ => .error (.badFrameOperand op)
  else if op = 0x03 then
    match arg with
    | .raw p => .ok (.usbEraseFlash p)
    | _ => .error (.badFrameOperand op)
  else if op = 0x50 then
    match arg with
    | .onOff b =>
      if b = Config.flashOnOffAssert then .ok (.usbFlashOnOff true)
      else if b = Config.flashOnOffRelease then .ok (.usbFlashOnOff false)
      else .error (.badOnOffByte b)
    | _ => .error (.badFrameOperand op)
  else if op = 0x04 then
    match arg with
    | .raw p => .ok (.usbReadEedata p)
    | _ => .error (.badFrameOperand op)
  else if op = 0x05 then
    match arg with
    | .eeprom a v => .ok (.usbWriteEedata a v)
    | _ => .error (.badFrameOperand op)
  else if op = 0x06 then
    match arg with
    | .raw p => .ok (.usbReadConfig p)
    | _ => .error (.badFrameOperand op)
  else if op = 0x07 then
    match arg with
    | .raw p => .ok (.usbWriteConfig p)
    | _ => .error (.badFrameOperand op)
  else if op = 0x31 then
    match arg with
    | .raw p => .ok (.usbIdBoard p)
    | _ => .error (.badFrameOperand op)
  else if op = 0x32 then
    match arg with
    | .raw p => .ok (.usbUpdateLed p)
    | _ => .error (.badFrameOperand op)
  else if op = 0x41 then
    match arg with
    | .raw p => .ok (.usbSenseInverters p)
    | _ => .error (.badFrameOperand op)
  else if op = 0x42 then
    match arg with
    | .tick t d => .ok (.usbTmsTdi t d)
    | _ => .error (.badFrameOperand op)
  else if op = 0x43 then
    match arg with
    | .tick t d => .ok (.usbTmsTdiTdo t d)
    | _ => .error (.badFrameOperand op)
  else if op = 0x44 then
    match arg with
    | .bulk b m => .ok (.usbTdiTdo b m)
    | _ => .error (.badFrameOperand op)
  else if op = 0x45 then
    match arg with
    | .bitCount n => .ok (.usbTdo n)
    | _ => .error (.badFrameOperand op)
  else if op = 0x46 then
    match arg with
    | .bulk b m => .ok (.usbTdi b m)
    | _ => .error (.badFrameOperand op)
  else if op = 0x47 then
    match arg with
    | .raw p => .ok (.usbRuntest p)
    | _ => .error (.badFrameOperand op)
  else if op = 0x48 then
    match arg with
    | .raw p => .ok (.usbNullTdi p)
    | _ => .error (.badFrameOperand op)
  else if op = 0x4f then
    match arg with
    | .tmsSeq q => .ok (.usbTapSeq q)
    | _ => .error (.badFrameOperand op)
  else if op = 0x49 then
    match arg with
    | .raw p => .ok (.usbProg p)
    | _ => .error (.badFrameOperand op)
  else if op = 0x4a then
    match arg with
    | .raw p => .ok (.usbSingleTestVector p)
    | _ => .error (.badFrameOperand op)
  else if op = 0x4b then
    match arg with
    | .raw p => .ok (.usbGetTestVector p)
    | _ => .error (.badFrameOperand op)
  else if op = 0x4c then
    match arg with
    | .raw p => .ok (.usbSetOscFreq p)
    | _ => .error (.badFrameOperand op)
  else if op = 0x4d then
    match arg with
    | .raw p => .ok (.usbEnableReturn p)
    | _ => .error (.badFrameOperand op)
  else if op = 0x4e then
    match arg with
    | .raw p => .ok (.usbDisableReturn p)
    | _ => .error (.badFrameOperand op)
  else if op = 0xff then
    match arg with
    | .raw p => .ok (.usbReset p)
    | _ => .error (.badFrameOperand op)
  else .error (.unknownOpcode op)

/-- The bits of a 6-bit instruction value, bit 0 first (R75, R79). -/
def codeBits (code : BitVec 6) : BitSeq :=
  (List.range Config.irWidth).map code.getLsbD

/-- The instruction of a 6-bit IR value: USER1 has the one value the spec gives (R75); any other value is shifted as it
is, for `shiftInstruction` accepts every 6-bit value (R83) (DEDUCED, log 2). -/
def decodeIr (code : BitVec 6) : Instr :=
  if code = Config.instrUser1 then .irUser1 else .shiftInstruction (codeBits code)

/-- The instruction of a named call, whose arguments are typed (R11, R77). -/
def decodeNamed (m : Mnemonic) (args : List Arg) : Except Reject Instr :=
  match m with
  | .user2 => match args with
    | [] => .ok .irUser2
    | _ => .error (.badArguments m)
  | .idcode => match args with
    | [] => .ok .irIdcode
    | _ => .error (.badArguments m)
  | .usercode => match args with
    | [] => .ok .irUsercode
    | _ => .error (.badArguments m)
  | .cfgIn => match args with
    | [] => .ok .irCfgIn
    | _ => .error (.badArguments m)
  | .jprogram => match args with
    | [] => .ok .irJprogram
    | _ => .error (.badArguments m)
  | .jstart => match args with
    | [] => .ok .irJstart
    | _ => .error (.badArguments m)
  | .bypass => match args with
    | [] => .ok .irBypass
    | _ => .error (.badArguments m)
  | .subCapabilities => match args with
    | [] => .ok .subCapabilities
    | _ => .error (.badArguments m)
  | .subFlashSize => match args with
    | [] => .ok .subFlashSize
    | _ => .error (.badArguments m)
  | .subFlashErase => match args with
    | [] => .ok .subFlashErase
    | _ => .error (.badArguments m)
  | .subFlashPgm => match args with
    | [.nat a, .nat b] => .ok (.subFlashPgm a b)
    | _ => .error (.badArguments m)
  | .subFlashRead => match args with
    | [.nat a, .nat b] => .ok (.subFlashRead a b)
    | _ => .error (.badArguments m)
  | .tick => match args with
    | [.bit a, .bit b] => .ok (.tick a b)
    | _ => .error (.badArguments m)
  | .goto => match args with
    | [.bits a] => .ok (.goto a)
    | _ => .error (.badArguments m)
  | .path => match args with
    | [.tapState a, .tapState b] => .ok (.path a b)
    | _ => .error (.badArguments m)
  | .gotoState => match args with
    | [.tapState a] => .ok (.gotoState a)
    | _ => .error (.badArguments m)
  | .assertState => match args with
    | [.tapState a] => .ok (.assertState a)
    | _ => .error (.badArguments m)
  | .shiftInstruction => match args with
    | [.bits a] => .ok (.shiftInstruction a)
    | _ => .error (.badArguments m)
  | .shiftData => match args with
    | [.bits a, .bit b] => .ok (.shiftData a b)
    | _ => .error (.badArguments m)
  | .reset => match args with
    | [] => .ok .reset
    | _ => .error (.badArguments m)
  | .loadInstructionThenData => match args with
    | [.bits a, .bits b, .bit c] => .ok (.loadInstructionThenData a b c)
    | _ => .error (.badArguments m)
  | .scanDR => match args with
    | [.bits a, .bit b] => .ok (.scanDR a b)
    | _ => .error (.badArguments m)
  | .makeBits => match args with
    | [.nat a, .nat b] => .ok (.makeBits a b)
    | _ => .error (.badArguments m)
  | .concat => match args with
    | [.bits a, .bits b] => .ok (.concat a b)
    | _ => .error (.badArguments m)
  | .toInt => match args with
    | [.bits a] => .ok (.toInt a)
    | _ => .error (.badArguments m)
  | .toBytes => match args with
    | [.bits a] => .ok (.toBytes a)
    | _ => .error (.badArguments m)
  | .fromBytes => match args with
    | [.bytes a, .nat b] => .ok (.fromBytes a b)
    | _ => .error (.badArguments m)
  | .reverse => match args with
    | [.byte a] => .ok (.reverse a)
    | _ => .error (.badArguments m)
  | .payloadBits => match args with
    | [.bytes a] => .ok (.payloadBits a)
    | _ => .error (.badArguments m)
  | .payloadBytes => match args with
    | [.bits a] => .ok (.payloadBytes a)
    | _ => .error (.badArguments m)
  | .le32 => match args with
    | [.nat a] => .ok (.le32 a)
    | _ => .error (.badArguments m)
  | .command => match args with
    | [.byte a, .bytes b] => .ok (.command a b)
    | _ => .error (.badArguments m)
  | .hasCap => match args with
    | [.word a, .nat b] => .ok (.hasCap a b)
    | _ => .error (.badArguments m)
  | .decodeStatus => match args with
    | [.word a] => .ok (.decodeStatus a)
    | _ => .error (.badArguments m)
  | .checkUser1 => match args with
    | [] => .ok .checkUser1
    | _ => .error (.badArguments m)
  | .probeCapabilities => match args with
    | [] => .ok .probeCapabilities
    | _ => .error (.badArguments m)
  | .ensureCapability => match args with
    | [.nat a, .bit b] => .ok (.ensureCapability a b)
    | _ => .error (.badArguments m)
  | .readGeometry => match args with
    | [] => .ok .readGeometry
    | _ => .error (.badArguments m)
  | .validateRange => match args with
    | [.nat a, .nat b] => .ok (.validateRange a b)
    | _ => .error (.badArguments m)
  | .eraseFlash => match args with
    | [] => .ok .eraseFlash
    | _ => .error (.badArguments m)
  | .pollUntilTerminal => match args with
    | [] => .ok .pollUntilTerminal
    | _ => .error (.badArguments m)
  | .programChunk => match args with
    | [.nat a, .bytes b] => .ok (.programChunk a b)
    | _ => .error (.badArguments m)
  | .setFlashPin => match args with
    | [.bit a] => .ok (.setFlashPin a)
    | _ => .error (.badArguments m)
  | .readFlash => match args with
    | [.nat a, .nat b, .bit c] => .ok (.readFlash a b c)
    | _ => .error (.badArguments m)
  | .writeFlash => match args with
    | [.bytes a, .nat b, .bit c] => .ok (.writeFlash a b c)
    | _ => .error (.badArguments m)
  | .releaseOnExit => match args with
    | [] => .ok .releaseOnExit
    | _ => .error (.badArguments m)
  | .openSession => match args with
    | [.config a] => .ok (.openSession a)
    | _ => .error (.badArguments m)
  | .readIdcode => match args with
    | [] => .ok .readIdcode
    | _ => .error (.badArguments m)
  | .checkIdentity => match args with
    | [] => .ok .checkIdentity
    | _ => .error (.badArguments m)
  | .readUsercode => match args with
    | [] => .ok .readUsercode
    | _ => .error (.badArguments m)
  | .toggleProgPin => match args with
    | [] => .ok .toggleProgPin
    | _ => .error (.badArguments m)
  | .enableFlash => match args with
    | [.bit a] => .ok (.enableFlash a)
    | _ => .error (.badArguments m)
  | .configureFpga => match args with
    | [.bytes a] => .ok (.configureFpga a)
    | _ => .error (.badArguments m)
  | .parseAddr => match args with
    | [.text a] => .ok (.parseAddr a)
    | _ => .error (.badArguments m)

/-- The instruction of a program entry: total, and rejecting by name. -/
def decode : Call → Except Reject Instr
  | .frame op arg => decodeFrame op arg
  | .ir code => .ok (decodeIr code)
  | .named m args => decodeNamed m args

/-! ### Encoding -/

/-- The program entry of an instruction, from the same tables. -/
def encode : Instr → Call
  | .usbReadVersion p => .frame 0x00 (.raw p)
  | .usbInfo p => .frame 0x40 (.raw p)
  | .usbReadFlash p => .frame 0x01 (.raw p)
  | .usbWriteFlash p => .frame 0x02 (.raw p)
  | .usbEraseFlash p => .frame 0x03 (.raw p)
  | .usbFlashOnOff on => .frame 0x50 (.onOff (if on then Config.flashOnOffAssert else Config.flashOnOffRelease))
  | .usbReadEedata p => .frame 0x04 (.raw p)
  | .usbWriteEedata a v => .frame 0x05 (.eeprom a v)
  | .usbReadConfig p => .frame 0x06 (.raw p)
  | .usbWriteConfig p => .frame 0x07 (.raw p)
  | .usbIdBoard p => .frame 0x31 (.raw p)
  | .usbUpdateLed p => .frame 0x32 (.raw p)
  | .usbSenseInverters p => .frame 0x41 (.raw p)
  | .usbTmsTdi t d => .frame 0x42 (.tick t d)
  | .usbTmsTdiTdo t d => .frame 0x43 (.tick t d)
  | .usbTdiTdo b m => .frame 0x44 (.bulk b m)
  | .usbTdo n => .frame 0x45 (.bitCount n)
  | .usbTdi b m => .frame 0x46 (.bulk b m)
  | .usbRuntest p => .frame 0x47 (.raw p)
  | .usbNullTdi p => .frame 0x48 (.raw p)
  | .usbTapSeq q => .frame 0x4f (.tmsSeq q)
  | .usbProg p => .frame 0x49 (.raw p)
  | .usbSingleTestVector p => .frame 0x4a (.raw p)
  | .usbGetTestVector p => .frame 0x4b (.raw p)
  | .usbSetOscFreq p => .frame 0x4c (.raw p)
  | .usbEnableReturn p => .frame 0x4d (.raw p)
  | .usbDisableReturn p => .frame 0x4e (.raw p)
  | .usbReset p => .frame 0xff (.raw p)
  | .irUser1 => .ir Config.instrUser1
  | .irUser2 => .named .user2 []
  | .irIdcode => .named .idcode []
  | .irUsercode => .named .usercode []
  | .irCfgIn => .named .cfgIn []
  | .irJprogram => .named .jprogram []
  | .irJstart => .named .jstart []
  | .irBypass => .named .bypass []
  | .subCapabilities => .named .subCapabilities []
  | .subFlashSize => .named .subFlashSize []
  | .subFlashErase => .named .subFlashErase []
  | .subFlashPgm a b => .named .subFlashPgm [.nat a, .nat b]
  | .subFlashRead a b => .named .subFlashRead [.nat a, .nat b]
  | .tick a b => .named .tick [.bit a, .bit b]
  | .goto a => .named .goto [.bits a]
  | .path a b => .named .path [.tapState a, .tapState b]
  | .gotoState a => .named .gotoState [.tapState a]
  | .assertState a => .named .assertState [.tapState a]
  | .shiftInstruction a => .named .shiftInstruction [.bits a]
  | .shiftData a b => .named .shiftData [.bits a, .bit b]
  | .reset => .named .reset []
  | .loadInstructionThenData a b c => .named .loadInstructionThenData [.bits a, .bits b, .bit c]
  | .scanDR a b => .named .scanDR [.bits a, .bit b]
  | .makeBits a b => .named .makeBits [.nat a, .nat b]
  | .concat a b => .named .concat [.bits a, .bits b]
  | .toInt a => .named .toInt [.bits a]
  | .toBytes a => .named .toBytes [.bits a]
  | .fromBytes a b => .named .fromBytes [.bytes a, .nat b]
  | .reverse a => .named .reverse [.byte a]
  | .payloadBits a => .named .payloadBits [.bytes a]
  | .payloadBytes a => .named .payloadBytes [.bits a]
  | .le32 a => .named .le32 [.nat a]
  | .command a b => .named .command [.byte a, .bytes b]
  | .hasCap a b => .named .hasCap [.word a, .nat b]
  | .decodeStatus a => .named .decodeStatus [.word a]
  | .checkUser1 => .named .checkUser1 []
  | .probeCapabilities => .named .probeCapabilities []
  | .ensureCapability a b => .named .ensureCapability [.nat a, .bit b]
  | .readGeometry => .named .readGeometry []
  | .validateRange a b => .named .validateRange [.nat a, .nat b]
  | .eraseFlash => .named .eraseFlash []
  | .pollUntilTerminal => .named .pollUntilTerminal []
  | .programChunk a b => .named .programChunk [.nat a, .bytes b]
  | .setFlashPin a => .named .setFlashPin [.bit a]
  | .readFlash a b c => .named .readFlash [.nat a, .nat b, .bit c]
  | .writeFlash a b c => .named .writeFlash [.bytes a, .nat b, .bit c]
  | .releaseOnExit => .named .releaseOnExit []
  | .openSession a => .named .openSession [.config a]
  | .readIdcode => .named .readIdcode []
  | .checkIdentity => .named .checkIdentity []
  | .readUsercode => .named .readUsercode []
  | .toggleProgPin => .named .toggleProgPin []
  | .enableFlash a => .named .enableFlash [.bit a]
  | .configureFpga a => .named .configureFpga [.bytes a]
  | .parseAddr a => .named .parseAddr [.text a]

/-! ### The table's words -/

/-- The operands of a table word's frame whose payload bytes are `rest` and, beyond them, zeros; spec/opcode_table.json
gives the opcode byte only, and the layouts are OPEN. `TMS_TDI` and `TMS_TDI_TDO` read two bits of the first byte; the
bulk opcodes are given the empty operand, `TDO` the bit count 0 and `TAP_SEQ` the empty sequence, whatever bytes follow
(DEDUCED, log 2). -/
def frameOperands (op : Byte) (rest : Bytes) : FrameArg :=
  if op = 0x50 then .onOff (rest.getD 0 0)
  else if op = 0x05 then .eeprom (rest.getD 0 0) (rest.getD 1 0)
  else if op = 0x42 ∨ op = 0x43 then .tick ((rest.getD 0 0).getLsbD 0) ((rest.getD 0 0).getLsbD 1)
  else if op = 0x44 ∨ op = 0x46 then .bulk [] false
  else if op = 0x45 then .bitCount 0
  else if op = 0x4f then .tmsSeq []
  else .raw rest

/-- The bytes of a word of `n` bytes, the least significant first (R73). -/
def wordBytes : Nat → Nat → Bytes
  | 0, _ => []
  | n + 1, w => BitVec.ofNat 8 w :: wordBytes n (w / 256)

/-- The program entry of a table word: fewer than 8 bits are an IR value (R75); otherwise byte 0 is the opcode of a USB
frame (R70) (DEDUCED, log 2). -/
def callOfTableWord (nbits w : Nat) : Call :=
  if nbits < 8 then .ir (BitVec.ofNat 6 w)
  else
    let op := BitVec.ofNat 8 w
    .frame op (frameOperands op (wordBytes (nbits / 8 - 1) (w / 256)))

/-- The instruction the decoder reads from a table word, and none where it rejects (DEDUCED, log 2). -/
def decodeTableWord (nbits w : Nat) : Option Instr :=
  match decode (callOfTableWord nbits w) with
  | .ok i => some i
  | .error _ => none

end Sys2Proof
end

