-- ==== Sys2Proof/Machine/Tap.lean ====
section
/-! DEFINITION. The TAP operations (file 40): the operations of R105 to R113, and the meanings of their rows and of the
IR-instruction rows (R75). -/

namespace Sys2Proof.Machine

/-! ### The operations -/

/-- `goto(seq)` of R105: every tick carries `tdi = 0` (R103). -/
def goto : BitSeq → Op Unit
  | [] => pure ()
  | tms :: more => do
    let _ ← tick tms false
    goto more

/-- `assertState(expected)` of R111. -/
def assertState (expected : TapState) : Op Unit := do
  let s ← get
  if s.tap = .known expected then pure ()
  else raise .protocolDesyncError (.tapMismatch expected s.tap)

/-- `gotoState(target)` of R106. -/
def gotoState (target : TapState) : Op Unit := do
  let s ← get
  match s.tap with
  | .unknown => raise .protocolDesyncError (.tapMismatch target .unknown)
  | .known t => do
    goto (path t target)
    assertState target

/-- `pendingIR` after a `shiftInstruction` that began with `clean` (R104, R108). -/
def setPending (clean : Bool) (instr : BitSeq) : Op Unit := fun s =>
  .ok () { s with pendingIR := if clean then .instr instr else .unknown }

/-- `shiftInstruction(instr)` of R108 (DEDUCED, log 18). -/
def shiftInstruction (instr : BitSeq) : Op Unit := do
  let s ← get
  if s.tap ≠ .known .shiftIr then raise .protocolDesyncError (.tapMismatch .shiftIr s.tap)
  else if instr.length ≠ Config.irWidth then raise .invalidOperand (.operand instr.length)
  else do
    let _ ← shiftBits true instr
    setPending (decide (s.pendingIR = .clean)) instr

/-- `shiftData(bits, receive)` of R109 (DEDUCED, log 18). -/
def shiftData (bits : BitSeq) (receive : Bool) : Op BitSeq := do
  let s ← get
  if s.tap ≠ .known .shiftDr then raise .protocolDesyncError (.tapMismatch .shiftDr s.tap)
  else if bits.length = 0 then raise .invalidOperand (.operand 0)
  else do
    let tdo ← shiftBits false bits
    return if receive then tdo else []

/-- The middle step of R110: the tracked state becomes Test-Logic-Reset, the tracked instruction `Unknown`. -/
def enterTestLogicReset : Op Unit := fun s =>
  .ok () { s with tap := .known .testLogicReset, lastIR := .unknown, pendingIR := .unknown }

/-- `reset()` of R110. -/
def tapReset : Op Unit := do
  goto (List.replicate Config.resetOnes true)
  enterTestLogicReset
  let _ ← tick false false

/-- The data part of R112: `shiftData`, or a dwell of one shifting tick where the data is empty. -/
def loadData (data : BitSeq) (receive : Bool) : Op BitSeq :=
  if data = [] then do
    let _ ← tick true false
    return []
  else shiftData data receive

/-- `loadInstructionThenData(instr, data, receive)` of R112. -/
def loadInstructionThenData (instr data : BitSeq) (receive : Bool) : Op BitSeq := do
  assertState .runTestIdle
  goto [true, true, false, false]
  assertState .shiftIr
  shiftInstruction instr
  assertState .exit1Ir
  goto [true, true, false, false]
  assertState .shiftDr
  let resp ← loadData data receive
  assertState .exit1Dr
  goto [true, false]
  assertState .runTestIdle
  return resp

/-- `scanDR(data, receive)` of R113. -/
def scanDR (data : BitSeq) (receive : Bool) : Op BitSeq := do
  assertState .runTestIdle
  goto [true, false, false]
  assertState .shiftDr
  let resp ← shiftData data receive
  assertState .exit1Dr
  goto [true, false]
  assertState .runTestIdle
  return resp

/-- `readDR(n) = scanDR(zeros(n), 1)` of R113. -/
def readDR (n : Nat) : Op BitSeq :=
  scanDR (bitsOf n 0) true

/-! ### The meanings of the TAP rows -/

/-- Row `tick` (R101). -/
def execTick (tms tdi : Bool) (s : State) : Host.Outcome State Fault Refusal :=
  runOp .bit (tick tms tdi) s

/-- Row `goto` (R105). -/
def execGoto (seq : BitSeq) (s : State) : Host.Outcome State Fault Refusal :=
  runUnit (goto seq) s

/-- Row `path` (R106): the sequence is returned, nothing is clocked. -/
def execPath (a b : TapState) (s : State) : Host.Outcome State Fault Refusal :=
  runOp .bits (pure (path a b)) s

/-- Row `gotoState` (R106). -/
def execGotoState (target : TapState) (s : State) : Host.Outcome State Fault Refusal :=
  runUnit (gotoState target) s

/-- Row `assertState` (R111). -/
def execAssertState (expected : TapState) (s : State) : Host.Outcome State Fault Refusal :=
  runUnit (assertState expected) s

/-- Row `shiftInstruction` (R108). -/
def execShiftInstruction (instr : BitSeq) (s : State) : Host.Outcome State Fault Refusal :=
  runUnit (shiftInstruction instr) s

/-- Row `shiftData` (R109). -/
def execShiftData (bits : BitSeq) (receive : Bool) (s : State) : Host.Outcome State Fault Refusal :=
  runOp .bits (shiftData bits receive) s

/-- Row `reset` (R110). -/
def execReset (s : State) : Host.Outcome State Fault Refusal :=
  runUnit tapReset s

/-- Row `loadInstructionThenData` (R112). -/
def execLoadInstructionThenData (instr data : BitSeq) (receive : Bool) (s : State) :
    Host.Outcome State Fault Refusal :=
  runOp .bits (loadInstructionThenData instr data receive) s

/-- Row `scanDR` (R113). -/
def execScanDR (data : BitSeq) (receive : Bool) (s : State) : Host.Outcome State Fault Refusal :=
  runOp .bits (scanDR data receive) s

/-! ### The meanings of the IR-instruction rows
An IR instruction is a 6-bit value shifted by `shiftInstruction` (R75), so that is what its row does. -/

/-- Row `USER1` (DEDUCED, log 7). -/
def execIrUser1 (s : State) : Host.Outcome State Fault Refusal :=
  runUnit (shiftInstruction user1) s

/-- Row `USER2`. -/
def execIrUser2 (s : State) : Host.Outcome State Fault Refusal :=
  runUnit (shiftInstruction (irBits s.params.instrUser2)) s

/-- Row `IDCODE`. -/
def execIrIdcode (s : State) : Host.Outcome State Fault Refusal :=
  runUnit (shiftInstruction (irBits s.params.instrIdcode)) s

/-- Row `USERCODE`. -/
def execIrUsercode (s : State) : Host.Outcome State Fault Refusal :=
  runUnit (shiftInstruction (irBits s.params.instrUsercode)) s

/-- Row `CFG_IN`. -/
def execIrCfgIn (s : State) : Host.Outcome State Fault Refusal :=
  runUnit (shiftInstruction (irBits s.params.instrCfgIn)) s

/-- Row `JPROGRAM`. -/
def execIrJprogram (s : State) : Host.Outcome State Fault Refusal :=
  runUnit (shiftInstruction (irBits s.params.instrJprogram)) s

/-- Row `JSTART`. -/
def execIrJstart (s : State) : Host.Outcome State Fault Refusal :=
  runUnit (shiftInstruction (irBits s.params.instrJstart)) s

/-- Row `BYPASS`. -/
def execIrBypass (s : State) : Host.Outcome State Fault Refusal :=
  runUnit (shiftInstruction (irBits s.params.instrBypass)) s

end Sys2Proof.Machine
end

