-- ==== Sys2Proof/Machine/Framer.lean ====
section
/-! DEFINITION. The command framer (file 42): `command` (R189), the nine admitted USB opcodes, and the nineteen refused
ones, whose effect on the board the spec does not give (D39). -/

namespace Sys2Proof.Machine

/-! ### The admitted opcodes -/

/-- `INFO` (R161). The checksum is the caller's. -/
def info (payload : Bytes) : Op Bytes :=
  exchange 0x40 payload

/-- The payload byte of `FLASH_ONOFF` (R165) (DEDUCED, log 24). -/
def flashOnOffByte (on : Bool) : Byte :=
  if on then Config.flashOnOffAssert else Config.flashOnOffRelease

/-- `FLASH_ONOFF` (R165): the exchange, then the pin. -/
def flashOnOff (on : Bool) : Op Unit := do
  let _ ← exchange 0x50 [flashOnOffByte on]
  modify fun s => { s with flashPin := if on then .asserted else .released }

/-- `WRITE_EEDATA` (R167). The EEPROM is board state: only the exchange is seen. The rule admits it "for the flash-enable
flag only", and gives its operands as any two bytes: every address and value is sent (DEDUCED, log 26). -/
def writeEedata (addr value : Byte) : Op Unit := do
  let _ ← exchange 0x05 (Config.encodeEeWrite addr value)

/-- What `PROG` forgets (R182, R255): `caps`, the tracked instruction and the tracked TAP state. -/
def forgetFpga : Op Unit := modify fun s =>
  { s with caps := none, lastIR := .unknown, pendingIR := .unknown, tap := .unknown }

/-- `PROG` (R182) (DEDUCED, log 10). -/
def prog (payload : Bytes) : Op Unit := do
  let _ ← exchange 0x49 payload
  forgetFpga

/-- `TMS_TDI` (R174): the exchange, and one tick at the port whose TDO is not returned (DEDUCED, log 11). -/
def tmsTdi (tms tdi : Bool) : Op Unit := do
  let _ ← portFrame 0x42 (encodeTick tms tdi) [(tms, tdi)]

/-- `TMS_TDI_TDO` (R175): the exchange, and one tick at the port; TDO is decoded from the response (DEDUCED, log 11). -/
def tmsTdiTdo (tms tdi : Bool) : Op Bool := do
  let resp ← portFrame 0x43 (encodeTick tms tdi) [(tms, tdi)]
  return Config.decodeTdo resp

/-- The payload of an `FL` frame that carries `bits` (R71): the length field, then the packed bits. -/
def bulkPayload (bits : BitSeq) : Op Bytes := do
  let s ← get
  let len ← le32 (bulkLength s.params.bulkLenUnit bits.length)
  return len ++ toBytes bits

/-- `TDI_TDO` (R176): the exchange, the ticks at the port, and `fromBytes(resp, n)` (DEDUCED, log 11). -/
def tdiTdo (bits : BitSeq) (marked : Bool) : Op BitSeq := do
  if bits.length = 0 then raise .invalidOperand (.operand 0)
  else do
    let payload ← bulkPayload bits
    let resp ← portFrame 0x44 payload (bulkTicks bits marked)
    fromBytes resp bits.length

/-- `TDI` (R177): the exchange and the ticks at the port; TDO is discarded (DEDUCED, log 11). -/
def tdi (bits : BitSeq) (marked : Bool) : Op Unit := do
  if bits.length = 0 then raise .invalidOperand (.operand 0)
  else do
    let payload ← bulkPayload bits
    let _ ← portFrame 0x46 payload (bulkTicks bits marked)

/-- `TAP_SEQ` (R181): the exchange and the ticks at the port with `tdi = 0`. An empty sequence is not sent (DEDUCED, log
11). -/
def tapSeq (seq : BitSeq) : Op Unit := do
  if seq.length = 0 then pure ()
  else do
    let _ ← portFrame 0x4f (encodeTmsSeq seq) (pathTicks seq)

/-- `command(op, payload)` with an opcode of the vocabulary that is not refused (R189), as the primitive: a
JTAG-primitive frame also has its ticks at the port (R173): those that the row of its operand has, where the payload is
the encoding of one (DEDUCED, log 10). -/
def sendFrame (op : Byte) (payload : Bytes) : Op Bytes := do
  let s ← get
  if isJtagPrimitive op then portFrame op payload (frameTicks s.params op payload)
  else exchange op payload

/-- `command(op, payload)` (R189), but for a refused opcode: a byte outside the vocabulary raises and nothing is written
(DEDUCED, log 10). -/
def command (op : Byte) (payload : Bytes) : Op Bytes :=
  if opcodeClass op = .unlisted then raise .invalidOperand (.operand op.toNat)
  else sendFrame op payload

/-! ### The meanings of the admitted rows -/

/-- Row `command` (R189). -/
def execCommand (op : Byte) (payload : Bytes) (s : State) : Host.Outcome State Fault Refusal :=
  if opcodeClass op = .refused then refuseOpcode op
  else runOp .bytes (command op payload) s

/-- Row `INFO` (R161). -/
def execUsbInfo (payload : Bytes) (s : State) : Host.Outcome State Fault Refusal :=
  runOp .bytes (info payload) s

/-- Row `FLASH_ONOFF` (R165). -/
def execUsbFlashOnOff (on : Bool) (s : State) : Host.Outcome State Fault Refusal :=
  runUnit (flashOnOff on) s

/-- Row `WRITE_EEDATA` (R167), with any address and value, not `0xFE` alone (DEDUCED, log 26). -/
def execUsbWriteEedata (addr value : Byte) (s : State) : Host.Outcome State Fault Refusal :=
  runUnit (writeEedata addr value) s

/-- Row `TMS_TDI` (R174). -/
def execUsbTmsTdi (tms tdi : Bool) (s : State) : Host.Outcome State Fault Refusal :=
  runUnit (tmsTdi tms tdi) s

/-- Row `TMS_TDI_TDO` (R175). -/
def execUsbTmsTdiTdo (tms tdi : Bool) (s : State) : Host.Outcome State Fault Refusal :=
  runOp .bit (tmsTdiTdo tms tdi) s

/-- Row `TDI_TDO` (R176). -/
def execUsbTdiTdo (bits : BitSeq) (marked : Bool) (s : State) : Host.Outcome State Fault Refusal :=
  runOp .bits (tdiTdo bits marked) s

/-- Row `TDI` (R177). -/
def execUsbTdi (bits : BitSeq) (marked : Bool) (s : State) : Host.Outcome State Fault Refusal :=
  runUnit (tdi bits marked) s

/-- Row `TAP_SEQ` (R181). -/
def execUsbTapSeq (seq : BitSeq) (s : State) : Host.Outcome State Fault Refusal :=
  runUnit (tapSeq seq) s

/-- Row `PROG` (R182). -/
def execUsbProg (payload : Bytes) (s : State) : Host.Outcome State Fault Refusal :=
  runUnit (prog payload) s

/-! ### The refused rows
The framer can spell the frame, and the spec gives its effect on the board no meaning: nothing is written and the run
is stuck (R189, R300, D39). -/

/-- Row `READ_VERSION` (R160): refused. -/
def execUsbReadVersion (_payload : Bytes) (_s : State) : Host.Outcome State Fault Refusal :=
  refuseOpcode 0x00

/-- Row `READ_FLASH` (R162): refused. -/
def execUsbReadFlash (_payload : Bytes) (_s : State) : Host.Outcome State Fault Refusal :=
  refuseOpcode 0x01

/-- Row `WRITE_FLASH` (R163): refused. -/
def execUsbWriteFlash (_payload : Bytes) (_s : State) : Host.Outcome State Fault Refusal :=
  refuseOpcode 0x02

/-- Row `ERASE_FLASH` (R164): refused. -/
def execUsbEraseFlash (_payload : Bytes) (_s : State) : Host.Outcome State Fault Refusal :=
  refuseOpcode 0x03

/-- Row `READ_EEDATA` (R166): refused. -/
def execUsbReadEedata (_payload : Bytes) (_s : State) : Host.Outcome State Fault Refusal :=
  refuseOpcode 0x04

/-- Row `READ_CONFIG` (R168): refused. -/
def execUsbReadConfig (_payload : Bytes) (_s : State) : Host.Outcome State Fault Refusal :=
  refuseOpcode 0x06

/-- Row `WRITE_CONFIG` (R169): refused. -/
def execUsbWriteConfig (_payload : Bytes) (_s : State) : Host.Outcome State Fault Refusal :=
  refuseOpcode 0x07

/-- Row `ID_BOARD` (R170): refused. -/
def execUsbIdBoard (_payload : Bytes) (_s : State) : Host.Outcome State Fault Refusal :=
  refuseOpcode 0x31

/-- Row `UPDATE_LED` (R171): refused. -/
def execUsbUpdateLed (_payload : Bytes) (_s : State) : Host.Outcome State Fault Refusal :=
  refuseOpcode 0x32

/-- Row `SENSE_INVERTERS` (R172): refused. -/
def execUsbSenseInverters (_payload : Bytes) (_s : State) : Host.Outcome State Fault Refusal :=
  refuseOpcode 0x41

/-- Row `TDO` (R178): refused. -/
def execUsbTdo (_bitCount : Nat) (_s : State) : Host.Outcome State Fault Refusal :=
  refuseOpcode 0x45

/-- Row `RUNTEST` (R179): refused. -/
def execUsbRuntest (_payload : Bytes) (_s : State) : Host.Outcome State Fault Refusal :=
  refuseOpcode 0x47

/-- Row `NULL_TDI` (R180): refused. -/
def execUsbNullTdi (_payload : Bytes) (_s : State) : Host.Outcome State Fault Refusal :=
  refuseOpcode 0x48

/-- Row `SINGLE_TEST_VECTOR` (R183): refused. -/
def execUsbSingleTestVector (_payload : Bytes) (_s : State) : Host.Outcome State Fault Refusal :=
  refuseOpcode 0x4a

/-- Row `GET_TEST_VECTOR` (R184): refused. -/
def execUsbGetTestVector (_payload : Bytes) (_s : State) : Host.Outcome State Fault Refusal :=
  refuseOpcode 0x4b

/-- Row `SET_OSC_FREQ` (R185): refused. -/
def execUsbSetOscFreq (_payload : Bytes) (_s : State) : Host.Outcome State Fault Refusal :=
  refuseOpcode 0x4c

/-- Row `ENABLE_RETURN` (R186): refused. -/
def execUsbEnableReturn (_payload : Bytes) (_s : State) : Host.Outcome State Fault Refusal :=
  refuseOpcode 0x4d

/-- Row `DISABLE_RETURN` (R187): refused. -/
def execUsbDisableReturn (_payload : Bytes) (_s : State) : Host.Outcome State Fault Refusal :=
  refuseOpcode 0x4e

/-- Row `RESET` (R188): refused. -/
def execUsbReset (_payload : Bytes) (_s : State) : Host.Outcome State Fault Refusal :=
  refuseOpcode 0xff

end Sys2Proof.Machine
end

