-- ==== Sys2Proof/Machine/Session.lean ====
section
/-! DEFINITION. The board session, the identity gate and FPGA control (file 44). -/

namespace Sys2Proof.Machine

/-! ### Opening a session -/

/-- The read of a written frame with its one retry (R250): a first failure is recorded as `Fail(read)`, of whatever kind
it was, and not as an error, but it is a failed transport call and has the state effect of one (R23, R305); a second
failure raises (DEDUCED, log 6; DEDUCED, log 9). -/
def handshakeRead (frame : Bytes) (maxlen : Nat) : Op Bytes := do
  match ← tryRead maxlen with
  | .ok resp => do
    record [.write frame, .read resp]
    return resp
  | .error _ => do
    record [.write frame, .fail .read]
    loseTap
    let resp ← usbRead false maxlen
    record [.read resp]
    return resp

/-- The session is open and the TAP's state not known (R250). -/
def enterOpen : Op Unit := modify fun s =>
  { s with session := .opened, tap := .unknown, lastIR := .unknown, pendingIR := .unknown }

/-- `openSession(cfg)` of R250 on a closed session; `cfg` is fixed when the session opens (R32, R330) (DEDUCED, log 16).
-/
def openSession (cfg : SessionConfig) : Op Unit := do
  modify fun s => { s with cfg := cfg }
  transportOpen
  usbWrite false (0x40 :: Config.encodeInfo)
  let s ← get
  let resp ← handshakeRead (0x40 :: Config.encodeInfo) (responseLen s.params 0x40 Config.encodeInfo)
  if infoChecksumOk s.params resp then enterOpen
  else raise .deviceIdentityError (.checksum resp)

/-! ### Identity -/

/-- The gate of R36 and R251: the session is `Identified`, or the operation raises (DEDUCED, log 12). -/
def requireIdentified : Op Unit := do
  let s ← get
  if s.session = .identified then pure ()
  else raise .deviceIdentityError (.session s.session)

/-- A 32-bit response word of a scan: the first TDO bit is bit 0 (R78, R142). -/
def wordOf (bits : BitSeq) : Word32 :=
  BitVec.ofNat 32 (toInt bits)

/-- `readIdcode()` of R252. -/
def readIdcode : Op Word32 := do
  let s ← get
  if s.session = .closed then raise .deviceIdentityError (.session s.session)
  else do
    let r ← loadInstructionThenData (irBits s.params.instrIdcode) (bitsOf 32 0) true
    modify fun s => { s with deviceId := some (wordOf r) }
    return wordOf r

/-- The offending IDCODE as hex text (R253) (DESIGN CHOICE, log 14). -/
def idcodeText : Option Word32 → Text
  | some w => hexText w
  | none => Config.hexOfUnread

/-- `checkIdentity()` of R253. -/
def checkIdentity : Op Unit := do
  let s ← get
  if s.deviceId = some Config.expectedIdcode then modify fun s => { s with session := .identified }
  else raise .deviceIdentityError (.idcode (idcodeText s.deviceId))

/-- `readUsercode()` of R254. -/
def readUsercode : Op Word32 := do
  requireIdentified
  let s ← get
  let r ← loadInstructionThenData (irBits s.params.instrUsercode) (bitsOf 32 0) true
  return wordOf r

/-! ### FPGA control and the flash-enable flag -/

/-- `toggleProgPin()` of R255. -/
def toggleProgPin : Op Unit := do
  requireIdentified
  prog Config.encodeProg

/-- `enableFlash(flag)` of R258. -/
def enableFlash (flag : Bool) : Op Unit := do
  let s ← get
  writeEedata Config.eepromFlashFlagAddr (if flag then Config.eepromFlashFlagOn else s.params.eepromFlashFlagOff)

/-- The opcode byte of an admitted opcode (R74). -/
def admittedByte : AdmittedOp → Byte
  | .info => 0x40
  | .flashOnOff => 0x50
  | .writeEedata => 0x05
  | .prog => 0x49
  | .tmsTdi => 0x42
  | .tmsTdiTdo => 0x43
  | .tdiTdo => 0x44
  | .tdi => 0x46
  | .tapSeq => 0x4f

/-- Runs an operation for its effect. -/
def ignoring {α : Type} (op : Op α) : Op Unit := do
  let _ ← op

/-- One operation of a configuration sequence (R260) (DEDUCED, log 15). -/
def seqOp : SeqOp → Op Unit
  | .tick tms tdi => ignoring (tick tms tdi)
  | .goto seq => goto seq
  | .gotoState target => gotoState target
  | .assertState expected => assertState expected
  | .shiftInstruction instr => shiftInstruction instr
  | .shiftData bits receive => ignoring (shiftData bits receive)
  | .reset => tapReset
  | .loadInstructionThenData instr data receive => ignoring (loadInstructionThenData instr data receive)
  | .scanDR data receive => ignoring (scanDR data receive)
  | .info payload => ignoring (info payload)
  | .flashOnOff on => flashOnOff on
  | .writeEedata addr value => writeEedata addr value
  | .prog payload => prog payload
  | .tmsTdi tms tdi => tmsTdi tms tdi
  | .tmsTdiTdo tms tdi => ignoring (tmsTdiTdo tms tdi)
  | .tdiTdo bits marked => ignoring (tdiTdo bits marked)
  | .tdi bits marked => tdi bits marked
  | .tapSeq seq => tapSeq seq
  | .command op payload => ignoring (command (admittedByte op) payload)

/-- The operations of a configuration sequence, in order. -/
def seqOps : List SeqOp → Op Unit
  | [] => pure ()
  | op :: more => do
    seqOp op
    seqOps more

/-- `caps <- None` (R260). -/
def forgetCaps : Op Unit := modify fun s => { s with caps := none }

/-- `configureFpga(bitstream)` of R260. -/
def configureFpga (bitstream : Bytes) : Op Unit := do
  requireIdentified
  let s ← get
  seqOps (configureSeq s.params bitstream)
  forgetCaps
  assertState .runTestIdle

/-- `parseAddr(s)` of R263. -/
def parseAddr (text : Text) : Op Nat :=
  match addrValue text with
  | some n => pure n
  | none => raise .invalidArgument (.argumentText text)

/-! ### The meanings of the session rows -/

/-- Row `openSession` (R250): on a session that is not `Closed` it has no step. -/
def execOpenSession (cfg : SessionConfig) (s : State) : Host.Outcome State Fault Refusal :=
  if s.session = .closed then runUnit (openSession cfg) s
  else .fault .sessionNotClosed

/-- Row `readIdcode` (R252). -/
def execReadIdcode (s : State) : Host.Outcome State Fault Refusal :=
  runOp .word readIdcode s

/-- Row `checkIdentity` (R253). -/
def execCheckIdentity (s : State) : Host.Outcome State Fault Refusal :=
  runUnit checkIdentity s

/-- Row `readUsercode` (R254). -/
def execReadUsercode (s : State) : Host.Outcome State Fault Refusal :=
  runOp .word readUsercode s

/-- Row `toggleProgPin` (R255). -/
def execToggleProgPin (s : State) : Host.Outcome State Fault Refusal :=
  runUnit toggleProgPin s

/-- Row `enableFlash` (R258). -/
def execEnableFlash (flag : Bool) (s : State) : Host.Outcome State Fault Refusal :=
  runUnit (enableFlash flag) s

/-- Row `configureFpga` (R260). -/
def execConfigureFpga (bitstream : Bytes) (s : State) : Host.Outcome State Fault Refusal :=
  runUnit (configureFpga bitstream) s

/-- Row `parseAddr` (R263). -/
def execParseAddr (text : Text) (s : State) : Host.Outcome State Fault Refusal :=
  runOp .nat (parseAddr text) s

/-! ### The host's side (R42, R261, R306, R315): actions outside the block, not steps -/

/-- A new run after the last one has completed or ended (R306): the host gives a program, and the state is kept (DESIGN
CHOICE, log 23). -/
def State.newRun (s : State) (program : List Call) : State :=
  { s with program := program, pc := 0, ended := false, busy := none, result := .none }

/-- The host closes the session and releases the transport (R261); the tracked state is not kept, and the next
`openSession` starts from the values of R42, the device's TAP state a fresh draw among them. The parameters and the
board's draws go on (DESIGN CHOICE, log 23). -/
def State.closeSession (s : State) : State :=
  { State.reset with
    devTap := s.devTapAt s.drawn.devTaps
    params := s.params
    script := s.script
    drawn := { s.drawn with devTaps := s.drawn.devTaps + 1 } }

/-- A power cycle (R315): the tracked state is that of R42, and the device's TAP state is a fresh draw (DESIGN CHOICE,
log 23). -/
def State.powerCycle (s : State) : State :=
  s.closeSession

end Sys2Proof.Machine
end

