-- ==== Sys2Proof/Machine/Flash.lean ====
section
/-! DEFINITION. The flash protocol (file 43): the scans through USER1 (R210), the operations of R211 to R224, the
resumption of an operation that waits between two status polls (R217, R336), and the meanings of their rows and of the
sub-instruction rows (R76, R77). Every operation of the file needs an identified session (R36, R251). -/

namespace Sys2Proof.Machine

/-! ### Scans -/

/-- `cmdScan(frame)` of R210: USER1, then one command frame, in one DR scan. -/
def cmdScan (frame : BitSeq) : Op Unit := do
  let _ ← loadInstructionThenData user1 frame false

/-- The check of R211: USER1 is still loaded. -/
def user1Loaded : Op Unit := do
  let s ← get
  if s.lastIR = .instr user1 then pure ()
  else raise .protocolDesyncError (.irMismatch user1 s.lastIR)

/-- `checkUser1()` of R211 (DEDUCED, log 12). -/
def checkUser1 : Op Unit := do
  requireIdentified
  user1Loaded

/-- `respScan(n)` of R210. -/
def respScan (n : Nat) : Op BitSeq := do
  checkUser1
  readDR n

/-- `payScan(bits)` of R210. -/
def payScan (bits : BitSeq) : Op Unit := do
  checkUser1
  let _ ← scanDR bits false

/-! ### Capabilities, geometry and alignment -/

/-- `probeCapabilities()` of R212. -/
def probeCapabilities : Op Word32 := do
  requireIdentified
  let s ← get
  cmdScan (subBits s.params.subCapabilities)
  let r ← respScan 32
  modify fun s => { s with caps := some (wordOf r) }
  return wordOf r

/-- `ensureCapability(bitpos, start)` of R213. -/
def ensureCapability (bitpos : Nat) (start : Bool) : Op Unit := do
  requireIdentified
  let c ← probeCapabilities
  if hasCap c bitpos then pure ()
  else if start = false then raise .capabilityAbsentError (.capability bitpos c)
  else do
    let s ← get
    configureFpga s.params.flashInterfaceBitstream
    let c ← probeCapabilities
    if hasCap c bitpos then pure ()
    else raise .capabilityAbsentError (.capability bitpos c)

/-- `readGeometry()` of R214. -/
def readGeometry : Op Geometry := do
  requireIdentified
  let s ← get
  cmdScan (subBits s.params.subFlashSize)
  let r ← respScan 24
  let g := geometryOf (toInt r)
  if validGeometry g then do
    modify fun s => { s with geom := some g }
    return g
  else
    raise .geometryInvalid (.geometry g.dataWidthBits.toNat g.addrWidthBits.toNat g.blockAddrWidthBits.toNat)

/-- The geometry an operation works with: the register's, and where none has been read a legal one of which nothing more
is known (DESIGN CHOICE, log 13). -/
def State.geometry (s : State) : Geometry :=
  s.geom.getD unreadGeometry

/-- `validateRange(address, length)` of R215: the length is checked first (R303) (DEDUCED, log 12; DESIGN CHOICE, log
13). -/
def validateRange (address length : Nat) : Op Unit := do
  requireIdentified
  let s ← get
  let str := stride s.geometry
  if length % str ≠ 0 then raise .alignmentError (.alignment length str)
  else if belowStride address str ≠ 0 then raise .alignmentError (.alignment address str)
  else pure ()

/-! ### Polling -/

/-- What a status word makes of the loop of `pollUntilTerminal` (R217) after `k` polls: it returns on Passed, raises on
Failed, and on InProgress leaves the operation waiting, with what follows the loop, until the next step polls again. -/
def pollVerdict (k : Nat) (rest : Rest) (w : Word32) : Op Unit := fun s =>
  match decodeStatus s.params w with
  | .passed => .ok () s
  | .failed => .error .raised (s.enterError .flashOperationFailed (.statusWord w))
  | .inProgress => .error .waiting { s with busy := some { polls := k, rest := rest } }

/-- One pass of that loop after `k` polls; it raises at the ceiling (DESIGN CHOICE, log 8). -/
def pollOnce (k : Nat) (rest : Rest) : Op Unit := do
  let s ← get
  if s.cfg.maxPolls.any (fun m => decide (m ≤ k)) then raise .pollLimitExceeded (.pollCount k)
  else do
    let r ← respScan 32
    modify fun s => { s with status := some (wordOf r) }
    pollVerdict (k + 1) rest (wordOf r)

/-- `pollUntilTerminal()` of R217, from its first poll. -/
def pollUntilTerminal (rest : Rest) : Op Unit := do
  requireIdentified
  pollOnce 0 rest

/-! ### Erase and program -/

/-- `eraseFlash()` of R216; `rest` is what follows its poll loop. -/
def eraseFlash (rest : Rest) : Op Unit := do
  requireIdentified
  let s ← get
  cmdScan (subBits s.params.subFlashErase)
  pollUntilTerminal rest

/-- A command frame with a word address and a word count, each `A` bits (R77) (DEDUCED, log 7; DEDUCED, log 18). -/
def addressedFrame (sub : SubCode) (g : Geometry) (wordAddress wordCount : Nat) : Op BitSeq := do
  let a ← makeBits (addrWidth g) wordAddress
  let n ← makeBits (addrWidth g) wordCount
  return subBits sub ++ a ++ n

/-- The size that R218 and R57 ask of a chunk: not empty, and at most a block. Any other raises InvalidOperand, before any
tick (R300, R303) (DESIGN CHOICE, log 13). -/
def checkChunk (g : Geometry) (chunk : Bytes) : Op Unit :=
  if chunk.length = 0 ∨ blockSizeBytes g < chunk.length then raise .invalidOperand (.operand chunk.length)
  else pure ()

/-- `programChunk(byteAddress, chunk)` of R218; `rest` is what follows its poll loop. A chunk of a wrong size raises, and
so does a misaligned request (R55) (DESIGN CHOICE, log 13). -/
def programChunk (byteAddress : Nat) (chunk : Bytes) (rest : Rest) : Op Unit := do
  requireIdentified
  let s ← get
  checkChunk s.geometry chunk
  validateRange byteAddress chunk.length
  let g := s.geometry
  let frame ← addressedFrame s.params.subFlashPgm g (byteAddress / stride g) (chunk.length / stride g)
  cmdScan frame
  payScan (payloadBits chunk)
  pollUntilTerminal rest

/-- `setFlashPin(on)` of R219: the `FLASH_ONOFF` frame (DEDUCED, log 12). -/
def setFlashPin (on : Bool) : Op Unit := do
  requireIdentified
  flashOnOff on

/-! ### The session algorithms -/

/-- `releaseOnExit()` of R224 (DEDUCED, log 12). -/
def releaseOnExit : Op Unit :=
  setFlashPin false

/-- `try: body finally: releaseOnExit()` of R220 and R221. The release runs once, on success and on every raise; the
first error stays first in the log, and a failed release after a success discards the result (R307). An operation that
waits between polls has not left `body`. -/
def releaseAfter {α : Type} (body : Op α) : Op α := fun s =>
  match body s with
  | .ok a s1 =>
    match releaseOnExit s1 with
    | .ok _ s2 => .ok a s2
    | .error e s2 => .error e s2
  | .error .raised s1 =>
    match releaseOnExit s1 with
    | .ok _ s2 => .error .raised s2
    | .error _ s2 => .error .raised s2
  | .error .waiting s1 => .error .waiting s1

/-- The body of `readFlash` inside its `try` (R220). -/
def readBody (loAddr hiAddr : Nat) (start : Bool) : Op Bytes := do
  let s ← get
  ensureCapability (capPosition s.params.capFlashRead) start
  let g ← readGeometry
  let numBytes := hiAddr - loAddr + 1
  validateRange loAddr numBytes
  let frame ← addressedFrame s.params.subFlashRead g (loAddr / stride g) (numBytes / stride g)
  cmdScan frame
  let r ← respScan (8 * numBytes)
  payloadBytes r

/-- `readFlash(loAddr, hiAddr, start)` of R220. -/
def readFlash (loAddr hiAddr : Nat) (start : Bool) : Op Bytes := do
  requireIdentified
  if hiAddr < loAddr then raise .invalidArgument (.range loAddr hiAddr)
  else do
    setFlashPin true
    releaseAfter (readBody loAddr hiAddr start)

/-- The chunk loop of `writeFlash` (R221) from a byte count that is done: program, poll, report (R223) (DESIGN CHOICE,
log 8). -/
def writeChunks : Nat → List (Nat × Bytes) → Op Unit
  | _, [] => pure ()
  | done, (address, chunk) :: more => do
    programChunk address chunk (.chunks (done + chunk.length) more)
    record [.progress (done + chunk.length)]
    writeChunks (done + chunk.length) more

/-- What `writeFlash` does inside its `try` before it erases or programs (R221): the capability, the geometry and the
range; it returns the geometry. -/
def writeChecks (address length : Nat) (start : Bool) : Op Geometry := do
  let s ← get
  ensureCapability (capPosition s.params.capFlashWrite) start
  let g ← readGeometry
  validateRange address length
  return g

/-- The body of `writeFlash` inside its `try` (R221). -/
def writeBody (data : Bytes) (address : Nat) (start : Bool) : Op Unit := do
  let g ← writeChecks address data.length start
  let plan := chunkPlan g address data
  if start then eraseFlash (.erased plan) else pure ()
  writeChunks 0 plan

/-- `writeFlash(data, address, start)` of R221. -/
def writeFlash (data : Bytes) (address : Nat) (start : Bool) : Op Unit := do
  requireIdentified
  setFlashPin true
  releaseAfter (writeBody data address start)

/-- One more pass of a poll loop in progress, and what follows it when it passes (DESIGN CHOICE, log 8). -/
def resumePoll (b : Busy) : Op Unit :=
  match b.rest with
  | .done => pollOnce b.polls .done
  | .erased plan => releaseAfter do
      pollOnce b.polls (.erased plan)
      writeChunks 0 plan
  | .chunks cumulative more => releaseAfter do
      pollOnce b.polls (.chunks cumulative more)
      record [.progress cumulative]
      writeChunks cumulative more

/-! ### The meanings of the flash rows -/

/-- Row `checkUser1` (R211). -/
def execCheckUser1 (s : State) : Host.Outcome State Fault Refusal :=
  runUnit checkUser1 s

/-- Row `probeCapabilities` (R212). -/
def execProbeCapabilities (s : State) : Host.Outcome State Fault Refusal :=
  runOp .word probeCapabilities s

/-- Row `ensureCapability` (R213). -/
def execEnsureCapability (bitpos : Nat) (start : Bool) (s : State) : Host.Outcome State Fault Refusal :=
  runUnit (ensureCapability bitpos start) s

/-- Row `readGeometry` (R214). -/
def execReadGeometry (s : State) : Host.Outcome State Fault Refusal :=
  runOp .geometry readGeometry s

/-- Row `validateRange` (R215). -/
def execValidateRange (address length : Nat) (s : State) : Host.Outcome State Fault Refusal :=
  runUnit (validateRange address length) s

/-- Row `eraseFlash` (R216). -/
def execEraseFlash (s : State) : Host.Outcome State Fault Refusal :=
  runUnit (eraseFlash .done) s

/-- Row `pollUntilTerminal` (R217). -/
def execPollUntilTerminal (s : State) : Host.Outcome State Fault Refusal :=
  runUnit (pollUntilTerminal .done) s

/-- Row `programChunk` (R218). -/
def execProgramChunk (byteAddress : Nat) (chunk : Bytes) (s : State) : Host.Outcome State Fault Refusal :=
  runUnit (programChunk byteAddress chunk .done) s

/-- Row `setFlashPin` (R219). -/
def execSetFlashPin (on : Bool) (s : State) : Host.Outcome State Fault Refusal :=
  runUnit (setFlashPin on) s

/-- Row `readFlash` (R220). -/
def execReadFlash (loAddr hiAddr : Nat) (start : Bool) (s : State) : Host.Outcome State Fault Refusal :=
  runOp .bytes (readFlash loAddr hiAddr start) s

/-- Row `writeFlash` (R221). -/
def execWriteFlash (data : Bytes) (address : Nat) (start : Bool) (s : State) : Host.Outcome State Fault Refusal :=
  runUnit (writeFlash data address start) s

/-- Row `releaseOnExit` (R224). -/
def execReleaseOnExit (s : State) : Host.Outcome State Fault Refusal :=
  runUnit releaseOnExit s

/-! ### The meanings of the sub-instruction rows
A sub-instruction is the head of a command frame, and a command frame is shifted by one command scan (R77, R210). -/

/-- Row `SUB_CAPABILITIES` (R76, R77) (DEDUCED, log 7). -/
def execSubCapabilities (s : State) : Host.Outcome State Fault Refusal :=
  runUnit (cmdScan (subBits s.params.subCapabilities)) s

/-- Row `SUB_FLASH_SIZE` (R76, R77). -/
def execSubFlashSize (s : State) : Host.Outcome State Fault Refusal :=
  runUnit (cmdScan (subBits s.params.subFlashSize)) s

/-- Row `SUB_FLASH_ERASE` (R76, R77). -/
def execSubFlashErase (s : State) : Host.Outcome State Fault Refusal :=
  runUnit (cmdScan (subBits s.params.subFlashErase)) s

/-- Row `SUB_FLASH_PGM` (R77): the frame with its word address and word count. -/
def execSubFlashPgm (wordAddress wordCount : Nat) (s : State) : Host.Outcome State Fault Refusal :=
  runUnit (do
    let frame ← addressedFrame s.params.subFlashPgm s.geometry wordAddress wordCount
    cmdScan frame) s

/-- Row `SUB_FLASH_READ` (R77): the frame with its word address and word count. -/
def execSubFlashRead (wordAddress wordCount : Nat) (s : State) : Host.Outcome State Fault Refusal :=
  runUnit (do
    let frame ← addressedFrame s.params.subFlashRead s.geometry wordAddress wordCount
    cmdScan frame) s

end Sys2Proof.Machine
end

