-- ==== Sys2Proof/Machine/Dispatch.lean ====
section
/-! DEFINITION. One arm per instruction: the arm calls the instruction's meaning. -/

namespace Sys2Proof.Machine

def exec (i : Instr) (s : State) : Host.Outcome State Fault Refusal :=
  match i with
  | .usbReadVersion payload => Sys2Proof.Machine.execUsbReadVersion payload s
  | .usbInfo payload => Sys2Proof.Machine.execUsbInfo payload s
  | .usbReadFlash payload => Sys2Proof.Machine.execUsbReadFlash payload s
  | .usbWriteFlash payload => Sys2Proof.Machine.execUsbWriteFlash payload s
  | .usbEraseFlash payload => Sys2Proof.Machine.execUsbEraseFlash payload s
  | .usbFlashOnOff on => Sys2Proof.Machine.execUsbFlashOnOff on s
  | .usbReadEedata payload => Sys2Proof.Machine.execUsbReadEedata payload s
  | .usbWriteEedata addr value => Sys2Proof.Machine.execUsbWriteEedata addr value s
  | .usbReadConfig payload => Sys2Proof.Machine.execUsbReadConfig payload s
  | .usbWriteConfig payload => Sys2Proof.Machine.execUsbWriteConfig payload s
  | .usbIdBoard payload => Sys2Proof.Machine.execUsbIdBoard payload s
  | .usbUpdateLed payload => Sys2Proof.Machine.execUsbUpdateLed payload s
  | .usbSenseInverters payload => Sys2Proof.Machine.execUsbSenseInverters payload s
  | .usbTmsTdi tms tdi => Sys2Proof.Machine.execUsbTmsTdi tms tdi s
  | .usbTmsTdiTdo tms tdi => Sys2Proof.Machine.execUsbTmsTdiTdo tms tdi s
  | .usbTdiTdo bits marked => Sys2Proof.Machine.execUsbTdiTdo bits marked s
  | .usbTdo bitCount => Sys2Proof.Machine.execUsbTdo bitCount s
  | .usbTdi bits marked => Sys2Proof.Machine.execUsbTdi bits marked s
  | .usbRuntest payload => Sys2Proof.Machine.execUsbRuntest payload s
  | .usbNullTdi payload => Sys2Proof.Machine.execUsbNullTdi payload s
  | .usbTapSeq seq => Sys2Proof.Machine.execUsbTapSeq seq s
  | .usbProg payload => Sys2Proof.Machine.execUsbProg payload s
  | .usbSingleTestVector payload => Sys2Proof.Machine.execUsbSingleTestVector payload s
  | .usbGetTestVector payload => Sys2Proof.Machine.execUsbGetTestVector payload s
  | .usbSetOscFreq payload => Sys2Proof.Machine.execUsbSetOscFreq payload s
  | .usbEnableReturn payload => Sys2Proof.Machine.execUsbEnableReturn payload s
  | .usbDisableReturn payload => Sys2Proof.Machine.execUsbDisableReturn payload s
  | .usbReset payload => Sys2Proof.Machine.execUsbReset payload s
  | .irUser1 => Sys2Proof.Machine.execIrUser1 s
  | .irUser2 => Sys2Proof.Machine.execIrUser2 s
  | .irIdcode => Sys2Proof.Machine.execIrIdcode s
  | .irUsercode => Sys2Proof.Machine.execIrUsercode s
  | .irCfgIn => Sys2Proof.Machine.execIrCfgIn s
  | .irJprogram => Sys2Proof.Machine.execIrJprogram s
  | .irJstart => Sys2Proof.Machine.execIrJstart s
  | .irBypass => Sys2Proof.Machine.execIrBypass s
  | .subCapabilities => Sys2Proof.Machine.execSubCapabilities s
  | .subFlashSize => Sys2Proof.Machine.execSubFlashSize s
  | .subFlashErase => Sys2Proof.Machine.execSubFlashErase s
  | .subFlashPgm wordAddress wordCount => Sys2Proof.Machine.execSubFlashPgm wordAddress wordCount s
  | .subFlashRead wordAddress wordCount => Sys2Proof.Machine.execSubFlashRead wordAddress wordCount s
  | .tick tms tdi => Sys2Proof.Machine.execTick tms tdi s
  | .goto seq => Sys2Proof.Machine.execGoto seq s
  | .path a b => Sys2Proof.Machine.execPath a b s
  | .gotoState target => Sys2Proof.Machine.execGotoState target s
  | .assertState expected => Sys2Proof.Machine.execAssertState expected s
  | .shiftInstruction instr => Sys2Proof.Machine.execShiftInstruction instr s
  | .shiftData bits receive => Sys2Proof.Machine.execShiftData bits receive s
  | .reset => Sys2Proof.Machine.execReset s
  | .loadInstructionThenData instr data receive => Sys2Proof.Machine.execLoadInstructionThenData instr data receive s
  | .scanDR data receive => Sys2Proof.Machine.execScanDR data receive s
  | .makeBits count value => Sys2Proof.Machine.execMakeBits count value s
  | .concat a b => Sys2Proof.Machine.execConcat a b s
  | .toInt seq => Sys2Proof.Machine.execToInt seq s
  | .toBytes seq => Sys2Proof.Machine.execToBytes seq s
  | .fromBytes bytes count => Sys2Proof.Machine.execFromBytes bytes count s
  | .reverse byte => Sys2Proof.Machine.execReverse byte s
  | .payloadBits bytes => Sys2Proof.Machine.execPayloadBits bytes s
  | .payloadBytes bits => Sys2Proof.Machine.execPayloadBytes bits s
  | .le32 n => Sys2Proof.Machine.execLe32 n s
  | .command op payload => Sys2Proof.Machine.execCommand op payload s
  | .hasCap c bitpos => Sys2Proof.Machine.execHasCap c bitpos s
  | .decodeStatus w => Sys2Proof.Machine.execDecodeStatus w s
  | .checkUser1 => Sys2Proof.Machine.execCheckUser1 s
  | .probeCapabilities => Sys2Proof.Machine.execProbeCapabilities s
  | .ensureCapability bitpos start => Sys2Proof.Machine.execEnsureCapability bitpos start s
  | .readGeometry => Sys2Proof.Machine.execReadGeometry s
  | .validateRange address length => Sys2Proof.Machine.execValidateRange address length s
  | .eraseFlash => Sys2Proof.Machine.execEraseFlash s
  | .pollUntilTerminal => Sys2Proof.Machine.execPollUntilTerminal s
  | .programChunk byteAddress chunk => Sys2Proof.Machine.execProgramChunk byteAddress chunk s
  | .setFlashPin on => Sys2Proof.Machine.execSetFlashPin on s
  | .readFlash loAddr hiAddr start => Sys2Proof.Machine.execReadFlash loAddr hiAddr start s
  | .writeFlash data address start => Sys2Proof.Machine.execWriteFlash data address start s
  | .releaseOnExit => Sys2Proof.Machine.execReleaseOnExit s
  | .openSession cfg => Sys2Proof.Machine.execOpenSession cfg s
  | .readIdcode => Sys2Proof.Machine.execReadIdcode s
  | .checkIdentity => Sys2Proof.Machine.execCheckIdentity s
  | .readUsercode => Sys2Proof.Machine.execReadUsercode s
  | .toggleProgPin => Sys2Proof.Machine.execToggleProgPin s
  | .enableFlash flag => Sys2Proof.Machine.execEnableFlash flag s
  | .configureFpga bitstream => Sys2Proof.Machine.execConfigureFpga bitstream s
  | .parseAddr text => Sys2Proof.Machine.execParseAddr text s

end Sys2Proof.Machine
end

