-- ==== Sys2Proof/Machine/Fetch.lean ====
section
/-! DEFINITION. What one step does (R21): it makes the next poll of an operation that waits between two status polls, or
reads the call at the position `pc` of the program, decodes it and executes its instruction; and how the word of a table
row is placed where the next step reads its call. -/

namespace Sys2Proof.Machine

/-- Executes the program entry `c`. A frame with a byte outside the vocabulary raises InvalidOperand, and nothing is
written (R81, R189); a call that is not typed as its rule says is refused (DEDUCED, log 17). -/
def stepCall (c : Call) (s : State) : Host.Outcome State Fault Refusal :=
  match decode c with
  | .ok i => exec i s
  | .error (.unknownOpcode op) => runUnit (raise .invalidOperand (.operand op.toNat)) s
  | .error _ => .refused .illTypedCall

/-- The call at the position of the program (R21) (DESIGN CHOICE, log 1). -/
def State.fetch (s : State) : Option Call :=
  s.program[s.pc]?

/-- The next step of a run (R21). An error has ended the run, or the program is complete: then there is no step (DESIGN
CHOICE, log 8; DEDUCED, log 17). -/
def stepRun (s : State) : Host.Outcome State Fault Refusal :=
  if s.ended then .fault .runEnded
  else
    match s.busy with
    | some b => runUnit (resumePoll b) { s with busy := none }
    | none =>
      match s.fetch with
      | some c => stepCall c s
      | none => .fault .programComplete

/-- A list with an entry at a position; positions before it that the list does not reach get the entry too (they are
never executed: the position only advances) (DESIGN CHOICE, log 1). -/
def placeAt {α : Type} : List α → Nat → α → List α
  | [], 0, a => [a]
  | _ :: rest, 0, a => a :: rest
  | [], n + 1, a => a :: placeAt [] n a
  | x :: rest, n + 1, a => x :: placeAt rest n a

/-- The state with the call `c` at the position the next step executes, in a run that goes on. -/
def State.placeCall (s : State) (c : Call) : State :=
  { s with program := placeAt s.program s.pc c, ended := false, busy := none }

end Sys2Proof.Machine
end

