-- ==== Sys2Proof/Machine/Step.lean ====
section
/-! DEFINITION. The step function of the machine, and the state in which its next step runs the instruction of a given
table word. -/

namespace Sys2Proof.Machine

/-- One step of the machine (R21). -/
def step (s : State) : Host.Outcome State Fault Refusal :=
  stepRun s

/-- The state with the instruction of a table word at the position the next step executes. -/
def State.withFetchWord (s : State) (nbits w : Nat) : State :=
  s.placeCall (callOfTableWord nbits w)

end Sys2Proof.Machine
end

