-- ==== Sys2Proof/Safety.lean ====
section
/-! DEFINITION. The terms in which claims about runs are stated: what a run that raised nothing is, the invariants of
the spec, the ticks of the canonical scans, and the state after a run of ticks that reached the board. -/

namespace Sys2Proof.Machine

/-! ### Safe runs -/

/-- A run is safe while its error log is empty (R37, R308). -/
def Safe (s : State) : Prop :=
  s.errors = []

/-- The process exit code (R262, R308). -/
def exitCode (s : State) : Nat :=
  if s.errors = [] then 0 else 1

/-- The error an operation reports: the first entry it has added to the log (R307). -/
def reportedError (before after : State) : Option ErrorEntry :=
  after.errors[before.errors.length]?

/-- The numeric code of an error (R300). -/
def errorNumber : ErrorCode → Nat
  | .transportError => 1
  | .deviceIdentityError => 2
  | .protocolDesyncError => 3
  | .alignmentError => 4
  | .flashOperationFailed => 5
  | .invalidArgument => 6
  | .invalidOperand => 7
  | .geometryInvalid => 8
  | .capabilityAbsentError => 9
  | .pollLimitExceeded => 10

/-! ### Invariants -/

/-- The synchronisation invariant of R23: a known tracked state is the device's. -/
def Synchronised (s : State) : Prop :=
  ∀ t, s.tap = .known t → s.devTap = t

/-- While the tracked state is `Unknown`, so is the tracked instruction (R25, R104, R305). -/
def IrForgotten (s : State) : Prop :=
  s.tap = .unknown → s.lastIR = .unknown ∧ s.pendingIR = .unknown

/-- A tracked instruction is a full instruction of 6 bits (R25, R108). -/
def IrSized (s : State) : Prop :=
  (∀ x, s.lastIR = .instr x → x.length = 6) ∧ (∀ x, s.pendingIR = .instr x → x.length = 6)

/-- The geometry register holds a legal geometry (R29, R214). -/
def GeometryLegal (s : State) : Prop :=
  ∀ g, s.geom = some g → validGeometry g = true

/-- Every transport write is followed at once by its read or by that read's failure (R56, R190). -/
def halfDuplex : List Event → Bool
  | [] => true
  | .write _ :: .read _ :: rest => halfDuplex rest
  | .write _ :: .fail _ :: rest => halfDuplex rest
  | .write _ :: _ => false
  | _ :: rest => halfDuplex rest

/-- The codes of the error events of a history. -/
def errorEvents : List Event → List ErrorCode
  | [] => []
  | .error c :: rest => c :: errorEvents rest
  | _ :: rest => errorEvents rest

/-- The error log and the error events of the history agree (R304, steps 1 and 2). -/
def LogAgrees (s : State) : Prop :=
  s.errors.map ErrorEntry.code = errorEvents s.history

/-! ### Successful transport calls -/

/-- A transport call that succeeds. -/
def answered : Answer → Bool
  | .ok _ => true
  | .fail _ => false

/-- The next `n` transport calls succeed. -/
abbrev State.AnswersOk (s : State) (n : Nat) : Prop :=
  ∀ k, k < n → answered (s.answerAt (s.drawn.answers + k)) = true

/-- The bytes of an answer. -/
def answerBytes : Answer → Bytes
  | .ok bytes => bytes
  | .fail _ => []

/-- The response of a framed exchange whose write is the `k`-th transport call from here (R189). -/
def State.responseAt (s : State) (k : Nat) (op : Byte) (payload : Bytes) : Bytes :=
  (answerBytes (s.answerAt (s.drawn.answers + (k + 1)))).take (responseLen s.params op payload)

/-- The `n` TDO bits that are drawn after `k` more. -/
def State.tdos (s : State) (k n : Nat) : BitSeq :=
  (List.range n).map fun i => s.tdoAt (s.drawn.tdo + (k + i))

/-! ### Runs of ticks -/

/-- The history entries of a run of ticks (tms, tdi) with their TDO bits, from a tracked state (R10, R38). -/
def tickEvents : Tracked → List (Bool × Bool) → BitSeq → List Event
  | tap, (tms, tdi) :: ticks, tdo :: tdos => .tick tms tdi tdo tap :: tickEvents (nextTracked tap tms) ticks tdos
  | _, _, _ => []

/-- The tracked instruction after a run of ticks with these TMS bits (R104). -/
def trackIR (inShiftInstruction : Bool) : Tracked → BitSeq → IrCopy × PendingIr → IrCopy × PendingIr
  | _, [], ir => ir
  | tap, tms :: more, ir =>
    trackIR inShiftInstruction (nextTracked tap tms) more
      (updateIR inShiftInstruction tap (nextTracked tap tms) ir.1 ir.2)

/-- The state after a run of ticks, each of which reached the board: two transport calls and one TDO bit a tick, the
tracked and the device state advanced alike, every tick recorded, the tracked instruction as given, and nothing else
changed (R101). -/
def State.ticked (s : State) (ticks : List (Bool × Bool)) (ir : IrCopy × PendingIr) : State :=
  { s with
    tap := walkTracked s.tap (ticks.map Prod.fst)
    devTap := walk s.devTap (ticks.map Prod.fst)
    lastIR := ir.1
    pendingIR := ir.2
    history := s.history ++ tickEvents s.tap ticks (s.tdos 0 ticks.length)
    drawn := { s.drawn with answers := s.drawn.answers + 2 * ticks.length, tdo := s.drawn.tdo + ticks.length } }

/-- The ticks of a shifted operand: only its last bit carries `tms = 1` (R107). -/
def operandTicks (bits : BitSeq) : List (Bool × Bool) :=
  bits.zipIdx.map fun b => (decide (b.2 + 1 = bits.length), b.1)

/-- The ticks of `scanDR` (R113). -/
def scanTicks (data : BitSeq) : List (Bool × Bool) :=
  pathTicks [true, false, false] ++ operandTicks data ++ pathTicks [true, false]

/-- The data ticks of `loadInstructionThenData`: empty data dwells for one tick (R112). -/
def dwellTicks (data : BitSeq) : List (Bool × Bool) :=
  if data = [] then [(true, false)] else operandTicks data

/-- The ticks of `loadInstructionThenData` (R112). -/
def loadTicks (instr data : BitSeq) : List (Bool × Bool) :=
  pathTicks [true, true, false, false] ++ operandTicks instr ++ pathTicks [true, true, false, false]
    ++ dwellTicks data ++ pathTicks [true, false]

/-! ### Frames and flash scans -/

/-- The state after a framed exchange that succeeded: two transport calls, recorded (R189). -/
def State.exchanged (s : State) (op : Byte) (payload : Bytes) : State :=
  { s with
    history := s.history ++ [.write (op :: payload), .read (s.responseAt 0 op payload)]
    drawn := { s.drawn with answers := s.drawn.answers + 2 } }

/-- The state after the ticks (tms, tdi) of a JTAG-primitive frame at the port, with their TDO bits (R173). -/
def State.ported (s : State) (ticks : List (Bool × Bool)) (tdo : BitSeq) : State :=
  { s with
    tap := walkTracked s.tap (ticks.map Prod.fst)
    devTap := walk s.devTap (ticks.map Prod.fst)
    lastIR := (trackIR false s.tap (ticks.map Prod.fst) (s.lastIR, s.pendingIR)).1
    pendingIR := (trackIR false s.tap (ticks.map Prod.fst) (s.lastIR, s.pendingIR)).2
    history := s.history ++ tickEvents s.tap ticks tdo }

/-- The state after `n` TDO draws. -/
def State.drewTdo (s : State) (n : Nat) : State :=
  { s with drawn := { s.drawn with tdo := s.drawn.tdo + n } }

/-- The state after a `FLASH_ONOFF` exchange that succeeded (R165, R219). -/
def State.pinned (s : State) (on : Bool) : State :=
  { s.exchanged 0x50 [flashOnOffByte on] with flashPin := if on then .asserted else .released }

/-- The state after `loadInstructionThenData(instr, data, ·)` (R112). -/
def State.loaded (s : State) (instr data : BitSeq) : State :=
  s.ticked (loadTicks instr data) (.instr instr, .instr instr)

/-- The state after `scanDR(data, ·)` (R113). -/
def State.scanned (s : State) (data : BitSeq) : State :=
  s.ticked (scanTicks data) (s.lastIR, s.pendingIR)

/-- The state after a command scan (R210). -/
def State.commanded (s : State) (frame : BitSeq) : State :=
  s.loaded user1 frame

/-- The state after a response scan of `n` bits, and the number its response bits make (R78, R142, R210). -/
def State.responded (s : State) (n : Nat) : State :=
  s.scanned (bitsOf n 0)

def State.responseNumber (s : State) (n : Nat) : Nat :=
  toInt (s.tdos 3 n)

/-- The Capabilities word the next probe reads, and the state after it (R212). -/
def State.probedWord (s : State) : Word32 :=
  BitVec.ofNat 32 ((s.commanded (subBits s.params.subCapabilities)).responseNumber 32)

def State.probed (s : State) : State :=
  { (s.commanded (subBits s.params.subCapabilities)).responded 32 with caps := some s.probedWord }

/-- The geometry the next geometry scan reads, the state after its ticks, and the state after it is stored (R214). -/
def State.scannedGeometry (s : State) : Geometry :=
  geometryOf ((s.commanded (subBits s.params.subFlashSize)).responseNumber 24)

def State.geometryTicked (s : State) : State :=
  (s.commanded (subBits s.params.subFlashSize)).responded 24

def State.measured (s : State) : State :=
  { s.geometryTicked with geom := some s.scannedGeometry }

/-- The status word the next poll reads, and the state after the poll (R217). -/
def State.pollWord (s : State) : Word32 :=
  BitVec.ofNat 32 (s.responseNumber 32)

def State.polled (s : State) : State :=
  { s.responded 32 with status := some s.pollWord }

/-- The command frame of a program or read: sub-instruction, word address, word count (R77). -/
def wordFrame (sub : SubCode) (g : Geometry) (wordAddress wordCount : Nat) : BitSeq :=
  subBits sub ++ bitsOf (addrWidth g) wordAddress ++ bitsOf (addrWidth g) wordCount

/-- The state after the two scans of a programmed chunk, before its first poll (R218). -/
def State.sentChunk (s : State) (g : Geometry) (address : Nat) (chunk : Bytes) : State :=
  (s.commanded (wordFrame s.params.subFlashPgm g (address / stride g) (chunk.length / stride g))).scanned
    (payloadBits chunk)

/-- The last probe of `ensureCapability(bitpos, start)`, with the state after it and its word (R213): the first one where
it shows the capability or nothing is to be started, and otherwise the one after the configuration. -/
def State.LastProbe (s : State) (bitpos : Nat) (start : Bool) (q : State) (w : Word32) : Prop :=
  ((hasCap s.probedWord bitpos = true ∨ start = false) ∧ q = s.probed ∧ w = s.probedWord)
    ∨ (hasCap s.probedWord bitpos = false ∧ start = true
      ∧ ∃ t, configureFpga s.params.flashInterfaceBitstream s.probed = .ok () t
        ∧ t.AnswersOk (2 * (16 + subWidth t.params.subCapabilities + 37)) ∧ q = t.probed ∧ w = t.probedWord)

/-! ### The handshake -/

/-- The INFO frame of `openSession` (R161, R250). -/
def infoFrame : Bytes :=
  0x40 :: Config.encodeInfo

/-- The response bytes of the `k`-th transport call from here, as the handshake reads them (R250). -/
def State.infoResponse (s : State) (k : Nat) : Bytes :=
  (answerBytes (s.answerAt (s.drawn.answers + k))).take (responseLen s.params 0x40 Config.encodeInfo)

/-- The state right after the handshake's transport calls: the configuration given, the events recorded, `n` answers
drawn, and nothing else changed (R250). -/
def State.shookHands (s : State) (cfg : SessionConfig) (events : List Event) (n : Nat) : State :=
  { s with
    cfg := cfg
    history := s.history ++ events
    drawn := { s.drawn with answers := s.drawn.answers + n } }

/-- What a failed transport call that is caught leaves: nothing is known of the TAP, and the device's state is a draw (R23,
R305). -/
def State.lostTap (s : State) : State :=
  { s with
    tap := .unknown
    devTap := s.devTapAt s.drawn.devTaps
    lastIR := .unknown
    pendingIR := .unknown
    drawn := { s.drawn with devTaps := s.drawn.devTaps + 1 } }

/-- What the handshake's success writes: the session is open and nothing is known of the TAP (R250). -/
def State.openedSession (s : State) : State :=
  { s with session := .opened, tap := .unknown, lastIR := .unknown, pendingIR := .unknown }

/-! ### How an instruction ends -/

/-- The state of a completed instruction that returned `v` (R21). -/
def State.completed (s : State) (v : Value) : State :=
  { s with result := v, pc := s.pc + 1, busy := none }

/-- The state of an instruction that raised an error at `s` and had nothing to clean up (R304). -/
def State.failedWith (s : State) (code : ErrorCode) (info : ErrorInfo) : State :=
  { s.enterError code info with result := .none, ended := true, busy := none }

/-- The state of an instruction that was ended by the failure of the `n`-th transport call from here and had nothing to
clean up: `tap` and the tracked instruction are forgotten, and the device's TAP state is a draw (R23, R304, R305). -/
def State.transportFailed (s : State) (n : Nat) (kind : FailKind) : State :=
  { s with
    tap := .unknown
    devTap := s.devTapAt s.drawn.devTaps
    lastIR := .unknown
    pendingIR := .unknown
    errors := s.errors ++ [{ code := .transportError, info := .transport kind }]
    history := s.history ++ [.error .transportError]
    ended := true
    busy := none
    result := .none
    drawn := { s.drawn with answers := s.drawn.answers + n, devTaps := s.drawn.devTaps + 1 } }

/-- The state of a `readFlash` or `writeFlash` that raised an error at `s` inside its `try`, and whose pin release
succeeded (R224, R304, R307). -/
def State.failedReleased (s : State) (code : ErrorCode) (info : ErrorInfo) : State :=
  { (s.enterError code info).pinned false with result := .none, ended := true, busy := none }

/-- The ceiling is reached after `k` polls (R217). -/
def State.atCeiling (s : State) (k : Nat) : Bool :=
  s.cfg.maxPolls.any fun m => decide (m ≤ k)

/-- What one pass of the poll loop makes of an operation, after `k` polls before it (R217): at the ceiling
PollLimitExceeded and no scan; on Passed the rest of the operation, on Failed FlashOperationFailed, and on InProgress the
operation waits for the next poll. `failed` is what an error makes of the state. -/
def State.pollThen (s : State) (k : Nat) (rest : Rest) (failed : State → ErrorCode → ErrorInfo → State)
    (go : State → State) : State :=
  if s.atCeiling k then failed s .pollLimitExceeded (.pollCount k)
  else
    match decodeStatus s.params s.pollWord with
    | .passed => go s.polled
    | .failed => failed s.polled .flashOperationFailed (.statusWord s.pollWord)
    | .inProgress => { s.polled with busy := some { polls := k + 1, rest := rest } }

/-- How a poll that is the last event of an instruction ends it, after `k` polls before it (R217). -/
def State.pollEnds (s : State) (k : Nat) : State :=
  s.pollThen k .done State.failedWith fun t => t.completed .none

/-- The transport calls of that pass succeed: those of its scan, those of what follows on Passed, and on an error those
of the pin release. -/
def State.PollAnswered (s : State) (k : Nat) (after : State → Prop) : Prop :=
  (s.atCeiling k = true → s.AnswersOk 2)
    ∧ (s.atCeiling k = false → s.AnswersOk (2 * 37)
      ∧ (decodeStatus s.params s.pollWord = .passed → after s.polled)
      ∧ (decodeStatus s.params s.pollWord = .failed → s.polled.AnswersOk 2))

/-- The error of `programChunk(address, chunk)` before its first tick, if any, in the order of the checks: the chunk's
size, the two alignments, and the two fields of the command frame (R55, R215, R218, R303). -/
def chunkFault (g : Geometry) (address : Nat) (chunk : Bytes) : Option (ErrorCode × ErrorInfo) :=
  if chunk.length = 0 ∨ blockSizeBytes g < chunk.length then some (.invalidOperand, .operand chunk.length)
  else if chunk.length % stride g ≠ 0 then some (.alignmentError, .alignment chunk.length (stride g))
  else if belowStride address (stride g) ≠ 0 then some (.alignmentError, .alignment address (stride g))
  else if 2 ^ addrWidth g ≤ address / stride g then
    some (.invalidOperand, .operands (addrWidth g) (address / stride g))
  else if 2 ^ addrWidth g ≤ chunk.length / stride g then
    some (.invalidOperand, .operands (addrWidth g) (chunk.length / stride g))
  else none

/-- The state after the Progress of a chunk (R223). -/
def State.progressed (s : State) (cumulative : Nat) : State :=
  { s with history := s.history ++ [.progress cumulative] }

/-- How a `writeFlash` ends that has these chunks before it, from a byte count that is done: every chunk is sent and
polled until one raises or waits, and the pin is released (R221, R223, R224). -/
def State.chunksEnd (g : Geometry) : Nat → List (Nat × Bytes) → State → State
  | _, [], s => (s.pinned false).completed .none
  | done, (address, chunk) :: more, s =>
    match chunkFault g address chunk with
    | some e => s.failedReleased e.1 e.2
    | none => (s.sentChunk g address chunk).pollThen 0 (.chunks (done + chunk.length) more) State.failedReleased
        fun t => State.chunksEnd g (done + chunk.length) more (t.progressed (done + chunk.length))

/-- The transport calls that it makes succeed. -/
def State.ChunksAnswered (g : Geometry) : Nat → List (Nat × Bytes) → State → Prop
  | _, [], s => s.AnswersOk 2
  | done, (address, chunk) :: more, s =>
    match chunkFault g address chunk with
    | some _ => s.AnswersOk 2
    | none => s.AnswersOk (2 * (16 + subWidth s.params.subFlashPgm + 2 * addrWidth g + (5 + 8 * chunk.length)))
        ∧ (s.sentChunk g address chunk).PollAnswered 0
          fun t => State.ChunksAnswered g (done + chunk.length) more (t.progressed (done + chunk.length))

/-- The characters of hexadecimal digits, of either case, and of decimal digits (R263). -/
def hexDigitChar (d : Fin 16 × Bool) : Char :=
  (if d.2 then "0123456789ABCDEF".toList else "0123456789abcdef".toList).getD d.1.val '0'

def decDigitChar (d : Fin 10) : Char :=
  "0123456789".toList.getD d.val '0'

/-! ### Configuration sequences -/

/-- The row that an operation of a configuration sequence stands for (R260). -/
def seqRow : SeqOp → Instr
  | .tick tms tdi => .tick tms tdi
  | .goto seq => .goto seq
  | .gotoState target => .gotoState target
  | .assertState expected => .assertState expected
  | .shiftInstruction instr => .shiftInstruction instr
  | .shiftData bits receive => .shiftData bits receive
  | .reset => .reset
  | .loadInstructionThenData instr data receive => .loadInstructionThenData instr data receive
  | .scanDR data receive => .scanDR data receive
  | .info payload => .usbInfo payload
  | .flashOnOff on => .usbFlashOnOff on
  | .writeEedata addr value => .usbWriteEedata addr value
  | .prog payload => .usbProg payload
  | .tmsTdi tms tdi => .usbTmsTdi tms tdi
  | .tmsTdiTdo tms tdi => .usbTmsTdiTdo tms tdi
  | .tdiTdo bits marked => .usbTdiTdo bits marked
  | .tdi bits marked => .usbTdi bits marked
  | .tapSeq seq => .usbTapSeq seq
  | .command op payload => .command (admittedByte op) payload

/-! ### Who writes what -/

/-- The fields that the spec lets only some operations write (R27, R29, R30, R31, R35). -/
inductive Effect where
  | caps | geom | status | deviceId | flashPin
  deriving DecidableEq, Repr

/-- Which of them an instruction may write. -/
def effects : Instr → List Effect
  | .probeCapabilities | .toggleProgPin | .usbProg _ => [.caps]
  | .configureFpga _ | .ensureCapability _ _ => [.caps, .flashPin]
  | .readGeometry => [.geom]
  | .readFlash _ _ _ => [.caps, .geom, .flashPin]
  | .writeFlash _ _ _ => [.caps, .geom, .status, .flashPin]
  | .eraseFlash | .pollUntilTerminal | .programChunk _ _ => [.status]
  | .readIdcode => [.deviceId]
  | .usbFlashOnOff _ | .setFlashPin _ | .releaseOnExit => [.flashPin]
  | .command op _ => if op = 0x50 then [.flashPin] else []
  | _ => []

/-- Which of them the next pass of a poll loop may write, by what follows the loop (R217, R224). -/
def resumeEffects : Rest → List Effect
  | .done => [.status]
  | .erased _ | .chunks _ _ => [.status, .flashPin]

/-- The next step runs an operation that may write this field. -/
def State.MayWrite (s : State) (e : Effect) : Prop :=
  match s.busy with
  | some b => e ∈ resumeEffects b.rest
  | none => ∃ c i, s.fetch = some c ∧ decode c = .ok i ∧ e ∈ effects i

/-- An operation that waits between polls runs on an identified session (R36, R251). -/
def WaitsIdentified (s : State) : Prop :=
  ∀ b, s.busy = some b → s.session = .identified

/-! ### The optional assumption about the board (R53): never a rule of the machine -/

/-- What a run does to the flash, as the assumption names it: an `eraseFlash`, a `programChunk` that ended in Passed, and
a `readFlash` that returned, the last two with the geometry they used. -/
inductive FlashEvent where
  | erased
  | programmed (geometry : Geometry) (address : Nat) (chunk : Bytes)
  | read (geometry : Geometry) (loAddr hiAddr : Nat) (out : Bytes)
  deriving DecidableEq, Repr

/-- A `writeFlash` with `start` that runs from this state calls `eraseFlash` (R221). -/
def State.reachesErase (s : State) (address length : Nat) : Bool :=
  match (do setFlashPin true; writeChecks address length true : Op Geometry) s with
  | .ok _ _ => true
  | .error _ _ => false

/-- The chunks whose Progress stands among these events (R223): those of a `writeFlash` that have passed, in order. -/
def passedChunks (address : Nat) (plan : List (Nat × Bytes)) : List Event → List (Nat × Bytes)
  | [] => []
  | .progress n :: more =>
    plan.filter (fun c => c.1 + c.2.length = address + n) ++ passedChunks address plan more
  | _ :: more => passedChunks address plan more

/-- What the step from `s` to `t` does to the flash, in order. The position stays at the call while it waits. -/
def flashEvents (s t : State) : List FlashEvent :=
  match s.fetch.map decode with
  | some (.ok .eraseFlash) => if s.busy = none then [.erased] else []
  | some (.ok (.programChunk address chunk)) =>
    if t.pc = s.pc + 1 then [.programmed t.geometry address chunk] else []
  | some (.ok (.writeFlash data address start)) =>
    (if s.busy = none ∧ start = true ∧ s.reachesErase address data.length = true then [.erased] else [])
      ++ (passedChunks address (chunkPlan t.geometry address data) (t.history.drop s.history.length)).map
        fun c => .programmed t.geometry c.1 c.2
  | some (.ok (.readFlash loAddr hiAddr _)) =>
    match t.result with
    | .bytes out => if t.pc = s.pc + 1 then [.read t.geometry loAddr hiAddr out] else []
    | _ => []
  | _ => []

/-- `FlashCoherent` of R53, of the steps of a run, each with its state before and its state after: a chunk that ended in
Passed is read back by a later `readFlash` that covers it and used the same geometry, as long as no `eraseFlash` lies
between. Like the rule, it makes no exception for a later programming of the same address. The model never assumes it. -/
def FlashCoherent (run : List (State × State)) : Prop :=
  ∀ (before middle later : List FlashEvent) (g : Geometry) (address loAddr hiAddr j : Nat) (chunk out : Bytes),
    run.flatMap (fun step => flashEvents step.1 step.2)
      = before ++ .programmed g address chunk :: middle ++ .read g loAddr hiAddr out :: later →
    .erased ∉ middle →
    j < chunk.length → loAddr ≤ address + j → address + j ≤ hiAddr →
    out[address + j - loAddr]? = chunk[j]?

end Sys2Proof.Machine
end

