-- ==== Sys2Proof/Certificates/Slice0/Obligations.lean ====
section
/-! DEFINITION. The statements about the model, in the order of the rules they formalise. A state after a successful run
of ticks, frames or scans is written with the terms of Sys2Proof/Safety.lean, each a whole record: what it does not name
is unchanged. -/

open Sys2Proof Sys2Proof.Machine

/-! ### Reset and the TAP graph -/

/-- R21, R42, R330: at session open the tracked TAP state, the tracked and the pending instruction and the flash pin are
`Unknown`, the four words read from the board are absent, the session is `Closed`, both logs are empty and the position is
0. `devTap` is a draw and `cfg` is an argument, so neither is stated. -/
def Obligations.ResetLeavesTheOpeningState : Prop :=
  State.reset.tap = .unknown ∧ State.reset.lastIR = .unknown ∧ State.reset.pendingIR = .unknown
    ∧ State.reset.caps = none ∧ State.reset.geom = none ∧ State.reset.status = none ∧ State.reset.deviceId = none
    ∧ State.reset.flashPin = .unknown ∧ State.reset.session = .closed
    ∧ State.reset.errors = [] ∧ State.reset.history = [] ∧ State.reset.pc = 0

/-- R100: the transition table, all 32 entries, and `Unknown`. -/
def Obligations.TransitionFunctionIsTheTable : Prop :=
  (∀ row ∈ ([
      (.testLogicReset, .runTestIdle, .testLogicReset), (.runTestIdle, .runTestIdle, .selectDrScan),
      (.selectDrScan, .captureDr, .selectIrScan), (.captureDr, .shiftDr, .exit1Dr), (.shiftDr, .shiftDr, .exit1Dr),
      (.exit1Dr, .pauseDr, .updateDr), (.pauseDr, .pauseDr, .exit2Dr), (.exit2Dr, .shiftDr, .updateDr),
      (.updateDr, .runTestIdle, .selectDrScan), (.selectIrScan, .captureIr, .testLogicReset),
      (.captureIr, .shiftIr, .exit1Ir), (.shiftIr, .shiftIr, .exit1Ir), (.exit1Ir, .pauseIr, .updateIr),
      (.pauseIr, .pauseIr, .exit2Ir), (.exit2Ir, .shiftIr, .updateIr), (.updateIr, .runTestIdle, .selectDrScan)]
      : List (TapState × TapState × TapState)),
    next row.1 false = row.2.1 ∧ next row.1 true = row.2.2)
  ∧ (∀ t tms, nextTracked (.known t) tms = .known (next t tms))
  ∧ ∀ tms, nextTracked .unknown tms = .unknown

/-- R115: how many ticks with `tms = 1` reach Test-Logic-Reset, from every state; five always do. -/
def Obligations.FiveOnesReachTestLogicReset : Prop :=
  (∀ row ∈ ([
      (.testLogicReset, 0), (.runTestIdle, 3), (.selectDrScan, 2), (.captureDr, 5), (.shiftDr, 5), (.exit1Dr, 4),
      (.pauseDr, 5), (.exit2Dr, 4), (.updateDr, 3), (.selectIrScan, 1), (.captureIr, 5), (.shiftIr, 5), (.exit1Ir, 4),
      (.pauseIr, 5), (.exit2Ir, 4), (.updateIr, 3)] : List (TapState × Nat)),
    walk row.1 (List.replicate row.2 true) = .testLogicReset
      ∧ ∀ m < row.2, walk row.1 (List.replicate m true) ≠ .testLogicReset)
  ∧ next .testLogicReset true = .testLogicReset
  ∧ ∀ t, walk t (List.replicate 5 true) = .testLogicReset

/-- R106: `path(a, b)` leads from `a` to `b`, every other sequence that does is longer, and the row `path` returns it
and changes nothing else. -/
def Obligations.PathIsTheUniqueShortestSequence : Prop :=
  ∀ a b : TapState,
    walk a (path a b) = b
    ∧ (∀ seq : BitSeq, walk a seq = b → seq = path a b ∨ (path a b).length < seq.length)
    ∧ ∀ s : State, exec (.path a b) s = .next (s.completed (.bits (path a b)))

/-! ### Ticks -/

/-- R101, R34, R305: one tick. It advances the tracked and the device state alike and is recorded with its pre-state; a
failing write or read ends it with TransportError, and no tick is recorded. The kinds of failure are the model's choice
(log 21), and so is that a tick records Tick alone (log 9). -/
def Obligations.TickAdvancesBothStatesOrFails : Prop :=
  ∀ (s : State) (tms tdi : Bool),
    (s.AnswersOk 2 →
      exec (.tick tms tdi) s = .next (State.completed
        { s with
          devTap := next s.devTap tms
          tap := nextTracked s.tap tms
          lastIR := (updateIR false s.tap (nextTracked s.tap tms) s.lastIR s.pendingIR).1
          pendingIR := (updateIR false s.tap (nextTracked s.tap tms) s.lastIR s.pendingIR).2
          history := s.history ++ [.tick tms tdi (s.tdoAt s.drawn.tdo) s.tap]
          drawn := { s.drawn with answers := s.drawn.answers + 2, tdo := s.drawn.tdo + 1 } }
        (.bit (s.tdoAt s.drawn.tdo))))
    ∧ (∀ k, s.answerAt s.drawn.answers = .fail k →
      exec (.tick tms tdi) s = .next (s.transportFailed 1 (writeKind k)))
    ∧ (∀ k, answered (s.answerAt s.drawn.answers) = true → s.answerAt (s.drawn.answers + 1) = .fail k →
      exec (.tick tms tdi) s = .next (s.transportFailed 2 (readKind k)))

/-- R104: the instruction tracking of a tick, case by case, and its consequence that raw ticks in Shift-IR make the
tracked instruction `Unknown` when the scan passes Update-IR. -/
def Obligations.RawShiftsForgetTheInstruction : Prop :=
  (∀ (inShift : Bool) (pre post : Tracked) (ir : IrCopy) (pending : PendingIr),
    (post = .known .testLogicReset ∨ post = .unknown →
      updateIR inShift pre post ir pending = (.unknown, .unknown))
    ∧ (post = .known .captureIr → updateIR inShift pre post ir pending = (ir, .clean))
    ∧ (post ≠ .known .testLogicReset → post ≠ .unknown → post ≠ .known .captureIr →
        pre = .known .shiftIr → inShift = false → updateIR inShift pre post ir pending = (ir, .unknown))
    ∧ (post = .known .updateIr → (pre ≠ .known .shiftIr ∨ inShift = true) →
        (∀ x, pending = .instr x → updateIR inShift pre post ir pending = (.instr x, pending))
        ∧ ((∀ x, pending ≠ .instr x) → updateIR inShift pre post ir pending = (.unknown, pending)))
    ∧ (post ≠ .known .testLogicReset → post ≠ .unknown → post ≠ .known .captureIr → post ≠ .known .updateIr →
        (pre ≠ .known .shiftIr ∨ inShift = true) → updateIR inShift pre post ir pending = (ir, pending)))
  ∧ ∀ s : State, s.tap = .known .shiftIr → s.AnswersOk 6 →
      ∃ t, exec (.goto [true, true, false]) s = .next t ∧ t.tap = .known .runTestIdle ∧ t.lastIR = .unknown

/-- R105, R106: `goto(seq)` is its ticks with `tdi = 0`, from every tracked state; `gotoState(target)` is the `goto` of
the shortest path, and ends in its target. -/
def Obligations.MovesAreTheirTicks : Prop :=
  (∀ (s : State) (seq : BitSeq), s.AnswersOk (2 * seq.length) →
    exec (.goto seq) s =
      .next ((s.ticked (pathTicks seq) (trackIR false s.tap seq (s.lastIR, s.pendingIR))).completed .none))
  ∧ ∀ (s : State) (t target : TapState), s.tap = .known t → s.AnswersOk (2 * (path t target).length) →
    ∃ u, u = s.ticked (pathTicks (path t target)) (trackIR false s.tap (path t target) (s.lastIR, s.pendingIR))
      ∧ u.tap = .known target ∧ exec (.gotoState target) s = .next (u.completed .none)

/-- R111, R211: the two consistency checks issue no tick; they pass and change nothing, or raise ProtocolDesyncError. -/
def Obligations.ConsistencyChecksPassOrRaise : Prop :=
  (∀ (s : State) (e : TapState),
    (s.tap = .known e → exec (.assertState e) s = .next (s.completed .none))
    ∧ (s.tap ≠ .known e →
        exec (.assertState e) s = .next (s.failedWith .protocolDesyncError (.tapMismatch e s.tap))))
  ∧ (∀ s : State, s.session = .identified →
    (s.lastIR = .instr (bitsOf 6 0b000010) → exec .checkUser1 s = .next (s.completed .none))
    ∧ (s.lastIR ≠ .instr (bitsOf 6 0b000010) →
        exec .checkUser1 s = .next (s.failedWith .protocolDesyncError (.irMismatch (bitsOf 6 0b000010) s.lastIR))))
  ∧ ∀ (s : State) (info : ErrorInfo),
    s.failedWith .protocolDesyncError info =
      { s with
        tap := .unknown, lastIR := .unknown, pendingIR := .unknown
        errors := s.errors ++ [{ code := .protocolDesyncError, info := info }]
        history := s.history ++ [.error .protocolDesyncError]
        result := .none, ended := true, busy := none }

/-! ### Shifts -/

/-- R75, R107, R108: `shiftInstruction`, and the eight IR-instruction rows, which shift their own 6-bit value. Six
ticks, only the last with `tms = 1`; the operand becomes the pending instruction if the scan was clean. That an IR row
is the shift of its value is the model's reading of R75 (log 7). -/
def Obligations.InstructionShiftsAreSixTicks : Prop :=
  ∀ (s : State) (x : BitSeq) (i : Instr) (instr : BitSeq),
    (i, instr) ∈ [(Instr.shiftInstruction x, x), (.irUser1, bitsOf 6 0b000010),
      (.irUser2, bitsOf 6 s.params.instrUser2.toNat), (.irIdcode, bitsOf 6 s.params.instrIdcode.toNat),
      (.irUsercode, bitsOf 6 s.params.instrUsercode.toNat), (.irCfgIn, bitsOf 6 s.params.instrCfgIn.toNat),
      (.irJprogram, bitsOf 6 s.params.instrJprogram.toNat), (.irJstart, bitsOf 6 s.params.instrJstart.toNat),
      (.irBypass, bitsOf 6 s.params.instrBypass.toNat)] →
    s.tap = .known .shiftIr → instr.length = 6 → s.AnswersOk 12 →
    ∃ t, t = s.ticked (operandTicks instr) (s.lastIR, if s.pendingIR = .clean then .instr instr else .unknown)
      ∧ (operandTicks instr).map Prod.fst = [false, false, false, false, false, true]
      ∧ (operandTicks instr).map Prod.snd = instr
      ∧ t.tap = .known .exit1Ir
      ∧ exec i s = .next (t.completed .none)

/-- R107, R109: `shiftData` is one tick a bit, only the last with `tms = 1`; with `receive` it returns the TDO bits of
those ticks in order, and nothing otherwise. -/
def Obligations.DataShiftsReturnTheirTdoBits : Prop :=
  ∀ (s : State) (bits : BitSeq) (receive : Bool),
    s.tap = .known .shiftDr → bits ≠ [] → s.AnswersOk (2 * bits.length) →
    ∃ t, t = s.ticked (operandTicks bits) (s.lastIR, s.pendingIR)
      ∧ (operandTicks bits).map Prod.fst = List.replicate (bits.length - 1) false ++ [true]
      ∧ (operandTicks bits).map Prod.snd = bits
      ∧ t.tap = .known .exit1Dr
      ∧ exec (.shiftData bits receive) s =
          .next (t.completed (.bits (if receive then s.tdos 0 bits.length else [])))

/-- R75, R77, R108, R109, R112, R113, R210, R303, R331: an operation that needs a TAP state raises ProtocolDesyncError in
every other, `Unknown` among them, before any tick; then come the checks on the operand's length. `scanDR` of no bits and
`loadInstructionThenData` of an instruction that is not 6 bits long raise InvalidOperand after the ticks that lead to
their shift. The order of two failing checks is the pseudocode's (log 18). That an IR row is the shift of its value and a
sub-instruction row the command scan of its frame, on every session, is the model's reading of R75 and R77 (log 7). -/
def Obligations.TapPreconditionsAreCheckedBeforeAnyTick : Prop :=
  (∀ (s : State) (x data : BitSeq) (receive : Bool) (i : Instr) (e : TapState),
    (i, e) ∈ [(Instr.shiftInstruction x, .shiftIr), (.irUser1, .shiftIr), (.irUser2, .shiftIr), (.irIdcode, .shiftIr),
      (.irUsercode, .shiftIr), (.irCfgIn, .shiftIr), (.irJprogram, .shiftIr), (.irJstart, .shiftIr),
      (.irBypass, .shiftIr), (.shiftData data receive, .shiftDr),
      (.loadInstructionThenData x data receive, .runTestIdle), (.scanDR data receive, .runTestIdle),
      (.subCapabilities, .runTestIdle), (.subFlashSize, .runTestIdle), (.subFlashErase, .runTestIdle)] →
    s.tap ≠ .known e → exec i s = .next (s.failedWith .protocolDesyncError (.tapMismatch e s.tap)))
  ∧ (∀ (s : State) (g : Geometry) (address count : Nat) (i : Instr), s.geom = some g →
    i = .subFlashPgm address count ∨ i = .subFlashRead address count →
    address < 2 ^ addrWidth g → count < 2 ^ addrWidth g → s.tap ≠ .known .runTestIdle →
    exec i s = .next (s.failedWith .protocolDesyncError (.tapMismatch .runTestIdle s.tap)))
  ∧ (∀ (s : State) (target : TapState), s.tap = .unknown →
    exec (.gotoState target) s = .next (s.failedWith .protocolDesyncError (.tapMismatch target .unknown)))
  ∧ (∀ (s : State) (x : BitSeq), s.tap = .known .shiftIr → x.length ≠ 6 →
    exec (.shiftInstruction x) s = .next (s.failedWith .invalidOperand (.operand x.length)))
  ∧ (∀ (s : State) (receive : Bool), s.tap = .known .shiftDr →
    exec (.shiftData [] receive) s = .next (s.failedWith .invalidOperand (.operand 0)))
  ∧ (∀ (s : State) (receive : Bool), s.tap = .known .runTestIdle → s.AnswersOk 6 →
    exec (.scanDR [] receive) s =
      .next ((s.ticked (pathTicks [true, false, false]) (s.lastIR, s.pendingIR)).failedWith
        .invalidOperand (.operand 0)))
  ∧ ∀ (s : State) (x data : BitSeq) (receive : Bool), s.tap = .known .runTestIdle → x.length ≠ 6 → s.AnswersOk 8 →
    exec (.loadInstructionThenData x data receive) s =
      .next ((s.ticked (pathTicks [true, true, false, false]) (s.lastIR, .clean)).failedWith
        .invalidOperand (.operand x.length))

/-! ### TAP reset and the composite scans -/

/-- R110, R331, R333: from every state, `reset()` leaves `tap = devTap = Run-Test/Idle` and the tracked instruction
`Unknown`, records its six ticks, and changes nothing else. -/
def Obligations.TapResetResynchronisesEveryState : Prop :=
  ∀ s : State, s.AnswersOk 12 →
    exec .reset s = .next (State.completed
      { s with
        tap := .known .runTestIdle
        devTap := .runTestIdle
        lastIR := .unknown
        pendingIR := .unknown
        history := s.history ++ tickEvents s.tap (pathTicks [true, true, true, true, true]) (s.tdos 0 5)
          ++ [.tick false false (s.tdoAt (s.drawn.tdo + 5)) (.known .testLogicReset)]
        drawn := { s.drawn with answers := s.drawn.answers + 12, tdo := s.drawn.tdo + 6 } } .none)

/-- R112: `loadInstructionThenData` is its `4 + 6 + 4 + max(|data|, 1) + 2` ticks, ends in Run-Test/Idle with the
instruction loaded, and returns the TDO bits of its data ticks. -/
def Obligations.LoadInstructionThenDataIsItsTicks : Prop :=
  ∀ (s : State) (instr data : BitSeq) (receive : Bool),
    s.tap = .known .runTestIdle → instr.length = 6 → s.AnswersOk (2 * (4 + 6 + 4 + max data.length 1 + 2)) →
    (loadTicks instr data).length = 4 + 6 + 4 + max data.length 1 + 2
    ∧ (s.ticked (loadTicks instr data) (.instr instr, .instr instr)).tap = .known .runTestIdle
    ∧ exec (.loadInstructionThenData instr data receive) s =
        .next ((s.ticked (loadTicks instr data) (.instr instr, .instr instr)).completed
          (.bits (if receive then s.tdos 14 data.length else [])))

/-- R113: `scanDR` is its `3 + |data| + 2` ticks, ends in Run-Test/Idle, leaves the tracked instruction as it is, and
returns the TDO bits of its data ticks. -/
def Obligations.ScanDRKeepsTheInstruction : Prop :=
  ∀ (s : State) (data : BitSeq) (receive : Bool),
    s.tap = .known .runTestIdle → data ≠ [] → s.AnswersOk (2 * (3 + data.length + 2)) →
    (scanTicks data).length = 3 + data.length + 2
    ∧ (s.ticked (scanTicks data) (s.lastIR, s.pendingIR)).tap = .known .runTestIdle
    ∧ exec (.scanDR data receive) s =
        .next ((s.ticked (scanTicks data) (s.lastIR, s.pendingIR)).completed
          (.bits (if receive then s.tdos 3 data.length else [])))

/-- R22, R110: a step that takes `tap` from `Unknown` to a known state is a `reset()`, or a configuration sequence, which
may hold one. -/
def Obligations.OnlyResetMakesTheTapStateKnown : Prop :=
  ∀ s t : State, step s = .next t → s.tap = .unknown → t.tap ≠ .unknown →
    ∃ c, s.fetch = some c ∧ (decode c = .ok .reset ∨ ∃ bitstream, decode c = .ok (.configureFpga bitstream))

/-- R76, R77, R79, R210: a sub-instruction row is one command scan of its frame: USER1, then the sub-instruction's bits,
and for a program or read the word address and the word count, each of `addrWidthBits` bits; a field that is too large
raises InvalidOperand before any tick. That a row is the scan of its frame is the model's reading of R77 (log 7); where no
geometry has been read, the width is a value of the model's, of which nothing is known (log 13). -/
def Obligations.SubInstructionsAreCommandScans : Prop :=
  ∀ (s : State), s.tap = .known .runTestIdle →
    (∀ i sub, (i, sub) ∈ [(Instr.subCapabilities, s.params.subCapabilities), (.subFlashSize, s.params.subFlashSize),
        (.subFlashErase, s.params.subFlashErase)] → s.AnswersOk (2 * (16 + subWidth sub)) →
      exec i s = .next ((s.loaded (bitsOf 6 0b000010) (subBits sub)).completed .none))
    ∧ ∀ address count i sub, (i, sub) ∈ [(Instr.subFlashPgm address count, s.params.subFlashPgm),
        (.subFlashRead address count, s.params.subFlashRead)] →
      (address < 2 ^ addrWidth s.geometry → count < 2 ^ addrWidth s.geometry →
        s.AnswersOk (2 * (16 + subWidth sub + 2 * addrWidth s.geometry)) →
        exec i s = .next ((s.loaded (bitsOf 6 0b000010) (subBits sub ++ bitsOf (addrWidth s.geometry) address
          ++ bitsOf (addrWidth s.geometry) count)).completed .none))
      ∧ (2 ^ addrWidth s.geometry ≤ address →
        exec i s = .next (s.failedWith .invalidOperand (.operands (addrWidth s.geometry) address)))
      ∧ (address < 2 ^ addrWidth s.geometry → 2 ^ addrWidth s.geometry ≤ count →
        exec i s = .next (s.failedWith .invalidOperand (.operands (addrWidth s.geometry) count)))

/-! ### The codec -/

/-- R140: `makeBits` answers `count` bits, bit `i` of the value at place `i`; a value of `2 ^ count` or more raises
InvalidOperand. -/
def Obligations.MakeBitsIsLeastSignificantFirst : Prop :=
  ∀ (s : State) (count value : Nat),
    (value < 2 ^ count → ∃ bits : BitSeq, exec (.makeBits count value) s = .next (s.completed (.bits bits))
      ∧ bits.length = count ∧ ∀ i < count, bits[i]? = some (value.testBit i))
    ∧ (2 ^ count ≤ value →
      exec (.makeBits count value) s = .next (s.failedWith .invalidOperand (.operands count value)))

/-- R141, R142: `concat` answers the first sequence followed by the second; `toInt` is the sum of its bits' weights, and
undoes `makeBits` on every value that fits. -/
def Obligations.ToIntIsTheInverseOfMakeBits : Prop :=
  ∀ s : State,
    (∀ a b : BitSeq, exec (.concat a b) s = .next (s.completed (.bits (a ++ b))))
    ∧ (∀ seq : BitSeq, exec (.toInt seq) s =
        .next (s.completed (.nat (∑ i : Fin seq.length, (seq.get i).toNat * 2 ^ i.val))))
    ∧ ∀ n v : Nat, v < 2 ^ n → ∃ bits : BitSeq, exec (.makeBits n v) s = .next (s.completed (.bits bits))
        ∧ exec (.toInt bits) s = .next (s.completed (.nat v))

/-- R143: packing, `ceil(n / 8)` bytes, bit `i` of the sequence in bit `i mod 8` of byte `i div 8`, missing high bits 0. -/
def Obligations.PackingPutsBitsInOrder : Prop :=
  ∀ (s : State) (seq : BitSeq), ∃ bytes : Bytes, exec (.toBytes seq) s = .next (s.completed (.bytes bytes))
    ∧ bytes.length = (seq.length + 7) / 8
    ∧ ∀ j < bytes.length, ∀ k < 8, (bytes.getD j 0).getLsbD k = seq.getD (8 * j + k) false

/-- R144: unpacking, which raises InvalidOperand where the bytes do not supply the bits (the spec's decision D9). -/
def Obligations.UnpackingReadsBitsInOrder : Prop :=
  ∀ (s : State) (bytes : Bytes) (count : Nat),
    (count ≤ 8 * bytes.length → ∃ bits : BitSeq, exec (.fromBytes bytes count) s = .next (s.completed (.bits bits))
      ∧ bits.length = count ∧ ∀ i < count, bits[i]? = some ((bytes.getD (i / 8) 0).getLsbD (i % 8)))
    ∧ (8 * bytes.length < count →
      exec (.fromBytes bytes count) s = .next (s.failedWith .invalidOperand (.operands count bytes.length)))

/-- R145: packing the bits unpacked from bytes gives back the bytes; unpacking the bytes packed from bits gives back the
bits; and the padding bits of the last byte are 0. -/
def Obligations.PackingRoundTrips : Prop :=
  ∀ s : State,
    (∀ b : Bytes, ∃ bits : BitSeq, exec (.fromBytes b (8 * b.length)) s = .next (s.completed (.bits bits))
      ∧ exec (.toBytes bits) s = .next (s.completed (.bytes b)))
    ∧ (∀ q : BitSeq, ∃ b : Bytes, exec (.toBytes q) s = .next (s.completed (.bytes b))
      ∧ exec (.fromBytes b q.length) s = .next (s.completed (.bits q)))
    ∧ ∀ q : BitSeq, q.length % 8 ≠ 0 → ∃ b : Bytes, exec (.toBytes q) s = .next (s.completed (.bytes b))
      ∧ ∀ k, q.length % 8 ≤ k → k < 8 → (b.getD (q.length / 8) 0).getLsbD k = false

/-- R146, R147: `reverse` answers the 8-bit mirror of its byte and is its own inverse on every byte, with the two vectors
of the rule. -/
def Obligations.ReversalIsItsOwnInverse : Prop :=
  (∀ (s : State) (b : Byte), ∃ r : Byte, exec (.reverse b) s = .next (s.completed (.byte r))
    ∧ (∀ k < 8, r.getLsbD k = b.getLsbD (7 - k)) ∧ exec (.reverse r) s = .next (s.completed (.byte b)))
  ∧ reverse 0x01 = 0x80 ∧ reverse 0xAA = 0x55

/-- R149, R150: the payload codec, every byte most significant bit first, in both directions, and its round trip; a number
of bits that is not a multiple of 8 raises InvalidOperand. -/
def Obligations.PayloadsAreMostSignificantBitFirst : Prop :=
  ∀ s : State,
    (∀ bytes : Bytes, ∃ bits : BitSeq, exec (.payloadBits bytes) s = .next (s.completed (.bits bits))
      ∧ bits.length = 8 * bytes.length
      ∧ (∀ j < bytes.length, ∀ k < 8, bits[8 * j + k]? = some ((bytes.getD j 0).getLsbD (7 - k)))
      ∧ exec (.payloadBytes bits) s = .next (s.completed (.bytes bytes)))
    ∧ ∀ bits : BitSeq,
      (bits.length % 8 = 0 → ∃ bytes : Bytes, exec (.payloadBytes bits) s = .next (s.completed (.bytes bytes))
        ∧ bytes.length = bits.length / 8
        ∧ ∀ j < bytes.length, ∀ k < 8, (bytes.getD j 0).getLsbD (7 - k) = bits.getD (8 * j + k) false)
      ∧ (bits.length % 8 ≠ 0 →
        exec (.payloadBytes bits) s = .next (s.failedWith .invalidOperand (.operand bits.length)))

/-- R152: `le32` answers the four bytes of its number, the least significant first, and raises InvalidOperand from `2 ^ 32`
on. -/
def Obligations.LengthFieldIsLittleEndian : Prop :=
  ∀ (s : State) (n : Nat),
    (n < 2 ^ 32 → exec (.le32 n) s = .next (s.completed (.bytes
      [BitVec.ofNat 8 (n % 256), BitVec.ofNat 8 (n / 2 ^ 8 % 256), BitVec.ofNat 8 (n / 2 ^ 16 % 256),
       BitVec.ofNat 8 (n / 2 ^ 24 % 256)])))
    ∧ (2 ^ 32 ≤ n → exec (.le32 n) s = .next (s.failedWith .invalidOperand (.operand n)))

/-- R28: the capability test, on every word and every bit position: both guard bytes are `0xA5` and the bit is 1. -/
def Obligations.CapabilityTestNeedsBothGuards : Prop :=
  ∀ (s : State) (c : Word32) (bitpos : Nat),
    exec (.hasCap c bitpos) s = .next (s.completed (.bit
      (decide (c.toNat / 2 ^ 24 = 0xA5) && decide (c.toNat % 2 ^ 8 = 0xA5) && c.toNat.testBit bitpos)))

/-- R30: a status word decodes to Passed where it is the parameter for it, else to Failed where it is that parameter, and
to InProgress on every other word. -/
def Obligations.StatusDecodingIsTotal : Prop :=
  ∀ (s : State) (w : Word32),
    (w = s.params.statusPassed → exec (.decodeStatus w) s = .next (s.completed (.status .passed)))
    ∧ (w ≠ s.params.statusPassed → w = s.params.statusFailed →
        exec (.decodeStatus w) s = .next (s.completed (.status .failed)))
    ∧ (w ≠ s.params.statusPassed → w ≠ s.params.statusFailed →
        exec (.decodeStatus w) s = .next (s.completed (.status .inProgress)))

/-- R263: `parseAddr` reads `0x` and hexadecimal digits of either case, or decimal digits, and raises InvalidArgument on
every other text. -/
def Obligations.AddressTextsAreHexOrDecimal : Prop :=
  ∀ s : State,
    (∀ ds : List (Fin 16 × Bool), ds ≠ [] →
      exec (.parseAddr ('0' :: 'x' :: ds.map hexDigitChar)) s =
        .next (s.completed (.nat (ds.foldl (fun n d => 16 * n + d.1.val) 0))))
    ∧ (∀ ds : List (Fin 10), ds ≠ [] →
      exec (.parseAddr (ds.map decDigitChar)) s =
        .next (s.completed (.nat (ds.foldl (fun n d => 10 * n + d.val) 0))))
    ∧ ∀ text : Text, (∀ ds : List (Fin 16 × Bool), ds ≠ [] → text ≠ '0' :: 'x' :: ds.map hexDigitChar) →
      (∀ ds : List (Fin 10), ds ≠ [] → text ≠ ds.map decDigitChar) →
      exec (.parseAddr text) s = .next (s.failedWith .invalidArgument (.argumentText text))

/-! ### The framer -/

/-- R161, R167, R189, R258: a frame whose effect is the exchange alone: one write, then one read, both recorded.
`enableFlash` writes `0xAC` or the disable value to address `0xFE`, on any session. That WRITE_EEDATA is sent with every
address and value is the model's reading of R167 (log 26). -/
def Obligations.PlainFramesAreOneExchange : Prop :=
  ∀ s : State, s.AnswersOk 2 →
    (∀ payload, exec (.usbInfo payload) s =
      .next ((s.exchanged 0x40 payload).completed (.bytes (s.responseAt 0 0x40 payload))))
    ∧ (∀ addr value, exec (.usbWriteEedata addr value) s =
      .next ((s.exchanged 0x05 (Config.encodeEeWrite addr value)).completed .none))
    ∧ exec (.enableFlash true) s = .next ((s.exchanged 0x05 (Config.encodeEeWrite 0xFE 0xAC)).completed .none)
    ∧ exec (.enableFlash false) s =
      .next ((s.exchanged 0x05 (Config.encodeEeWrite 0xFE s.params.eepromFlashFlagOff)).completed .none)

/-- R165, R219, R224, R305: the flash pin. The frame's byte is `0x01` or `0x00` (the spec's own choice, D20); on success
the pin is Asserted or Released and the TAP is untouched; where the write or the read fails the pin is Unknown. The
kinds of failure are the model's choice (log 21), and the byte values are log 24. -/
def Obligations.FlashPinFollowsItsFrame : Prop :=
  ∀ (s : State) (i : Instr) (on : Bool),
    i = .usbFlashOnOff on
      ∨ s.session = .identified ∧ (i = .setFlashPin on ∨ i = .releaseOnExit ∧ on = false) →
    (s.AnswersOk 2 → exec i s = .next (State.completed
      { s with
        flashPin := if on then .asserted else .released
        history := s.history ++ [.write [0x50, if on then 0x01 else 0x00],
          .read (s.responseAt 0 0x50 [if on then 0x01 else 0x00])]
        drawn := { s.drawn with answers := s.drawn.answers + 2 } } .none))
    ∧ (∀ k, s.answerAt s.drawn.answers = .fail k →
      exec i s = .next { s.transportFailed 1 (writeKind k) with flashPin := .unknown })
    ∧ (∀ k, answered (s.answerAt s.drawn.answers) = true → s.answerAt (s.drawn.answers + 1) = .fail k →
      exec i s = .next { s.transportFailed 2 (readKind k) with flashPin := .unknown })

/-- R182, R255: the PROG frame, then everything that depends on the FPGA is forgotten; `devTap` is not touched. That the
row PROG runs on every session is the model's reading of R182 (log 10). -/
def Obligations.ProgForgetsTheFpga : Prop :=
  ∀ (s : State) (i : Instr) (payload : Bytes),
    i = .usbProg payload ∨ s.session = .identified ∧ i = .toggleProgPin ∧ payload = Config.encodeProg →
    s.AnswersOk 2 →
    exec i s = .next (State.completed
      { s.exchanged 0x49 payload with caps := none, lastIR := .unknown, pendingIR := .unknown, tap := .unknown } .none)

/-- R173, R174, R175: a single-tick frame is its exchange and one tick at the port; `TMS_TDI_TDO` returns the bit
decoded from its response, which is the tick's TDO. That the response's bit is the tick's TDO is the model's reading
(log 11). -/
def Obligations.TickFramesTickOnce : Prop :=
  ∀ (s : State) (tms tdi : Bool), s.AnswersOk 2 →
    exec (.usbTmsTdi tms tdi) s = .next (State.completed
      (((s.exchanged 0x42 (encodeTick tms tdi)).ported [(tms, tdi)] (s.tdos 0 1)).drewTdo 1) .none)
    ∧ exec (.usbTmsTdiTdo tms tdi) s = .next (State.completed
      ((s.exchanged 0x43 (encodeTick tms tdi)).ported [(tms, tdi)]
        [Config.decodeTdo (s.responseAt 0 0x43 (encodeTick tms tdi))])
      (.bit (Config.decodeTdo (s.responseAt 0 0x43 (encodeTick tms tdi)))))

/-- R71, R173, R176, R177, R181: the bulk frames. Each is its exchange and its ticks at the port; `TDI_TDO` returns the
bits of its response, and raises InvalidOperand after its ticks where the response does not supply them; an empty
operand raises before any frame, and an empty TMS sequence is not sent. The TDO bits of the ticks, the empty operands
and the short response are the model's reading (log 11). -/
def Obligations.BulkFramesTickOncePerBit : Prop :=
  (∀ (s : State) (bits : BitSeq) (marked : Bool), bits ≠ [] → bits.length < 2 ^ 32 → s.AnswersOk 2 →
    exec (.usbTdi bits marked) s = .next (State.completed
      (((s.exchanged 0x46 (bulkBytes s.params bits)).ported (bulkTicks bits marked)
        (s.tdos 0 bits.length)).drewTdo bits.length) .none)
    ∧ ∀ resp, resp = s.responseAt 0 0x44 (bulkBytes s.params bits) →
      (bits.length ≤ 8 * resp.length →
        exec (.usbTdiTdo bits marked) s = .next (State.completed
          ((s.exchanged 0x44 (bulkBytes s.params bits)).ported (bulkTicks bits marked)
            (bitsOfBytes resp bits.length)) (.bits (bitsOfBytes resp bits.length))))
      ∧ (8 * resp.length < bits.length →
        exec (.usbTdiTdo bits marked) s = .next (State.failedWith
          (((s.exchanged 0x44 (bulkBytes s.params bits)).ported (bulkTicks bits marked)
            (bitsOfBytes resp (8 * resp.length) ++ s.tdos 0 (bits.length - 8 * resp.length))).drewTdo
              (bits.length - 8 * resp.length))
          .invalidOperand (.operands bits.length resp.length))))
  ∧ (∀ (s : State) (seq : BitSeq), seq ≠ [] → s.AnswersOk 2 →
    exec (.usbTapSeq seq) s = .next (State.completed
      (((s.exchanged 0x4f (encodeTmsSeq seq)).ported (pathTicks seq)
        (s.tdos 0 seq.length)).drewTdo seq.length) .none))
  ∧ (∀ s : State, exec (.usbTapSeq []) s = .next (s.completed .none))
  ∧ (∀ (s : State) (marked : Bool),
    exec (.usbTdi [] marked) s = .next (s.failedWith .invalidOperand (.operand 0))
    ∧ exec (.usbTdiTdo [] marked) s = .next (s.failedWith .invalidOperand (.operand 0)))
  ∧ ∀ (bits : BitSeq) (marked : Bool), bits ≠ [] →
    (bulkTicks bits marked).map Prod.fst = List.replicate (bits.length - 1) false ++ [marked]
    ∧ (bulkTicks bits marked).map Prod.snd = bits

/-- R189, R173 to R177, R181: `command` with an admitted opcode is one exchange and returns the response; a frame of a
JTAG primitive also has its ticks at the port. A payload that encodes a tick, a TMS sequence or bulk bits has the ticks
that its row has; the TDO bits of `TMS_TDI_TDO` and `TDI_TDO` are the response's, as far as it goes. With a refused
opcode `command` has no meaning. That it writes no other state, and how a payload is read back to its operand, is the
model's reading (log 10); the TDO bits are log 11. -/
def Obligations.CommandIsOneHalfDuplexExchange : Prop :=
  (∀ (s : State) (op : Byte) (payload : Bytes),
    (op ∈ ([0x40, 0x50, 0x05, 0x49] : List Byte) → s.AnswersOk 2 →
      exec (.command op payload) s =
        .next ((s.exchanged op payload).completed (.bytes (s.responseAt 0 op payload))))
    ∧ (op ∈ ([0x42, 0x43, 0x44, 0x46, 0x4f] : List Byte) → s.AnswersOk 2 →
      ∀ ticks resp tdo m, ticks = frameTicks s.params op payload → resp = s.responseAt 0 op payload →
      tdo = responseTdo op resp ticks.length → m = ticks.length - tdo.length →
      exec (.command op payload) s =
        .next ((((s.exchanged op payload).ported ticks (tdo ++ s.tdos 0 m)).drewTdo m).completed (.bytes resp)))
    ∧ (op ∈ refusedOpcodes → exec (.command op payload) s = .refused (.refusedOpcode op)))
  ∧ (∀ (p : Params) (tms tdi : Bool), frameTicks p 0x42 (encodeTick tms tdi) = [(tms, tdi)]
    ∧ frameTicks p 0x43 (encodeTick tms tdi) = [(tms, tdi)])
  ∧ (∀ (p : Params) (seq : BitSeq), frameTicks p 0x4f (encodeTmsSeq seq) = pathTicks seq)
  ∧ (∀ (p : Params) (op : Byte) (bits : BitSeq), op = 0x44 ∨ op = 0x46 → bits ≠ [] → bits.length < 2 ^ 32 →
    ∃ (operand : BitSeq) (marked : Bool), operand ≠ [] ∧ bulkBytes p operand = bulkBytes p bits
      ∧ (p.bulkLenUnit = .bits → operand = bits)
      ∧ frameTicks p op (bulkBytes p bits) = bulkTicks operand marked)
  ∧ ∀ (resp : Bytes) (n : Nat),
    responseTdo 0x43 resp 1 = [Config.decodeTdo resp]
    ∧ (n ≤ 8 * resp.length → responseTdo 0x44 resp n = bitsOfBytes resp n)
    ∧ (8 * resp.length < n → responseTdo 0x44 resp n = bitsOfBytes resp (8 * resp.length))
    ∧ ∀ op ∈ ([0x42, 0x46, 0x4f] : List Byte), responseTdo op resp n = []

/-- R74, R81: the 228 byte values outside the vocabulary raise InvalidOperand, and nothing is written to the transport. -/
def Obligations.UnlistedOpcodesRaiseAndSendNothing : Prop :=
  ∃ vocabulary : List Byte,
    vocabulary = [0x00, 0x40, 0x01, 0x02, 0x03, 0x50, 0x04, 0x05, 0x06, 0x07, 0x31, 0x32, 0x41, 0x42, 0x43, 0x44, 0x45,
      0x46, 0x47, 0x48, 0x4f, 0x49, 0x4a, 0x4b, 0x4c, 0x4d, 0x4e, 0xff]
    ∧ (((List.range 256).map (BitVec.ofNat 8)).filter fun op => !vocabulary.contains op).length = 228
    ∧ ∀ (s : State) (op : Byte), op ∉ vocabulary →
      (∀ payload, exec (.command op payload) s = .next (s.failedWith .invalidOperand (.operand op.toNat)))
      ∧ (∀ operands, s.ended = false → s.busy = none → s.fetch = some (.frame op operands) →
        step s = .next (s.failedWith .invalidOperand (.operand op.toNat)))
      ∧ s.failedWith .invalidOperand (.operand op.toNat) =
        { s with
          errors := s.errors ++ [{ code := .invalidOperand, info := .operand op.toNat }]
          history := s.history ++ [.error .invalidOperand]
          result := .none, ended := true, busy := none }

/-- R160, R162 to R164, R166, R168 to R172, R178 to R180, R183 to R188, R300: the nineteen refused opcodes have no
successor state. -/
def Obligations.RefusedOpcodesHaveNoStep : Prop :=
  ∀ (s : State) (p : Bytes) (n : Nat),
    exec (.usbReadVersion p) s = .refused (.refusedOpcode 0x00) ∧ exec (.usbReadFlash p) s = .refused (.refusedOpcode 0x01)
    ∧ exec (.usbWriteFlash p) s = .refused (.refusedOpcode 0x02)
    ∧ exec (.usbEraseFlash p) s = .refused (.refusedOpcode 0x03)
    ∧ exec (.usbReadEedata p) s = .refused (.refusedOpcode 0x04)
    ∧ exec (.usbReadConfig p) s = .refused (.refusedOpcode 0x06)
    ∧ exec (.usbWriteConfig p) s = .refused (.refusedOpcode 0x07)
    ∧ exec (.usbIdBoard p) s = .refused (.refusedOpcode 0x31)
    ∧ exec (.usbUpdateLed p) s = .refused (.refusedOpcode 0x32)
    ∧ exec (.usbSenseInverters p) s = .refused (.refusedOpcode 0x41)
    ∧ exec (.usbTdo n) s = .refused (.refusedOpcode 0x45)
    ∧ exec (.usbRuntest p) s = .refused (.refusedOpcode 0x47)
    ∧ exec (.usbNullTdi p) s = .refused (.refusedOpcode 0x48)
    ∧ exec (.usbSingleTestVector p) s = .refused (.refusedOpcode 0x4a)
    ∧ exec (.usbGetTestVector p) s = .refused (.refusedOpcode 0x4b)
    ∧ exec (.usbSetOscFreq p) s = .refused (.refusedOpcode 0x4c)
    ∧ exec (.usbEnableReturn p) s = .refused (.refusedOpcode 0x4d)
    ∧ exec (.usbDisableReturn p) s = .refused (.refusedOpcode 0x4e)
    ∧ exec (.usbReset p) s = .refused (.refusedOpcode 0xff)

/-! ### The session -/

/-- R23, R250, R305: the handshake. It opens the session where the response passes the checksum, after one failed read as well,
which is recorded as `Fail(read)` and no error; a response that does not pass raises DeviceIdentityError. When `cfg` is
written is the model's reading (log 16), and so is that the failed read has a transport failure's effect on the TAP's
state (log 6). -/
def Obligations.OpenSessionHandshakes : Prop :=
  ∀ (s : State) (cfg : SessionConfig), s.session = .closed →
    (s.AnswersOk 3 → ∀ resp, resp = s.infoResponse 2 →
      (infoChecksumOk s.params resp = true → exec (.openSession cfg) s =
        .next ((s.shookHands cfg [.write infoFrame, .read resp] 3).openedSession.completed .none))
      ∧ (infoChecksumOk s.params resp = false → exec (.openSession cfg) s =
        .next ((s.shookHands cfg [.write infoFrame, .read resp] 3).failedWith .deviceIdentityError (.checksum resp))))
    ∧ ∀ k, s.AnswersOk 2 → s.answerAt (s.drawn.answers + 2) = .fail k →
      answered (s.answerAt (s.drawn.answers + 3)) = true → ∀ resp, resp = s.infoResponse 3 →
      (infoChecksumOk s.params resp = true → exec (.openSession cfg) s = .next
        ((s.lostTap.shookHands cfg [.write infoFrame, .fail .read, .read resp] 4).openedSession.completed .none))
      ∧ (infoChecksumOk s.params resp = false → exec (.openSession cfg) s = .next
        ((s.lostTap.shookHands cfg [.write infoFrame, .fail .read, .read resp] 4).failedWith
          .deviceIdentityError (.checksum resp)))

/-- R250, R300, R305: the handshake's failures. The open, the write or the second read in a row fails: the session stays
`Closed`. On a session that is not `Closed` there is no step. The fault and the time `cfg` is written are log 16, the
kinds of failure log 21, the effect of the first of two failed reads log 6. -/
def Obligations.OpenSessionFailuresLeaveItClosed : Prop :=
  ∀ (s : State) (cfg : SessionConfig),
    (s.session ≠ .closed → exec (.openSession cfg) s = .fault .sessionNotClosed)
    ∧ (s.session = .closed →
      (∀ k, s.answerAt s.drawn.answers = .fail k → ∃ t, exec (.openSession cfg) s = .next t
        ∧ t = State.transportFailed { s with cfg := cfg } 1 (openKind k) ∧ t.session = .closed)
      ∧ (∀ k, s.AnswersOk 1 → s.answerAt (s.drawn.answers + 1) = .fail k → ∃ t, exec (.openSession cfg) s = .next t
        ∧ t = State.transportFailed { s with cfg := cfg } 2 (writeKind k) ∧ t.session = .closed)
      ∧ ∀ k k', s.AnswersOk 2 → s.answerAt (s.drawn.answers + 2) = .fail k → s.answerAt (s.drawn.answers + 3) = .fail k' →
        ∃ t, exec (.openSession cfg) s = .next t ∧ t = State.transportFailed
          { s.lostTap with cfg := cfg, history := s.history ++ [.write infoFrame, .fail .read] } 4 (readKind k')
          ∧ t.session = .closed)

/-- R252, R254: the two identification reads: the instruction and 32 zero bits, the first TDO bit of the data being bit
0; `readIdcode` stores the word, `readUsercode` does not; on a closed session `readIdcode` raises. -/
def Obligations.IdentificationReadsReturnTheirWord : Prop :=
  ∀ s : State,
    (s.session ≠ .closed → s.tap = .known .runTestIdle → s.AnswersOk 96 →
      exec .readIdcode s = .next (State.completed
        { s.loaded (bitsOf 6 s.params.instrIdcode.toNat) (bitsOf 32 0) with
          deviceId := some (BitVec.ofNat 32 (toInt (s.tdos 14 32))) }
        (.word (BitVec.ofNat 32 (toInt (s.tdos 14 32))))))
    ∧ (s.session = .identified → s.tap = .known .runTestIdle → s.AnswersOk 96 →
      exec .readUsercode s = .next ((s.loaded (bitsOf 6 s.params.instrUsercode.toNat) (bitsOf 32 0)).completed
        (.word (BitVec.ofNat 32 (toInt (s.tdos 14 32))))))
    ∧ (s.session = .closed →
      exec .readIdcode s = .next (s.failedWith .deviceIdentityError (.session .closed)))

/-- R253: the identity gate compares all 32 bits. Another IDCODE is reported as hex text, which `parseAddr` reads back,
and the session does not change. The form of the text is the model's choice (log 14). -/
def Obligations.IdentityGateComparesTheWholeWord : Prop :=
  ∀ s : State,
    (s.deviceId = some 0x02218093 →
      exec .checkIdentity s = .next (State.completed { s with session := .identified } .none))
    ∧ ∀ w : Word32, s.deviceId = some w → w ≠ 0x02218093 →
      exec .checkIdentity s = .next (s.failedWith .deviceIdentityError (.idcode (hexText w)))
      ∧ (s.failedWith .deviceIdentityError (.idcode (hexText w))).session = s.session
      ∧ exec (.parseAddr (hexText w)) s = .next (s.completed (.nat w.toNat))

/-- R260: `configureFpga` runs its sequence, forgets the capabilities, and checks that the sequence has ended in
Run-Test/Idle; with an empty sequence it does only that. A sequence is its operations in order, up to the first that
raises; an operation of it leaves the state that its row leaves, and never waits. What a sequence may hold is log 15. -/
def Obligations.ConfigurationForgetsTheCapabilities : Prop :=
  (∀ (s : State) (bitstream : Bytes), s.session = .identified →
    (∀ t, seqOps (configureSeq s.params bitstream) s = .ok () t → t.tap = .known .runTestIdle →
      exec (.configureFpga bitstream) s = .next (State.completed { t with caps := none } .none))
    ∧ (∀ t, seqOps (configureSeq s.params bitstream) s = .ok () t → t.tap ≠ .known .runTestIdle →
      exec (.configureFpga bitstream) s = .next (State.failedWith { t with caps := none } .protocolDesyncError
        (.tapMismatch .runTestIdle t.tap)))
    ∧ (configureSeq s.params bitstream = [] → s.tap = .known .runTestIdle →
      exec (.configureFpga bitstream) s = .next (State.completed { s with caps := none } .none))
    ∧ ∀ t, seqOps (configureSeq s.params bitstream) s = .error .raised t →
      exec (.configureFpga bitstream) s = .next { t with result := .none, ended := true, busy := none })
  ∧ (∀ (s : State) (op : SeqOp) (more : List SeqOp),
    (∀ t, seqOp op s = .ok () t → seqOps (op :: more) s = seqOps more t)
    ∧ ∀ e t, seqOp op s = .error e t → seqOps (op :: more) s = .error e t)
  ∧ ∀ (s : State) (op : SeqOp),
    (∀ t, seqOp op s = .ok () t → ∃ v, exec (seqRow op) s = .next (t.completed v))
    ∧ (∀ t, seqOp op s = .error .raised t →
      exec (seqRow op) s = .next { t with result := .none, ended := true, busy := none })
    ∧ ∀ t, seqOp op s ≠ .error .waiting t

/-- R36, R251: every operation of the flash protocol, the configuration, the USERCODE read and the PROG toggle need an
identified session, and raise DeviceIdentityError before anything else without it. That every operation of file 43 makes
the check first is the model's reading of R36 (log 12). -/
def Obligations.FlashOperationsNeedAnIdentifiedSession : Prop :=
  ∀ (s : State) (a n : Nat) (b on start : Bool) (bytes : Bytes) (i : Instr),
    i ∈ [Instr.checkUser1, .probeCapabilities, .ensureCapability n b, .readGeometry, .validateRange a n, .eraseFlash,
      .pollUntilTerminal, .programChunk a bytes, .setFlashPin on, .readFlash a n start, .writeFlash bytes a start,
      .releaseOnExit, .configureFpga bytes, .readUsercode, .toggleProgPin] →
    s.session ≠ .identified →
    exec i s = .next (s.failedWith .deviceIdentityError (.session s.session))

/-! ### The flash protocol -/

/-- R212, R213: the probe and the capability check: present, absent without `start`, and absent with `start`, where the
flash interface is configured once and the probe repeated; a configuration that raises ends it. -/
def Obligations.CapabilityChecksProbeTheBoard : Prop :=
  ∀ s : State, s.session = .identified → s.tap = .known .runTestIdle →
    s.AnswersOk (2 * (16 + subWidth s.params.subCapabilities + 37)) →
    exec .probeCapabilities s = .next (s.probed.completed (.word s.probedWord))
    ∧ ∀ bitpos : Nat,
      (∀ start, hasCap s.probedWord bitpos = true →
        exec (.ensureCapability bitpos start) s = .next (s.probed.completed .none))
      ∧ (hasCap s.probedWord bitpos = false →
        exec (.ensureCapability bitpos false) s =
          .next (s.probed.failedWith .capabilityAbsentError (.capability bitpos s.probedWord))
        ∧ ∀ t, configureFpga s.params.flashInterfaceBitstream s.probed = .ok () t →
          t.AnswersOk (2 * (16 + subWidth t.params.subCapabilities + 37)) →
          (hasCap t.probedWord bitpos = true →
            exec (.ensureCapability bitpos true) s = .next (t.probed.completed .none))
          ∧ (hasCap t.probedWord bitpos = false →
            exec (.ensureCapability bitpos true) s =
              .next (t.probed.failedWith .capabilityAbsentError (.capability bitpos t.probedWord))))
      ∧ ∀ t, hasCap s.probedWord bitpos = false →
        configureFpga s.params.flashInterfaceBitstream s.probed = .error .raised t →
        exec (.ensureCapability bitpos true) s = .next { t with result := .none, ended := true, busy := none }

/-- R29, R214: the geometry read. The three fields are bits 7:0, 15:8 and 23:16 of the response; a legal geometry is
stored, any other raises GeometryInvalid and stores nothing. -/
def Obligations.GeometryIsReadAndChecked : Prop :=
  ∀ (s : State) (g d a b : Nat), s.session = .identified → s.tap = .known .runTestIdle →
    s.AnswersOk (2 * (16 + subWidth s.params.subFlashSize + 29)) →
    g = (s.commanded (subBits s.params.subFlashSize)).responseNumber 24 →
    d = g % 2 ^ 8 → a = g / 2 ^ 8 % 2 ^ 8 → b = g / 2 ^ 16 % 2 ^ 8 →
    (d ≠ 0 ∧ d % 8 = 0 ∧ (∃ k, d / 8 = 2 ^ k) ∧ a ≠ 0 ∧ d / 8 ≤ 2 ^ b →
      ∃ geom : Geometry, geom.dataWidthBits.toNat = d ∧ geom.addrWidthBits.toNat = a
        ∧ geom.blockAddrWidthBits.toNat = b
        ∧ exec .readGeometry s = .next (State.completed { s.geometryTicked with geom := some geom } (.geometry geom)))
    ∧ (¬ (d ≠ 0 ∧ d % 8 = 0 ∧ (∃ k, d / 8 = 2 ^ k) ∧ a ≠ 0 ∧ d / 8 ≤ 2 ^ b) →
      exec .readGeometry s = .next (s.geometryTicked.failedWith .geometryInvalid (.geometry d a b)))

/-- R29, R215, R303: the alignment check under a legal geometry: the length first, then the address; no tick, no frame.
That it checks the session is log 12. -/
def Obligations.AlignmentIsCheckedLengthFirst : Prop :=
  ∀ (s : State) (g : Geometry) (address length : Nat), s.session = .identified → s.geom = some g →
    validGeometry g = true →
    (length % stride g = 0 → address % stride g = 0 →
      exec (.validateRange address length) s = .next (s.completed .none))
    ∧ (length % stride g ≠ 0 →
      exec (.validateRange address length) s =
        .next (s.failedWith .alignmentError (.alignment length (stride g))))
    ∧ (length % stride g = 0 → address % stride g ≠ 0 →
      exec (.validateRange address length) s =
        .next (s.failedWith .alignmentError (.alignment address (stride g))))

/-- R216, R217: a poll is one response scan of 32 bits; it completes on Passed, raises on Failed, and on InProgress the
operation waits for its next poll. An erase is its command scan and then that poll. At the ceiling nothing is scanned:
with a ceiling of 0 a poll raises at once, and an erase after its command scan. That a step makes one poll is the model's
choice (log 8). -/
def Obligations.ErasesAndPollsEndByTheirStatus : Prop :=
  ∀ s : State, s.session = .identified →
    (s.cfg.maxPolls = some 0 →
      exec .pollUntilTerminal s = .next (s.failedWith .pollLimitExceeded (.pollCount 0))
      ∧ (s.tap = .known .runTestIdle → s.AnswersOk (2 * (16 + subWidth s.params.subFlashErase)) →
        exec .eraseFlash s = .next ((s.commanded (subBits s.params.subFlashErase)).failedWith
          .pollLimitExceeded (.pollCount 0))))
    ∧ (s.cfg.maxPolls ≠ some 0 → s.tap = .known .runTestIdle →
      (s.lastIR = .instr (bitsOf 6 0b000010) → s.AnswersOk (2 * 37) →
        exec .pollUntilTerminal s = .next (s.pollEnds 0))
      ∧ (s.AnswersOk (2 * (16 + subWidth s.params.subFlashErase + 37)) →
        exec .eraseFlash s = .next ((s.commanded (subBits s.params.subFlashErase)).pollEnds 0)))

/-- R217, R223, R224, R336: a poll loop in progress, whatever follows it. While the board answers InProgress it goes on,
`N` polls in `N` steps and without an error for every `N`, so that with no ceiling there is a run that never ends. A poll
that reads Passed completes the operation, or goes on with the chunks of a `writeFlash`; one that reads Failed raises
FlashOperationFailed, and a ceiling that is reached PollLimitExceeded; a `writeFlash` that ends so has released the pin.
That a step makes one poll is the model's choice (log 8). -/
def Obligations.PollLoopsGoOnWhileInProgress : Prop :=
  (∀ (N k : Nat) (rest : Rest) (s : State), s.ended = false → s.busy = some { polls := k, rest := rest } →
    s.session = .identified → s.tap = .known .runTestIdle → s.lastIR = .instr (bitsOf 6 0b000010) →
    s.AnswersOk (2 * 37 * N) →
    (∀ j < N, decodeStatus s.params (BitVec.ofNat 32 (toInt (s.tdos (37 * j + 3) 32))) = .inProgress) →
    (∀ m, s.cfg.maxPolls = some m → k + N ≤ m) →
    ∃ t : State, Sys2Proof.core.run N s = .next t
      ∧ t.busy = some { polls := k + N, rest := rest } ∧ t.ended = false ∧ t.pc = s.pc ∧ t.errors = s.errors
      ∧ t.tap = .known .runTestIdle ∧ t.lastIR = s.lastIR ∧ t.flashPin = s.flashPin
      ∧ t.drawn.tdo = s.drawn.tdo + 37 * N)
  ∧ ∀ (k : Nat) (rest : Rest) (s u : State), s.ended = false → s.busy = some { polls := k, rest := rest } →
    s.session = .identified → s.tap = .known .runTestIdle → s.lastIR = .instr (bitsOf 6 0b000010) →
    u = { s with busy := none } →
    (rest = .done → (s.AnswersOk (2 * 37) ∨ s.atCeiling k = true) →
      step s = .next (u.pollEnds k))
    ∧ (∀ plan, rest = .erased plan → u.PollAnswered k (State.ChunksAnswered u.geometry 0 plan) →
      step s = .next (u.pollThen k rest State.failedReleased (State.chunksEnd u.geometry 0 plan)))
    ∧ ∀ done more, rest = .chunks done more →
      u.PollAnswered k (fun t => State.ChunksAnswered u.geometry done more (t.progressed done)) →
      step s = .next (u.pollThen k rest State.failedReleased
        fun t => State.chunksEnd u.geometry done more (t.progressed done))

/-- R55, R77, R149, R218: a program chunk: the command scan of its frame, the payload scan of its bytes, then the poll.
A chunk that is empty or longer than a block, a length or an address that is not a multiple of the stride, and an address
or a count too large for its field raise before any tick. The checks of size and alignment are the model's reading of
R55, R57 and R218 (log 13), the one poll a step its choice (log 8). -/
def Obligations.ProgramChunkSendsFrameThenPayload : Prop :=
  ∀ (s : State) (g : Geometry) (address : Nat) (chunk : Bytes), s.session = .identified → s.geom = some g →
    validGeometry g = true →
    (chunk = [] ∨ 2 ^ g.blockAddrWidthBits.toNat < chunk.length →
      exec (.programChunk address chunk) s =
        .next (s.failedWith .invalidOperand (.operand chunk.length)))
    ∧ (chunk ≠ [] → chunk.length ≤ 2 ^ g.blockAddrWidthBits.toNat →
      (s.tap = .known .runTestIdle → s.cfg.maxPolls ≠ some 0 →
        chunk.length % stride g = 0 → address % stride g = 0 →
        address / stride g < 2 ^ addrWidth g → chunk.length / stride g < 2 ^ addrWidth g →
        s.AnswersOk (2 * (16 + subWidth s.params.subFlashPgm + 2 * addrWidth g + (5 + 8 * chunk.length) + 37)) →
        exec (.programChunk address chunk) s = .next ((State.scanned
          (s.commanded (subBits s.params.subFlashPgm ++ bitsOf (addrWidth g) (address / stride g)
            ++ bitsOf (addrWidth g) (chunk.length / stride g))) (payloadBits chunk)).pollEnds 0))
      ∧ (chunk.length % stride g ≠ 0 →
        exec (.programChunk address chunk) s =
          .next (s.failedWith .alignmentError (.alignment chunk.length (stride g))))
      ∧ (chunk.length % stride g = 0 → address % stride g ≠ 0 →
        exec (.programChunk address chunk) s =
          .next (s.failedWith .alignmentError (.alignment address (stride g))))
      ∧ (chunk.length % stride g = 0 → address % stride g = 0 → 2 ^ addrWidth g ≤ address / stride g →
        exec (.programChunk address chunk) s =
          .next (s.failedWith .invalidOperand (.operands (addrWidth g) (address / stride g))))
      ∧ (chunk.length % stride g = 0 → address % stride g = 0 → address / stride g < 2 ^ addrWidth g →
        2 ^ addrWidth g ≤ chunk.length / stride g →
        exec (.programChunk address chunk) s =
          .next (s.failedWith .invalidOperand (.operands (addrWidth g) (chunk.length / stride g)))))

/-- R213, R220, R224: a read that succeeds: the pin asserted, the capability probed, and with `start` configured where it
is missing, the geometry read, one command scan, one response scan of eight bits a byte, the pin released; it returns the
payload bytes of those bits. -/
def Obligations.ReadFlashReturnsItsResponseBytes : Prop :=
  ∀ (s p m c : State) (w : Word32) (g : Geometry) (lo hi n : Nat) (start : Bool),
    s.session = .identified → s.tap = .known .runTestIdle → lo ≤ hi → n = hi - lo + 1 →
    s.AnswersOk (2 + 2 * (16 + subWidth s.params.subCapabilities + 37)) →
    (s.pinned true).LastProbe (capPosition s.params.capFlashRead) start p w →
    hasCap w (capPosition s.params.capFlashRead) = true →
    g = p.scannedGeometry → m = p.measured →
    validGeometry g = true → n % stride g = 0 → lo % stride g = 0 →
    lo / stride g < 2 ^ addrWidth g → n / stride g < 2 ^ addrWidth g →
    p.AnswersOk (2 * (16 + subWidth p.params.subFlashSize + 29)
      + 2 * (16 + subWidth p.params.subFlashRead + 2 * addrWidth g + (5 + 8 * n)) + 2) →
    c = m.commanded (subBits m.params.subFlashRead ++ bitsOf (addrWidth g) (lo / stride g)
      ++ bitsOf (addrWidth g) (n / stride g)) →
    exec (.readFlash lo hi start) s =
      .next (((c.responded (8 * n)).pinned false).completed (.bytes (payloadBytesOf (c.tdos 3 (8 * n)))))

/-- R140, R213 to R215, R220, R221, R224, R303: reads and writes that fail a check before their first erase, program or
read frame. A reversed range raises before any transport call. A configuration that raises, a capability that is missing
after the last probe, an illegal geometry, a range whose length and then whose address is misaligned, and for a read an
address or a count too large for its field raise after the scans that show them, and the pin is released. -/
def Obligations.RejectedReadsReleaseThePin : Prop :=
  ∀ (s : State), s.session = .identified →
    (∀ lo hi start, hi < lo → exec (.readFlash lo hi start) s = .next (s.failedWith .invalidArgument (.range lo hi)))
    ∧ ∀ (i : Instr) (bitpos address n : Nat) (start reads : Bool), s.tap = .known .runTestIdle →
      (reads = true ∧ (∃ hi, address ≤ hi ∧ n = hi - address + 1 ∧ i = .readFlash address hi start)
          ∧ bitpos = capPosition s.params.capFlashRead
        ∨ reads = false ∧ (∃ data : Bytes, n = data.length ∧ i = .writeFlash data address start)
          ∧ bitpos = capPosition s.params.capFlashWrite) →
      s.AnswersOk (2 + 2 * (16 + subWidth s.params.subCapabilities + 37)) →
      (∀ t, hasCap (s.pinned true).probedWord bitpos = false → start = true →
        configureFpga s.params.flashInterfaceBitstream (s.pinned true).probed = .error .raised t → t.AnswersOk 2 →
        exec i s = .next { t.pinned false with result := .none, ended := true, busy := none })
      ∧ ∀ (p : State) (w : Word32) (g : Geometry), (s.pinned true).LastProbe bitpos start p w → g = p.scannedGeometry →
        (hasCap w bitpos = false → p.AnswersOk 2 →
          exec i s = .next (p.failedReleased .capabilityAbsentError (.capability bitpos w)))
        ∧ (hasCap w bitpos = true → p.AnswersOk (2 * (16 + subWidth p.params.subFlashSize + 29) + 2) →
          (validGeometry g = false →
            exec i s = .next (p.geometryTicked.failedReleased .geometryInvalid
              (.geometry g.dataWidthBits.toNat g.addrWidthBits.toNat g.blockAddrWidthBits.toNat)))
          ∧ (validGeometry g = true →
            (n % stride g ≠ 0 →
              exec i s = .next (p.measured.failedReleased .alignmentError (.alignment n (stride g))))
            ∧ (n % stride g = 0 → address % stride g ≠ 0 →
              exec i s = .next (p.measured.failedReleased .alignmentError (.alignment address (stride g))))
            ∧ (reads = true → n % stride g = 0 → address % stride g = 0 →
              (2 ^ addrWidth g ≤ address / stride g →
                exec i s = .next (p.measured.failedReleased .invalidOperand
                  (.operands (addrWidth g) (address / stride g))))
              ∧ (address / stride g < 2 ^ addrWidth g → 2 ^ addrWidth g ≤ n / stride g →
                exec i s = .next (p.measured.failedReleased .invalidOperand
                  (.operands (addrWidth g) (n / stride g)))))))

/-- R213, R216, R217, R221, R223, R224: a write after its checks. With `start` one erase, then every chunk of the plan in
order, each sent, polled and reported by its Progress, and the pin released: with every poll Passed it completes. A poll
that reads InProgress leaves it waiting; one that reads Failed raises FlashOperationFailed and abandons the remaining
chunks, and so does a ceiling that is reached; the pin is released. A chunk whose address or count is too large for its
field raises before its first tick. That a step makes one poll is the model's choice (log 8). -/
def Obligations.WriteFlashProgramsEveryChunk : Prop :=
  ∀ (s p m : State) (w : Word32) (g : Geometry) (data : Bytes) (address : Nat) (start : Bool)
    (plan : List (Nat × Bytes)),
    s.session = .identified → s.tap = .known .runTestIdle →
    s.AnswersOk (2 + 2 * (16 + subWidth s.params.subCapabilities + 37)) →
    (s.pinned true).LastProbe (capPosition s.params.capFlashWrite) start p w →
    hasCap w (capPosition s.params.capFlashWrite) = true →
    g = p.scannedGeometry → m = p.measured → validGeometry g = true →
    data.length % stride g = 0 → address % stride g = 0 →
    p.AnswersOk (2 * (16 + subWidth p.params.subFlashSize + 29)) →
    plan = chunkPlan g address data →
    (start = false → State.ChunksAnswered g 0 plan m →
      exec (.writeFlash data address start) s = .next (State.chunksEnd g 0 plan m))
    ∧ (start = true → m.AnswersOk (2 * (16 + subWidth m.params.subFlashErase)) →
      ∀ e, e = m.commanded (subBits m.params.subFlashErase) →
      e.PollAnswered 0 (State.ChunksAnswered g 0 plan) →
      exec (.writeFlash data address start) s =
        .next (e.pollThen 0 (.erased plan) State.failedReleased (State.chunksEnd g 0 plan)))
    ∧ ∀ c ∈ plan, ∀ e, chunkFault g c.1 c.2 = some e →
      2 ^ addrWidth g ≤ c.1 / stride g ∧ e = (.invalidOperand, .operands (addrWidth g) (c.1 / stride g))
      ∨ c.1 / stride g < 2 ^ addrWidth g ∧ 2 ^ addrWidth g ≤ c.2.length / stride g
        ∧ e = (.invalidOperand, .operands (addrWidth g) (c.2.length / stride g))

/-- R224, R305, R307: once the pin has been asserted, a read or a write that ends, in whatever way and whether at once or
in a later step after it has waited between polls, leaves it Released, or Unknown where the release itself failed, and
then the last error is that TransportError. The waiting operation is the model's (log 8). -/
def Obligations.ThePinIsReleasedOnEveryExit : Prop :=
  ∀ (s t : State), s.session = .identified → t.busy = none →
    ((∃ i, s.AnswersOk 2 ∧ exec i s = .next t
        ∧ ((∃ lo hi start, i = .readFlash lo hi start ∧ lo ≤ hi)
          ∨ ∃ data address start, i = .writeFlash data address start))
      ∨ ∃ b, s.busy = some b ∧ b.rest ≠ .done ∧ step s = .next t) →
    t.flashPin = .released
      ∨ t.flashPin = .unknown ∧ t.ended = true ∧ ∃ k, t.errors.getLast? = some ⟨.transportError, .transport k⟩

/-- R222: the chunks of a write partition its data: `ceil(L / B)` of them, chunk `k` at address `address + k * B` with the
bytes from `k * B` up to the end of its block or of the data, in order and with none left out. -/
def Obligations.ChunksPartitionTheData : Prop :=
  ∀ (g : Geometry) (address : Nat) (data : Bytes) (B L : Nat), B = blockSizeBytes g → L = data.length →
    1 ≤ B ∧ (chunkPlan g address data).length = (L + B - 1) / B
    ∧ (∀ k < (L + B - 1) / B, (chunkPlan g address data)[k]? =
        some (address + k * B, (data.drop (k * B)).take (min ((k + 1) * B) L - k * B)))
    ∧ ((chunkPlan g address data).map Prod.snd).flatten = data

/-! ### Steps -/

/-- R21: a step runs the decoded instruction of the call at the position of the program; it resumes an operation that
waits between two polls; after an error, and past the last call, there is no step. The two faults are the model's (log
17), and so is the waiting operation (log 8). -/
def Obligations.StepRunsTheDecodedInstruction : Prop :=
  ∀ s : State,
    (s.ended = true → step s = .fault .runEnded)
    ∧ (s.ended = false → s.busy = none →
      (s.program.length ≤ s.pc → step s = .fault .programComplete)
      ∧ (∀ c i, s.program[s.pc]? = some c → decode c = .ok i → step s = exec i s))
    ∧ (s.ended = false → ∀ b, s.busy = some b → step s = runUnit (resumePoll b) { s with busy := none })

/-- R11, R70, R74, R75, R84, R165: a few words of the opcode table, written out, and two entries of a program decode to
their instructions. That fewer than 8 bits are an IR value is the model's reading of the table (log 2). The two entries, a
6-bit IR value and a call of an operation by its name, are no table words: their typed form is the model's choice (log 1),
for R11 and R84 give an operation its name and arguments and no encoding. -/
def Obligations.TableWordsDecodeToTheirRows : Prop :=
  decodeTableWord 8 0b01000000 = some (.usbInfo [])
  ∧ decodeTableWord 8 0b00000000 = some (.usbReadVersion [])
  ∧ decodeTableWord 8 0b01001001 = some (.usbProg [])
  ∧ decodeTableWord 8 0b11111111 = some (.usbReset [])
  ∧ decodeTableWord 16 0b0000000101010000 = some (.usbFlashOnOff true)
  ∧ decodeTableWord 6 0b000010 = some .irUser1
  ∧ decodeTableWord 8 0b00110011 = none
  ∧ decode (.ir 0b000010) = .ok .irUser1
  ∧ decode (.named .readFlash [.nat 16, .nat 31, .bit true]) = .ok (.readFlash 16 31 true)

/-- R70, R71, R74, R75, R77, R83: decoding undoes encoding on every instruction; and every call that decodes is the
encoding of its instruction, but for a 6-bit instruction value other than USER1, which is the `shiftInstruction` of its
bits. The form of a call and the reading of other IR values are the model's (logs 1 and 2). -/
def Obligations.DecodingAndEncodingAgree : Prop :=
  (∀ i : Instr, decode (encode i) = .ok i)
  ∧ ∀ (c : Call) (i : Instr), decode c = .ok i →
    c = encode i
    ∨ ∃ code : BitVec 6, c = .ir code ∧ code ≠ 0b000010 ∧ i = .shiftInstruction (bitsOf 6 code.toNat)

/-- R23, R25, R104, R305: every step keeps this invariant: a known tracked TAP state is the device's; while it is
`Unknown`, so is the tracked instruction; a tracked instruction has six bits. -/
def Obligations.EveryStepKeepsTheTapSynchronised : Prop :=
  ∀ s t : State, Synchronised s ∧ IrForgotten s ∧ IrSized s → step s = .next t →
    Synchronised t ∧ IrForgotten t ∧ IrSized t

/-- R29, R36, R56, R190, R214, R251, R304: every step keeps this invariant: the geometry register holds a legal geometry;
every transport write of the history is followed at once by its read or that read's failure; the error log and the error
events of the history agree; an operation that waits between polls has an identified session. The waiting operation is
the model's (log 8). -/
def Obligations.EveryStepKeepsTheLogsInOrder : Prop :=
  ∀ s t : State, GeometryLegal s ∧ halfDuplex s.history = true ∧ LogAgrees s ∧ WaitsIdentified s → step s = .next t →
    GeometryLegal t ∧ halfDuplex t.history = true ∧ LogAgrees t ∧ WaitsIdentified t

/-- R21, R304, R305, R307: how a step ends, where an operation that waits has an identified session (an invariant, in
EveryStepKeepsTheLogsInOrder). Either nothing was raised, and the position advances by one or the operation waits; or one
error was raised, or two: then the second is the TransportError of the pin release, and the pin is `Unknown`. The run has
ended at its position, and a TransportError or ProtocolDesyncError has left the TAP's state and the tracked instruction
`Unknown`. The waiting operation and `result` are the model's (logs 8 and 19). -/
def Obligations.ErrorsEndTheRunWhereItStands : Prop :=
  ∀ s t : State, WaitsIdentified s → step s = .next t →
    (t.ended = false ∧ t.errors = s.errors
      ∧ (t.busy = none ∧ t.pc = s.pc + 1 ∨ t.busy ≠ none ∧ t.pc = s.pc))
    ∨ (t.ended = true ∧ t.busy = none ∧ t.pc = s.pc ∧ t.result = .none
      ∧ ∃ (first : ErrorEntry) (second : List ErrorEntry), t.errors = s.errors ++ first :: second
        ∧ (second = [] ∨ (∃ k, second = [⟨.transportError, .transport k⟩]) ∧ t.flashPin = .unknown)
        ∧ ((∃ e ∈ first :: second, e.code = .transportError ∨ e.code = .protocolDesyncError) →
          t.tap = .unknown ∧ t.lastIR = .unknown ∧ t.pendingIR = .unknown))

/-- R21, R27, R29 to R32, R35 to R39: what no step rewrites: the program, the parameters, the draws, the error log and the
history, to which a step only appends; the configuration, but for `openSession`; the session, but for `openSession`, from
Closed to Open, and `checkIdentity`, to Identified with the expected IDCODE; and each of `caps`, `geom`, `status`,
`deviceId` and `flashPin`, but for the operations that write it. The program, the parameters and the draws in State are
the model's (logs 1, 3 and 5), and so are the waiting operation (log 8) and a `configureFpga` that drives the pin (log
15). -/
def Obligations.StepsOnlyAppendToTheLogs : Prop :=
  ∀ s t : State, step s = .next t →
    t.program = s.program ∧ t.params = s.params ∧ t.script = s.script
    ∧ s.errors <+: t.errors ∧ s.history <+: t.history
    ∧ (t.cfg ≠ s.cfg → ∃ c cfg, s.fetch = some c ∧ decode c = .ok (.openSession cfg) ∧ t.cfg = cfg)
    ∧ (t.session ≠ s.session →
      (∃ c cfg, s.fetch = some c ∧ decode c = .ok (.openSession cfg) ∧ s.session = .closed ∧ t.session = .opened)
      ∨ ∃ c, s.fetch = some c ∧ decode c = .ok .checkIdentity ∧ t.session = .identified
        ∧ t.deviceId = some 0x02218093)
    ∧ (t.caps ≠ s.caps → s.MayWrite .caps)
    ∧ (t.geom ≠ s.geom → s.MayWrite .geom)
    ∧ (t.status ≠ s.status → s.MayWrite .status)
    ∧ (t.deviceId ≠ s.deviceId → s.MayWrite .deviceId)
    ∧ (t.flashPin ≠ s.flashPin → s.MayWrite .flashPin)

/-- R42: the state at session open satisfies what the two invariants require: the TAP copy, the instruction copy, the
geometry register, the half-duplex history, the two logs, and no operation waits. -/
def Obligations.ResetSatisfiesTheInvariants : Prop :=
  (Synchronised State.reset ∧ IrForgotten State.reset ∧ IrSized State.reset)
  ∧ (GeometryLegal State.reset ∧ halfDuplex State.reset.history = true ∧ LogAgrees State.reset
    ∧ WaitsIdentified State.reset)
end

