-- ==== Sys2Proof/Laws/State.lean ====
section
/-! SUPPORT. The small lemmas of the state: what each update leaves in each field, each true by unfolding once. -/

namespace Sys2Proof.Machine

variable (s : State)

/-! ### Operations: running `pure`, `get`, and a sequence -/

@[simp] theorem run_pure {α : Type} (a : α) : (pure a : Op α) s = .ok a s := rfl

@[simp] theorem run_get_bind {α : Type} (f : State → Op α) : ((get : Op State) >>= f) s = f s s := rfl

@[simp] theorem run_modify_bind {α : Type} (g : State → State) (f : PUnit → Op α) :
    ((modify g : Op PUnit) >>= f) s = f () (g s) := rfl

@[simp] theorem run_modify (g : State → State) : (modify g : Op PUnit) s = .ok () (g s) := rfl

theorem run_bind_ok {α β : Type} {x : Op α} {f : α → Op β} {a : α} {s t : State} (h : x s = .ok a t) :
    (x >>= f) s = f a t := by
  change EStateM.bind x f s = _
  simp only [EStateM.bind, h]

theorem run_bind_error {α β : Type} {x : Op α} {f : α → Op β} {e : Exit} {s t : State} (h : x s = .error e t) :
    (x >>= f) s = .error e t := by
  change EStateM.bind x f s = _
  simp only [EStateM.bind, h]

theorem run_ite {α : Type} {c : Prop} [Decidable c] (x y : Op α) :
    (if c then x else y) s = if c then x s else y s := by
  split <;> rfl

@[simp] theorem run_raise {α : Type} (code : ErrorCode) (info : ErrorInfo) :
    (raise code info : Op α) s = .error .raised (s.enterError code info) := rfl

@[simp] theorem run_record (events : List Event) :
    record events s = .ok () { s with history := s.history ++ events } := rfl

@[simp] theorem run_loseTap : loseTap s = .ok () s.lostTap := rfl

@[simp] theorem run_portTick (b tms tdi tdo : Bool) : portTick b tms tdi tdo s = .ok () (s.portTick b tms tdi tdo) :=
  rfl

@[simp] theorem run_setPending (clean : Bool) (instr : BitSeq) :
    setPending clean instr s = .ok () { s with pendingIR := if clean then .instr instr else .unknown } := rfl

@[simp] theorem run_drawAnswer :
    drawAnswer s = .ok (s.answerAt s.drawn.answers)
      { s with drawn := { s.drawn with answers := s.drawn.answers + 1 } } := rfl

@[simp] theorem run_drawTdo :
    drawTdo s = .ok (s.tdoAt s.drawn.tdo) { s with drawn := { s.drawn with tdo := s.drawn.tdo + 1 } } := rfl

/-! ### How an operation settles -/

@[simp] theorem settle_ok {α : Type} (value : α → Value) (a : α) : settle value (.ok a s) = s.completed (value a) := rfl

@[simp] theorem settle_raised {α : Type} (value : α → Value) (code : ErrorCode) (info : ErrorInfo) :
    settle value (.error .raised (s.enterError code info)) = s.failedWith code info := rfl

@[simp] theorem settle_waiting {α : Type} (value : α → Value) : settle value (.error .waiting s) = s := rfl

theorem runOp_ok {α : Type} {value : α → Value} {op : Op α} {a : α} {s t : State} (h : op s = .ok a t) :
    runOp value op s = .next (t.completed (value a)) := by
  rw [runOp, h, settle_ok]

theorem runOp_raised {α : Type} {value : α → Value} {op : Op α} {code : ErrorCode} {info : ErrorInfo} {s t : State}
    (h : op s = .error .raised (t.enterError code info)) : runOp value op s = .next (t.failedWith code info) := by
  rw [runOp, h, settle_raised]

/-! ### A completed instruction: the value, the position, nothing else -/

section completed
variable (v : Value)
@[simp] theorem completed_tap : (s.completed v).tap = s.tap := rfl
@[simp] theorem completed_devTap : (s.completed v).devTap = s.devTap := rfl
@[simp] theorem completed_lastIR : (s.completed v).lastIR = s.lastIR := rfl
@[simp] theorem completed_pendingIR : (s.completed v).pendingIR = s.pendingIR := rfl
@[simp] theorem completed_caps : (s.completed v).caps = s.caps := rfl
@[simp] theorem completed_geom : (s.completed v).geom = s.geom := rfl
@[simp] theorem completed_status : (s.completed v).status = s.status := rfl
@[simp] theorem completed_deviceId : (s.completed v).deviceId = s.deviceId := rfl
@[simp] theorem completed_cfg : (s.completed v).cfg = s.cfg := rfl
@[simp] theorem completed_flashPin : (s.completed v).flashPin = s.flashPin := rfl
@[simp] theorem completed_session : (s.completed v).session = s.session := rfl
@[simp] theorem completed_errors : (s.completed v).errors = s.errors := rfl
@[simp] theorem completed_history : (s.completed v).history = s.history := rfl
@[simp] theorem completed_program : (s.completed v).program = s.program := rfl
@[simp] theorem completed_pc : (s.completed v).pc = s.pc + 1 := rfl
@[simp] theorem completed_ended : (s.completed v).ended = s.ended := rfl
@[simp] theorem completed_busy : (s.completed v).busy = none := rfl
@[simp] theorem completed_result : (s.completed v).result = v := rfl
@[simp] theorem completed_params : (s.completed v).params = s.params := rfl
@[simp] theorem completed_script : (s.completed v).script = s.script := rfl
@[simp] theorem completed_drawn : (s.completed v).drawn = s.drawn := rfl
end completed

/-! ### Error entry (R304, R305) -/

section enterError
variable (code : ErrorCode) (info : ErrorInfo)

@[simp] theorem enterError_errors : (s.enterError code info).errors = s.errors ++ [⟨code, info⟩] := by
  cases code <;> rfl
@[simp] theorem enterError_history : (s.enterError code info).history = s.history ++ [.error code] := by
  cases code <;> rfl
@[simp] theorem enterError_caps : (s.enterError code info).caps = s.caps := by cases code <;> rfl
@[simp] theorem enterError_geom : (s.enterError code info).geom = s.geom := by cases code <;> rfl
@[simp] theorem enterError_status : (s.enterError code info).status = s.status := by cases code <;> rfl
@[simp] theorem enterError_deviceId : (s.enterError code info).deviceId = s.deviceId := by cases code <;> rfl
@[simp] theorem enterError_cfg : (s.enterError code info).cfg = s.cfg := by cases code <;> rfl
@[simp] theorem enterError_flashPin : (s.enterError code info).flashPin = s.flashPin := by cases code <;> rfl
@[simp] theorem enterError_session : (s.enterError code info).session = s.session := by cases code <;> rfl
@[simp] theorem enterError_program : (s.enterError code info).program = s.program := by cases code <;> rfl
@[simp] theorem enterError_pc : (s.enterError code info).pc = s.pc := by cases code <;> rfl
@[simp] theorem enterError_ended : (s.enterError code info).ended = s.ended := by cases code <;> rfl
@[simp] theorem enterError_busy : (s.enterError code info).busy = s.busy := by cases code <;> rfl
@[simp] theorem enterError_result : (s.enterError code info).result = s.result := by cases code <;> rfl
@[simp] theorem enterError_params : (s.enterError code info).params = s.params := by cases code <;> rfl
@[simp] theorem enterError_script : (s.enterError code info).script = s.script := by cases code <;> rfl

@[simp] theorem enterError_transport_tap : (s.enterError .transportError info).tap = .unknown := rfl
@[simp] theorem enterError_transport_lastIR : (s.enterError .transportError info).lastIR = .unknown := rfl
@[simp] theorem enterError_transport_pendingIR : (s.enterError .transportError info).pendingIR = .unknown := rfl
@[simp] theorem enterError_desync_tap : (s.enterError .protocolDesyncError info).tap = .unknown := rfl
@[simp] theorem enterError_desync_devTap : (s.enterError .protocolDesyncError info).devTap = s.devTap := rfl
@[simp] theorem enterError_desync_lastIR : (s.enterError .protocolDesyncError info).lastIR = .unknown := rfl
@[simp] theorem enterError_desync_pendingIR : (s.enterError .protocolDesyncError info).pendingIR = .unknown := rfl

/-- Every other error leaves the TAP, the tracked instruction and the draws as they are (R305). -/
theorem enterError_plain (h : code ≠ .transportError) (h' : code ≠ .protocolDesyncError) :
    s.enterError code info = { s with errors := s.errors ++ [⟨code, info⟩], history := s.history ++ [.error code] } := by
  cases code <;> first | rfl | contradiction
end enterError

/-! ### One tick at the port (R101) -/

section portTick
variable (b tms tdi tdo : Bool)
@[simp] theorem portTick_tap : (s.portTick b tms tdi tdo).tap = nextTracked s.tap tms := rfl
@[simp] theorem portTick_devTap : (s.portTick b tms tdi tdo).devTap = next s.devTap tms := rfl
@[simp] theorem portTick_history : (s.portTick b tms tdi tdo).history = s.history ++ [.tick tms tdi tdo s.tap] := rfl
@[simp] theorem portTick_lastIR : (s.portTick b tms tdi tdo).lastIR =
    (updateIR b s.tap (nextTracked s.tap tms) s.lastIR s.pendingIR).1 := rfl
@[simp] theorem portTick_pendingIR : (s.portTick b tms tdi tdo).pendingIR =
    (updateIR b s.tap (nextTracked s.tap tms) s.lastIR s.pendingIR).2 := rfl
@[simp] theorem portTick_caps : (s.portTick b tms tdi tdo).caps = s.caps := rfl
@[simp] theorem portTick_geom : (s.portTick b tms tdi tdo).geom = s.geom := rfl
@[simp] theorem portTick_errors : (s.portTick b tms tdi tdo).errors = s.errors := rfl
@[simp] theorem portTick_session : (s.portTick b tms tdi tdo).session = s.session := rfl
@[simp] theorem portTick_flashPin : (s.portTick b tms tdi tdo).flashPin = s.flashPin := rfl
@[simp] theorem portTick_drawn : (s.portTick b tms tdi tdo).drawn = s.drawn := rfl
@[simp] theorem portTick_script : (s.portTick b tms tdi tdo).script = s.script := rfl
@[simp] theorem portTick_params : (s.portTick b tms tdi tdo).params = s.params := rfl
end portTick

/-! ### A run of ticks (R101) -/

section ticked
variable (ticks : List (Bool × Bool)) (ir : IrCopy × PendingIr)
@[simp] theorem ticked_tap : (s.ticked ticks ir).tap = walkTracked s.tap (ticks.map Prod.fst) := rfl
@[simp] theorem ticked_devTap : (s.ticked ticks ir).devTap = walk s.devTap (ticks.map Prod.fst) := rfl
@[simp] theorem ticked_lastIR : (s.ticked ticks ir).lastIR = ir.1 := rfl
@[simp] theorem ticked_pendingIR : (s.ticked ticks ir).pendingIR = ir.2 := rfl
@[simp] theorem ticked_history : (s.ticked ticks ir).history =
    s.history ++ tickEvents s.tap ticks (s.tdos 0 ticks.length) := rfl
@[simp] theorem ticked_caps : (s.ticked ticks ir).caps = s.caps := rfl
@[simp] theorem ticked_geom : (s.ticked ticks ir).geom = s.geom := rfl
@[simp] theorem ticked_status : (s.ticked ticks ir).status = s.status := rfl
@[simp] theorem ticked_deviceId : (s.ticked ticks ir).deviceId = s.deviceId := rfl
@[simp] theorem ticked_cfg : (s.ticked ticks ir).cfg = s.cfg := rfl
@[simp] theorem ticked_flashPin : (s.ticked ticks ir).flashPin = s.flashPin := rfl
@[simp] theorem ticked_session : (s.ticked ticks ir).session = s.session := rfl
@[simp] theorem ticked_errors : (s.ticked ticks ir).errors = s.errors := rfl
@[simp] theorem ticked_program : (s.ticked ticks ir).program = s.program := rfl
@[simp] theorem ticked_pc : (s.ticked ticks ir).pc = s.pc := rfl
@[simp] theorem ticked_ended : (s.ticked ticks ir).ended = s.ended := rfl
@[simp] theorem ticked_busy : (s.ticked ticks ir).busy = s.busy := rfl
@[simp] theorem ticked_result : (s.ticked ticks ir).result = s.result := rfl
@[simp] theorem ticked_params : (s.ticked ticks ir).params = s.params := rfl
@[simp] theorem ticked_script : (s.ticked ticks ir).script = s.script := rfl
@[simp] theorem ticked_drawn_answers : (s.ticked ticks ir).drawn.answers = s.drawn.answers + 2 * ticks.length := rfl
@[simp] theorem ticked_drawn_tdo : (s.ticked ticks ir).drawn.tdo = s.drawn.tdo + ticks.length := rfl
@[simp] theorem ticked_drawn_devTaps : (s.ticked ticks ir).drawn.devTaps = s.drawn.devTaps := rfl
end ticked

/-! ### Draws do not depend on anything but the script -/

theorem answerAt_congr {s t : State} (h : t.script = s.script) (k : Nat) : t.answerAt k = s.answerAt k := by
  simp only [State.answerAt, h]

theorem tdoAt_congr {s t : State} (h : t.script = s.script) (k : Nat) : t.tdoAt k = s.tdoAt k := by
  simp only [State.tdoAt, h]

@[simp] theorem tdos_length (k n : Nat) : (s.tdos k n).length = n := by
  simp [State.tdos]

/-! ### Runs -/

theorem core_run_next {M : Host.Core} {n : Nat} {s t : M.State} (h : M.step s = .next t) :
    M.run (n + 1) s = M.run n t := by
  simp only [Host.Core.run, h]

/-- A run whose first step answers a next state goes on from it. -/
theorem run_next {n : Nat} {s t : State} (h : step s = .next t) :
    Sys2Proof.core.run (n + 1) s = Sys2Proof.core.run n t :=
  core_run_next (M := Sys2Proof.core) h

end Sys2Proof.Machine
end

