-- ==== Sys2Proof/Laws/Codec.lean ====
section
/-! SUPPORT. The codec functions bit by bit (R140 to R152). -/

namespace Sys2Proof.Machine

/-! ### Integers and bits -/

@[simp] theorem bitsOf_length (count value : Nat) : (bitsOf count value).length = count := by
  simp [bitsOf]

theorem bitsOf_getElem? {count value i : Nat} (h : i < count) : (bitsOf count value)[i]? = some (value.testBit i) := by
  simp [bitsOf, h]

theorem bitsOf_getD (count value i : Nat) :
    (bitsOf count value).getD i false = (decide (i < count) && value.testBit i) := by
  by_cases h : i < count <;> simp [bitsOf, h, List.getD_eq_getElem?_getD]

@[simp] theorem toInt_nil : toInt [] = 0 := rfl

@[simp] theorem toInt_cons (b : Bool) (seq : BitSeq) : toInt (b :: seq) = b.toNat + 2 * toInt seq := rfl

theorem toInt_testBit (seq : BitSeq) (i : Nat) : (toInt seq).testBit i = seq.getD i false := by
  induction seq generalizing i with
  | nil => simp
  | cons b seq ih =>
    cases i with
    | zero => cases b <;> simp [Nat.testBit_zero]
    | succ i =>
      rw [toInt_cons, Nat.testBit_succ, show (b.toNat + 2 * toInt seq) / 2 = toInt seq by cases b <;> simp <;> omega, ih]
      rfl

theorem toInt_lt (seq : BitSeq) : toInt seq < 2 ^ seq.length := by
  induction seq with
  | nil => simp
  | cons b seq ih => cases b <;> simp [Nat.pow_succ] <;> omega

/-! ### Bytes -/

theorem toBytes_length (seq : BitSeq) : (toBytes seq).length = (seq.length + 7) / 8 := by
  simp [toBytes]

theorem packedByte_bit (seq : BitSeq) (j k : Nat) :
    (packedByte seq j).getLsbD k = (decide (k < 8) && seq.getD (8 * j + k) false) := by
  rw [packedByte, BitVec.getLsbD_ofNat, toInt_testBit]
  by_cases h : k < 8 <;> simp [h, List.getD_eq_getElem?_getD]

theorem toBytes_getElem? {seq : BitSeq} {j : Nat} (h : j < (seq.length + 7) / 8) :
    (toBytes seq)[j]? = some (packedByte seq j) := by
  simp [toBytes, h]

theorem bitsOfBytes_getElem? {bytes : Bytes} {count i : Nat} (h : i < count) :
    (bitsOfBytes bytes count)[i]? = some ((bytes.getD (i / 8) 0).getLsbD (i % 8)) := by
  simp [bitsOfBytes, h]

/-! ### Reversal -/

/-- The nibble table gives the 8-bit mirror (R146). -/
theorem reverse_bit : ∀ (b : Byte) (k : Fin 8), (reverse b).getLsbD k = b.getLsbD (7 - k) := by
  decide +kernel

theorem payloadBits_length (bytes : Bytes) : (payloadBits bytes).length = 8 * bytes.length := by
  simp [payloadBits, bitsOfBytes]

/-- Every payload byte is serialised from its bit 7 down (R149). -/
theorem payloadBits_getElem? {bytes : Bytes} {j k : Nat} (hj : j < bytes.length) (hk : k < 8) :
    (payloadBits bytes)[8 * j + k]? = some ((bytes.getD j 0).getLsbD (7 - k)) := by
  rw [payloadBits, bitsOfBytes_getElem? (by omega)]
  have e1 : (8 * j + k) / 8 = j := by omega
  have e2 : (8 * j + k) % 8 = k := by omega
  rw [e1, e2]
  simp only [List.getD_eq_getElem?_getD, List.getElem?_map, List.getElem?_eq_getElem hj, Option.map_some,
    Option.getD_some]
  exact congrArg some (reverse_bit _ ⟨k, hk⟩)

theorem payloadBytesOf_length (bits : BitSeq) : (payloadBytesOf bits).length = (bits.length + 7) / 8 := by
  simp [payloadBytesOf, toBytes_length]

/-- The first of every eight TDO bits is bit 7 of its byte (R150). -/
theorem payloadBytesOf_bit {bits : BitSeq} {j k : Nat} (hj : j < (bits.length + 7) / 8) (hk : k < 8) :
    ((payloadBytesOf bits).getD j 0).getLsbD (7 - k) = bits.getD (8 * j + k) false := by
  rw [payloadBytesOf, List.getD_eq_getElem?_getD, List.getElem?_map, toBytes_getElem? hj]
  have := reverse_bit (packedByte bits j) ⟨7 - k, by omega⟩
  simp only [Option.map_some, Option.getD_some]
  rw [show (7 - k) = ((⟨7 - k, by omega⟩ : Fin 8) : Nat) from rfl, this, packedByte_bit]
  rw [show 7 - ((⟨7 - k, by omega⟩ : Fin 8) : Nat) = k by simp; omega]
  simp [hk]

/-! ### Words -/

@[simp] theorem irBits_length (code : BitVec 6) : (irBits code).length = 6 := by
  simp [irBits, Config.irWidth]

@[simp] theorem user1_length : user1.length = 6 := irBits_length _

@[simp] theorem subBits_length (sub : SubCode) : (subBits sub).length = subWidth sub := by
  cases sub <;> simp [subBits, subWidth]

theorem subWidth_pos (sub : SubCode) : 0 < subWidth sub := by
  cases sub <;> simp [subWidth]

theorem subBits_ne_nil (sub : SubCode) : subBits sub ≠ [] := by
  intro h
  have := congrArg List.length h
  rw [subBits_length] at this
  exact absurd this (Nat.ne_of_gt (subWidth_pos sub))

end Sys2Proof.Machine
end

