-- ==== Sys2Proof/Laws/Ticks.lean ====
section
/-! SUPPORT. What the tick operations do when the transport answers: `tickIn`, `goto` and `shiftBits` as runs of ticks. -/

namespace Sys2Proof.Machine

variable {s t : State}

/-! ### Hypotheses on the answers -/

theorem answersOk_mono {m n : Nat} (h : s.AnswersOk n) (hm : m ≤ n) : s.AnswersOk m :=
  fun k hk => h k (by omega)

/-- After `m` answers have been drawn, the next `n` succeed if the next `m + n` did before. -/
theorem answersOk_later {m n : Nat} (hs : t.script = s.script) (hd : t.drawn.answers = s.drawn.answers + m)
    (h : s.AnswersOk (m + n)) : t.AnswersOk n := by
  intro k hk
  rw [answerAt_congr hs, hd, Nat.add_assoc]
  exact h (m + k) (by omega)

theorem answersOk_ticked {ticks : List (Bool × Bool)} {ir : IrCopy × PendingIr} {n : Nat}
    (h : s.AnswersOk (2 * ticks.length + n)) : (s.ticked ticks ir).AnswersOk n :=
  answersOk_later (s := s) (m := 2 * ticks.length) rfl rfl h

/-- A transport call that succeeds answers with bytes. -/
theorem answer_eq_ok {k : Nat} (h : answered (s.answerAt k) = true) :
    s.answerAt k = .ok (answerBytes (s.answerAt k)) := by
  cases hk : s.answerAt k with
  | ok bytes => rfl
  | fail kind => simp [hk, answered] at h

/-! ### Transport calls -/

/-- A state with one more answer drawn. -/
abbrev State.drewAnswers (s : State) (n : Nat) : State :=
  { s with drawn := { s.drawn with answers := s.drawn.answers + n } }

theorem usbWrite_ok {pin : Bool} {bytes : Bytes} (h : answered (s.answerAt s.drawn.answers) = true) :
    usbWrite pin bytes s = .ok () (s.drewAnswers 1) := by
  have h' := answer_eq_ok h
  rw [usbWrite, run_bind_ok (run_drawAnswer s), h']
  rfl

theorem usbWrite_fail {pin : Bool} {bytes : Bytes} {k : FailKind} (h : s.answerAt s.drawn.answers = .fail k) :
    usbWrite pin bytes s = raiseTransport pin (writeKind k) (s.drewAnswers 1) := by
  rw [usbWrite, run_bind_ok (run_drawAnswer s), h]

theorem tryRead_ok {maxlen : Nat} (h : answered (s.answerAt s.drawn.answers) = true) :
    tryRead maxlen s = .ok (.ok ((answerBytes (s.answerAt s.drawn.answers)).take maxlen)) (s.drewAnswers 1) := by
  rw [tryRead, run_bind_ok (run_drawAnswer s), answer_eq_ok h]
  rfl

theorem tryRead_fail {maxlen : Nat} {k : FailKind} (h : s.answerAt s.drawn.answers = .fail k) :
    tryRead maxlen s = .ok (.error (readKind k)) (s.drewAnswers 1) := by
  rw [tryRead, run_bind_ok (run_drawAnswer s), h]
  rfl

theorem usbRead_ok {pin : Bool} {maxlen : Nat} (h : answered (s.answerAt s.drawn.answers) = true) :
    usbRead pin maxlen s = .ok ((answerBytes (s.answerAt s.drawn.answers)).take maxlen) (s.drewAnswers 1) := by
  rw [usbRead, run_bind_ok (tryRead_ok h)]
  rfl

theorem usbRead_fail {pin : Bool} {maxlen : Nat} {k : FailKind} (h : s.answerAt s.drawn.answers = .fail k) :
    usbRead pin maxlen s = raiseTransport pin (readKind k) (s.drewAnswers 1) := by
  rw [usbRead, run_bind_ok (tryRead_fail h)]

/-! ### Lists of ticks -/

theorem walk_append (a : TapState) (xs ys : BitSeq) : walk a (xs ++ ys) = walk (walk a xs) ys :=
  List.foldl_append ..

theorem walkTracked_append (a : Tracked) (xs ys : BitSeq) :
    walkTracked a (xs ++ ys) = walkTracked (walkTracked a xs) ys :=
  List.foldl_append ..

@[simp] theorem walkTracked_known (t : TapState) (xs : BitSeq) : walkTracked (.known t) xs = .known (walk t xs) := by
  induction xs generalizing t with
  | nil => rfl
  | cons x xs ih => exact ih (next t x)

@[simp] theorem walkTracked_unknown (xs : BitSeq) : walkTracked .unknown xs = .unknown := by
  induction xs with
  | nil => rfl
  | cons x xs ih => exact ih

theorem tdos_eq_append (k m n : Nat) : s.tdos k (m + n) = s.tdos k m ++ s.tdos (k + m) n := by
  simp [State.tdos, List.range_add, Nat.add_assoc]

theorem tdos_ticked (ticks : List (Bool × Bool)) (ir : IrCopy × PendingIr) (k n : Nat) :
    (s.ticked ticks ir).tdos k n = s.tdos (ticks.length + k) n := by
  simp only [State.tdos, ticked_drawn_tdo, tdoAt_congr (ticked_script s ticks ir), Nat.add_assoc]

theorem tickEvents_append (tap : Tracked) (xs ys : List (Bool × Bool)) (as bs : BitSeq) (h : as.length = xs.length) :
    tickEvents tap (xs ++ ys) (as ++ bs) =
      tickEvents tap xs as ++ tickEvents (walkTracked tap (xs.map Prod.fst)) ys bs := by
  induction xs generalizing tap as with
  | nil => cases as <;> simp_all [tickEvents, walkTracked]
  | cons x xs ih =>
    cases as with
    | nil => simp at h
    | cons a as => simp only [List.cons_append, tickEvents, ih _ as (by simpa using h), List.map_cons]; rfl

theorem ticked_ticked (xs ys : List (Bool × Bool)) (ir ir' : IrCopy × PendingIr) :
    (s.ticked xs ir).ticked ys ir' = s.ticked (xs ++ ys) ir' := by
  have ht : s.tdos 0 (xs ++ ys).length = s.tdos 0 xs.length ++ s.tdos xs.length ys.length := by
    rw [List.length_append, tdos_eq_append, Nat.zero_add]
  have h2 : (s.ticked xs ir).tdos 0 ys.length = s.tdos xs.length ys.length := by
    rw [tdos_ticked, Nat.add_zero]
  have e1 : walkTracked (walkTracked s.tap (xs.map Prod.fst)) (ys.map Prod.fst) =
      walkTracked s.tap ((xs ++ ys).map Prod.fst) := by rw [List.map_append, walkTracked_append]
  have e2 : walk (walk s.devTap (xs.map Prod.fst)) (ys.map Prod.fst) =
      walk s.devTap ((xs ++ ys).map Prod.fst) := by rw [List.map_append, walk_append]
  have e3 : s.history ++ tickEvents s.tap xs (s.tdos 0 xs.length)
        ++ tickEvents (walkTracked s.tap (xs.map Prod.fst)) ys (s.tdos xs.length ys.length)
      = s.history ++ tickEvents s.tap (xs ++ ys) (s.tdos 0 (xs ++ ys).length) := by
    rw [ht, tickEvents_append _ _ _ _ _ (tdos_length s 0 _), List.append_assoc]
  have e4 : s.drawn.answers + 2 * xs.length + 2 * ys.length = s.drawn.answers + 2 * (xs ++ ys).length := by
    rw [List.length_append]; omega
  have e5 : s.drawn.tdo + xs.length + ys.length = s.drawn.tdo + (xs ++ ys).length := by
    rw [List.length_append]; omega
  rw [State.ticked, h2]
  simp only [State.ticked, e1, e2, e3, e4, e5]

theorem trackIR_append (b : Bool) (tap : Tracked) (xs ys : BitSeq) (ir : IrCopy × PendingIr) :
    trackIR b tap (xs ++ ys) ir = trackIR b (walkTracked tap xs) ys (trackIR b tap xs ir) := by
  induction xs generalizing tap ir with
  | nil => rfl
  | cons x xs ih => exact ih _ _

/-! ### Ticks -/

/-- One tick that the transport carries (R101). -/
theorem tickIn_ok {b tms tdi : Bool} (h : s.AnswersOk 2) :
    tickIn b tms tdi s = .ok (s.tdoAt s.drawn.tdo)
      (s.ticked [(tms, tdi)] (trackIR b s.tap [tms] (s.lastIR, s.pendingIR))) := by
  have h0 := h 0 (by omega)
  have h1 : answered ((s.drewAnswers 1).answerAt (s.drewAnswers 1).drawn.answers) = true := by
    rw [answerAt_congr (t := s.drewAnswers 1) (s := s) rfl]
    exact h 1 (by omega)
  rw [tickIn, run_bind_ok (usbWrite_ok h0), run_get_bind, run_bind_ok (usbRead_ok h1),
    run_bind_ok (run_drawTdo _), run_bind_ok (run_portTick ..)]
  simp only [State.portTick, State.ticked, trackIR, walk, walkTracked, State.tdos, tickEvents,
    List.map_cons, List.map_nil, List.foldl_cons, List.foldl_nil, List.length_cons, List.length_nil, List.range_succ,
    List.range_zero, List.nil_append, Nat.add_zero, run_pure, State.tdoAt]

theorem ticked_nil : s.ticked [] (s.lastIR, s.pendingIR) = s := by
  simp [State.ticked, walk, walkTracked, tickEvents]

/-- `goto(seq)` as a run of ticks (R105). -/
theorem goto_ok {seq : BitSeq} (h : s.AnswersOk (2 * seq.length)) :
    goto seq s = .ok () (s.ticked (pathTicks seq) (trackIR false s.tap seq (s.lastIR, s.pendingIR))) := by
  induction seq generalizing s with
  | nil => simp only [goto, run_pure, pathTicks, List.map_nil, trackIR, ticked_nil]
  | cons tms more ih =>
    have h2 : s.AnswersOk 2 := answersOk_mono h (by simp +arith)
    have hr : (s.ticked [(tms, false)] (trackIR false s.tap [tms] (s.lastIR, s.pendingIR))).AnswersOk
        (2 * more.length) := answersOk_ticked (answersOk_mono h (by simp +arith))
    rw [goto, tick, run_bind_ok (tickIn_ok h2), ih hr, ticked_ticked]
    rfl

@[simp] theorem pathTicks_tms (seq : BitSeq) : (pathTicks seq).map Prod.fst = seq := by
  simp [pathTicks, Function.comp_def]

@[simp] theorem pathTicks_length (seq : BitSeq) : (pathTicks seq).length = seq.length := by
  simp [pathTicks]

/-! ### Shifted operands -/

@[simp] theorem operandTicks_nil : operandTicks [] = [] := rfl

@[simp] theorem operandTicks_single (b : Bool) : operandTicks [b] = [(true, b)] := rfl

@[simp] theorem operandTicks_cons (b c : Bool) (more : BitSeq) :
    operandTicks (b :: c :: more) = (false, b) :: operandTicks (c :: more) := by
  have key : ∀ (l : BitSeq) (k n : Nat), (l.zipIdx (k + 1)).map (fun x => (decide (x.2 + 1 = n + 1), x.1)) =
      (l.zipIdx k).map (fun x => (decide (x.2 + 1 = n), x.1)) := by
    intro l
    induction l with
    | nil => intros; rfl
    | cons x l ih => intro k n; simp only [List.zipIdx_cons, List.map_cons, ih]; simp
  unfold operandTicks
  rw [List.zipIdx_cons, List.map_cons, List.length_cons, key]
  simp

@[simp] theorem operandTicks_length (bits : BitSeq) : (operandTicks bits).length = bits.length := by
  simp [operandTicks]

/-- The marked-bit rule of the bulk frames is the marked-bit rule of the operands (R107, R173). -/
theorem bulkTicks_marked (bits : BitSeq) : bulkTicks bits true = operandTicks bits := by
  match bits with
  | [] => rfl
  | [b] => rfl
  | b :: c :: more => rw [bulkTicks, operandTicks_cons, bulkTicks_marked (c :: more)]

@[simp] theorem bulkTicks_length (bits : BitSeq) (marked : Bool) : (bulkTicks bits marked).length = bits.length := by
  match bits with
  | [] => rfl
  | [b] => rfl
  | b :: c :: more => rw [bulkTicks, List.length_cons, bulkTicks_length (c :: more) marked]; rfl

/-- The TMS bits of a shifted operand. -/
theorem operandTicks_tms {bits : BitSeq} (h : bits ≠ []) :
    (operandTicks bits).map Prod.fst = List.replicate (bits.length - 1) false ++ [true] := by
  match bits, h with
  | [b], _ => rfl
  | b :: c :: more, _ =>
    rw [operandTicks_cons, List.map_cons, operandTicks_tms (bits := c :: more) (by simp)]
    simp [List.replicate_succ]

/-- `shiftBits` as a run of ticks, with the TDO bits it returns (R107, R109). -/
theorem shiftBits_ok {s : State} {b : Bool} {bits : BitSeq} (h : s.AnswersOk (2 * bits.length)) :
    shiftBits b bits s = .ok (s.tdos 0 bits.length)
      (s.ticked (operandTicks bits)
        (trackIR b s.tap ((operandTicks bits).map Prod.fst) (s.lastIR, s.pendingIR))) := by
  match bits, h with
  | [], _ => simp only [shiftBits, run_pure, operandTicks_nil, List.map_nil, trackIR, ticked_nil]; rfl
  | [x], h =>
    rw [shiftBits, run_bind_ok (tickIn_ok (answersOk_mono h (by simp))), operandTicks_single]
    simp [State.tdos]
  | x :: y :: more, h =>
    have h2 : s.AnswersOk 2 := answersOk_mono h (by simp +arith)
    have hr : (s.ticked [(false, x)] (trackIR b s.tap [false] (s.lastIR, s.pendingIR))).AnswersOk
        (2 * (y :: more).length) := answersOk_ticked (answersOk_mono h (by simp +arith))
    rw [shiftBits, run_bind_ok (tickIn_ok h2), run_bind_ok (shiftBits_ok (bits := y :: more) hr), run_pure,
      ticked_ticked, tdos_ticked, operandTicks_cons]
    have e : s.tdos 0 (x :: y :: more).length = s.tdoAt s.drawn.tdo :: s.tdos 1 (y :: more).length := by
      rw [List.length_cons, Nat.add_comm, tdos_eq_append]
      simp [State.tdos]
    rw [e]
    rfl

/-! ### The tracked instruction over a run of ticks -/

/-- Ticks of a DR operand leave the tracked instruction as it is. -/
theorem trackIR_shiftDr {bits : BitSeq} (h : bits ≠ []) (b : Bool) (ir : IrCopy × PendingIr) :
    trackIR b (.known .shiftDr) ((operandTicks bits).map Prod.fst) ir = ir := by
  rw [operandTicks_tms h]
  generalize bits.length - 1 = n
  induction n with
  | zero => rfl
  | succ n ih => exact ih

/-- Ticks of `shiftInstruction` leave the tracked instruction as it is until it has finished. -/
theorem trackIR_shiftIr {bits : BitSeq} (h : bits ≠ []) (ir : IrCopy × PendingIr) :
    trackIR true (.known .shiftIr) ((operandTicks bits).map Prod.fst) ir = ir := by
  rw [operandTicks_tms h]
  generalize bits.length - 1 = n
  induction n with
  | zero => rfl
  | succ n ih => exact ih

theorem walk_operand_shiftDr {bits : BitSeq} (h : bits ≠ []) :
    walk .shiftDr ((operandTicks bits).map Prod.fst) = .exit1Dr := by
  rw [operandTicks_tms h]
  generalize bits.length - 1 = n
  induction n with
  | zero => rfl
  | succ n ih => exact ih

theorem walk_operand_shiftIr {bits : BitSeq} (h : bits ≠ []) :
    walk .shiftIr ((operandTicks bits).map Prod.fst) = .exit1Ir := by
  rw [operandTicks_tms h]
  generalize bits.length - 1 = n
  induction n with
  | zero => rfl
  | succ n ih => exact ih

end Sys2Proof.Machine
end

