-- ==== Sys2Proof/Laws/Scans.lean ====
section
/-! SUPPORT. What the TAP operations do: each of `assertState`, `gotoState`, the shifts, `reset` and the composite scans, once,
as a run of ticks where the transport answers, and as an error where a precondition fails (R105 to R113). -/

namespace Sys2Proof.Machine

variable {s : State}

/-! ### Checks -/

theorem assertState_ok {e : TapState} (h : s.tap = .known e) : assertState e s = .ok () s := by
  rw [assertState, run_get_bind, if_pos h]
  rfl

theorem assertState_raises {e : TapState} (h : s.tap ≠ .known e) :
    assertState e s = .error .raised (s.enterError .protocolDesyncError (.tapMismatch e s.tap)) := by
  rw [assertState, run_get_bind, if_neg h]
  rfl

/-! ### Paths -/

/-- Every table path of R106 leads where it should. -/
theorem walk_path (a b : TapState) : walk a (path a b) = b := by
  cases a <;> cases b <;> decide

theorem gotoState_ok {t target : TapState} (ht : s.tap = .known t) (h : s.AnswersOk (2 * (path t target).length)) :
    gotoState target s = .ok () (s.ticked (pathTicks (path t target))
      (trackIR false s.tap (path t target) (s.lastIR, s.pendingIR))) := by
  rw [gotoState, run_get_bind, ht]
  refine (run_bind_ok (goto_ok h)).trans ?_
  rw [assertState_ok]
  · rw [ht]
  · rw [ticked_tap, ht, walkTracked_known, pathTicks_tms, walk_path]

theorem gotoState_raises {target : TapState} (ht : s.tap = .unknown) :
    gotoState target s = .error .raised (s.enterError .protocolDesyncError (.tapMismatch target .unknown)) := by
  rw [gotoState, run_get_bind, ht]
  rfl

/-! ### Shifts -/

theorem operand_ne_nil {bits : BitSeq} {n : Nat} (h : bits.length = n + 1) : bits ≠ [] := by
  rintro rfl
  simp at h

theorem shiftInstruction_ok {instr : BitSeq} (ht : s.tap = .known .shiftIr) (hl : instr.length = 6)
    (h : s.AnswersOk 12) :
    shiftInstruction instr s = .ok () (s.ticked (operandTicks instr)
      (s.lastIR, if s.pendingIR = .clean then .instr instr else .unknown)) := by
  rw [shiftInstruction, run_get_bind, if_neg (by simp [ht]), if_neg (by simp [hl, Config.irWidth]),
    run_bind_ok (shiftBits_ok (by simpa [hl] using h)), ht, trackIR_shiftIr (operand_ne_nil hl)]
  simp [State.ticked]

theorem shiftInstruction_tap_raises {instr : BitSeq} (ht : s.tap ≠ .known .shiftIr) :
    shiftInstruction instr s = .error .raised (s.enterError .protocolDesyncError (.tapMismatch .shiftIr s.tap)) := by
  rw [shiftInstruction, run_get_bind, if_pos ht]
  rfl

theorem shiftInstruction_length_raises {instr : BitSeq} (ht : s.tap = .known .shiftIr) (hl : instr.length ≠ 6) :
    shiftInstruction instr s = .error .raised (s.enterError .invalidOperand (.operand instr.length)) := by
  rw [shiftInstruction, run_get_bind, if_neg (by simp [ht]), if_pos (by simpa [Config.irWidth] using hl)]
  rfl

theorem shiftData_ok {bits : BitSeq} {receive : Bool} (ht : s.tap = .known .shiftDr) (hb : bits ≠ [])
    (h : s.AnswersOk (2 * bits.length)) :
    shiftData bits receive s = .ok (if receive then s.tdos 0 bits.length else [])
      (s.ticked (operandTicks bits) (s.lastIR, s.pendingIR)) := by
  rw [shiftData, run_get_bind, if_neg (by simp [ht]), if_neg (by simpa using hb), run_bind_ok (shiftBits_ok h), ht,
    trackIR_shiftDr hb]
  rfl

theorem shiftData_tap_raises {bits : BitSeq} {receive : Bool} (ht : s.tap ≠ .known .shiftDr) :
    shiftData bits receive s = .error .raised (s.enterError .protocolDesyncError (.tapMismatch .shiftDr s.tap)) := by
  rw [shiftData, run_get_bind, if_pos ht]
  rfl

theorem shiftData_empty_raises {receive : Bool} (ht : s.tap = .known .shiftDr) :
    shiftData [] receive s = .error .raised (s.enterError .invalidOperand (.operand 0)) := by
  rw [shiftData, run_get_bind, if_neg (by simp [ht])]
  rfl

/-! ### Reset -/

/-- Five ticks with `tms = 1` reach Test-Logic-Reset (R115). -/
theorem walk_five_ones (t : TapState) : walk t (List.replicate 5 true) = .testLogicReset := by
  cases t <;> rfl

/-- The state after `reset()` (R110). -/
def State.tapResetDone (s : State) : State :=
  { s.ticked (pathTicks [true, true, true, true, true, false]) (.unknown, .unknown) with
    tap := .known .runTestIdle
    history := s.history ++ tickEvents s.tap (pathTicks [true, true, true, true, true]) (s.tdos 0 5)
      ++ [.tick false false (s.tdoAt (s.drawn.tdo + 5)) (.known .testLogicReset)] }

theorem run_enterTestLogicReset :
    enterTestLogicReset s =
      .ok () { s with tap := .known .testLogicReset, lastIR := .unknown, pendingIR := .unknown } := rfl

theorem tapReset_ok (h : s.AnswersOk 12) : tapReset s = .ok () s.tapResetDone := by
  have h5 : s.AnswersOk (2 * (List.replicate Config.resetOnes true).length) := answersOk_mono h (by decide)
  have h1 := answersOk_ticked (n := 2) (ticks := pathTicks (List.replicate Config.resetOnes true))
    (ir := trackIR false s.tap (List.replicate Config.resetOnes true) (s.lastIR, s.pendingIR)) h
  rw [tapReset, run_bind_ok (goto_ok h5)]
  refine (run_bind_ok run_enterTestLogicReset).trans ?_
  refine (run_bind_ok (tickIn_ok (answersOk_later (m := 0) ?_ ?_ (by simpa using h1)))).trans ?_
  · rfl
  · rfl
  · have hd : walk s.devTap [true, true, true, true, true] = .testLogicReset := walk_five_ones s.devTap
    simp only [run_pure, State.tapResetDone, State.ticked, Config.resetOnes, pathTicks, List.replicate, List.map_cons,
      List.map_nil, List.length_cons, List.length_nil, State.tdos, trackIR, updateIR, List.range_succ,
      List.range_zero]
    simp [walkTracked, walk, tickEvents, State.tdoAt, nextTracked, next, List.append_assoc]

/-! ### Composite scans -/

theorem loadTicks_length (instr data : BitSeq) (hl : instr.length = 6) :
    (loadTicks instr data).length = 16 + (dwellTicks data).length := by
  simp [loadTicks, hl]
  omega

/-- The data ticks of `loadInstructionThenData`, and what they return (R112). -/
theorem loadData_ok {data : BitSeq} {receive : Bool} (ht : s.tap = .known .shiftDr)
    (h : s.AnswersOk (2 * (dwellTicks data).length)) :
    loadData data receive s =
      .ok (if receive then s.tdos 0 data.length else []) (s.ticked (dwellTicks data) (s.lastIR, s.pendingIR)) := by
  by_cases hd : data = []
  · subst hd
    refine (run_bind_ok (tickIn_ok h)).trans ?_
    rw [ht]
    cases receive <;> rfl
  · rw [loadData, if_neg hd, dwellTicks, if_neg hd]
    exact shiftData_ok ht hd (by simpa [dwellTicks, hd] using h)

theorem walk_dwell (data : BitSeq) : walk .shiftDr ((dwellTicks data).map Prod.fst) = .exit1Dr := by
  by_cases hd : data = []
  · subst hd; rfl
  · rw [dwellTicks, if_neg hd, walk_operand_shiftDr hd]

theorem loadInstructionThenData_ok {instr data : BitSeq} {receive : Bool} (ht : s.tap = .known .runTestIdle)
    (hl : instr.length = 6) (h : s.AnswersOk (2 * (loadTicks instr data).length)) :
    loadInstructionThenData instr data receive s =
      .ok (if receive then s.tdos 14 data.length else [])
        (s.ticked (loadTicks instr data) (.instr instr, .instr instr)) := by
  rw [loadTicks_length _ _ hl] at h
  have g1 : goto [true, true, false, false] s =
      .ok () (s.ticked (pathTicks [true, true, false, false]) (s.lastIR, .clean)) := by
    rw [goto_ok (answersOk_mono h (by simp +arith)), ht]
    rfl
  generalize hs1 : s.ticked (pathTicks [true, true, false, false]) (s.lastIR, .clean) = s1 at g1
  have t1 : s1.tap = .known .shiftIr := by rw [← hs1, ticked_tap, ht]; rfl
  have h1 : s1.AnswersOk (2 * (12 + (dwellTicks data).length)) := by
    rw [← hs1]
    exact answersOk_ticked (answersOk_mono h (by simp +arith))
  have g2 : shiftInstruction instr s1 = .ok () (s1.ticked (operandTicks instr) (s.lastIR, .instr instr)) := by
    rw [shiftInstruction_ok t1 hl (answersOk_mono h1 (by omega)), ← hs1]
    rfl
  generalize hs2 : s1.ticked (operandTicks instr) (s.lastIR, .instr instr) = s2 at g2
  have t2 : s2.tap = .known .exit1Ir := by
    rw [← hs2, ticked_tap, t1, walkTracked_known, walk_operand_shiftIr (operand_ne_nil hl)]
  have h2 : s2.AnswersOk (2 * (6 + (dwellTicks data).length)) := by
    rw [← hs2]
    exact answersOk_ticked (answersOk_mono h1 (by simp [hl]; omega))
  have g3 : goto [true, true, false, false] s2 =
      .ok () (s2.ticked (pathTicks [true, true, false, false]) (.instr instr, .instr instr)) := by
    rw [goto_ok (answersOk_mono h2 (by simp +arith)), t2, ← hs2]
    rfl
  generalize hs3 : s2.ticked (pathTicks [true, true, false, false]) (.instr instr, .instr instr) = s3 at g3
  have t3 : s3.tap = .known .shiftDr := by rw [← hs3, ticked_tap, t2]; rfl
  have h3 : s3.AnswersOk (2 * (2 + (dwellTicks data).length)) := by
    rw [← hs3]
    exact answersOk_ticked (answersOk_mono h2 (by simp +arith))
  have g4 := loadData_ok (data := data) (receive := receive) t3 (answersOk_mono h3 (by omega))
  generalize hs4 : s3.ticked (dwellTicks data) (s3.lastIR, s3.pendingIR) = s4 at g4
  have t4 : s4.tap = .known .exit1Dr := by rw [← hs4, ticked_tap, t3, walkTracked_known, walk_dwell]
  have h4 : s4.AnswersOk 4 := by
    rw [← hs4]
    exact answersOk_ticked (answersOk_mono h3 (by omega))
  have g5 : goto [true, false] s4 = .ok () (s4.ticked (pathTicks [true, false]) (s4.lastIR, s4.pendingIR)) := by
    rw [goto_ok h4, t4]
    rfl
  generalize hs5 : s4.ticked (pathTicks [true, false]) (s4.lastIR, s4.pendingIR) = s5 at g5
  have t5 : s5.tap = .known .runTestIdle := by rw [← hs5, ticked_tap, t4]; rfl
  have hr : (if receive then s3.tdos 0 data.length else []) = if receive then s.tdos 14 data.length else [] := by
    rw [← hs3, tdos_ticked, ← hs2, tdos_ticked, ← hs1, tdos_ticked]
    simp [hl]
  have he : s5 = s.ticked (loadTicks instr data) (.instr instr, .instr instr) := by
    rw [← hs5, ← hs4, ← hs3, ticked_lastIR, ticked_pendingIR, ticked_lastIR, ticked_pendingIR, ticked_ticked,
      ticked_ticked, ← hs2, ticked_ticked, ← hs1, ticked_ticked, loadTicks]
    simp only [List.append_assoc]
  rw [loadInstructionThenData, run_bind_ok (assertState_ok ht), run_bind_ok g1, run_bind_ok (assertState_ok t1),
    run_bind_ok g2, run_bind_ok (assertState_ok t2), run_bind_ok g3, run_bind_ok (assertState_ok t3), run_bind_ok g4,
    run_bind_ok (assertState_ok t4), run_bind_ok g5, run_bind_ok (assertState_ok t5), run_pure, hr, he]

theorem loadInstructionThenData_raises {instr data : BitSeq} {receive : Bool} (ht : s.tap ≠ .known .runTestIdle) :
    loadInstructionThenData instr data receive s =
      .error .raised (s.enterError .protocolDesyncError (.tapMismatch .runTestIdle s.tap)) := by
  rw [loadInstructionThenData, run_bind_error (assertState_raises ht)]

theorem scanTicks_length (data : BitSeq) : (scanTicks data).length = data.length + 5 := by
  simp [scanTicks]
  omega

theorem scanDR_ok {data : BitSeq} {receive : Bool} (ht : s.tap = .known .runTestIdle) (hb : data ≠ [])
    (h : s.AnswersOk (2 * (data.length + 5))) :
    scanDR data receive s =
      .ok (if receive then s.tdos 3 data.length else []) (s.ticked (scanTicks data) (s.lastIR, s.pendingIR)) := by
  have g1 : goto [true, false, false] s =
      .ok () (s.ticked (pathTicks [true, false, false]) (s.lastIR, s.pendingIR)) := by
    rw [goto_ok (answersOk_mono h (by simp +arith)), ht]
    rfl
  generalize hs1 : s.ticked (pathTicks [true, false, false]) (s.lastIR, s.pendingIR) = s1 at g1
  have t1 : s1.tap = .known .shiftDr := by rw [← hs1, ticked_tap, ht]; rfl
  have h1 : s1.AnswersOk (2 * (data.length + 2)) := by
    rw [← hs1]
    exact answersOk_ticked (answersOk_mono h (by simp +arith))
  have g2 := shiftData_ok (receive := receive) t1 hb (answersOk_mono h1 (by omega))
  generalize hs2 : s1.ticked (operandTicks data) (s1.lastIR, s1.pendingIR) = s2 at g2
  have t2 : s2.tap = .known .exit1Dr := by
    rw [← hs2, ticked_tap, t1, walkTracked_known, walk_operand_shiftDr hb]
  have h2 : s2.AnswersOk 4 := by
    rw [← hs2]
    exact answersOk_ticked (answersOk_mono h1 (by simp +arith))
  have g3 : goto [true, false] s2 = .ok () (s2.ticked (pathTicks [true, false]) (s2.lastIR, s2.pendingIR)) := by
    rw [goto_ok h2, t2]
    rfl
  generalize hs3 : s2.ticked (pathTicks [true, false]) (s2.lastIR, s2.pendingIR) = s3 at g3
  have t3 : s3.tap = .known .runTestIdle := by rw [← hs3, ticked_tap, t2]; rfl
  have hr : (if receive then s1.tdos 0 data.length else []) = if receive then s.tdos 3 data.length else [] := by
    rw [← hs1, tdos_ticked]
    simp
  have he : s3 = s.ticked (scanTicks data) (s.lastIR, s.pendingIR) := by
    rw [← hs3, ← hs2, ← hs1, ticked_lastIR, ticked_pendingIR, ticked_lastIR, ticked_pendingIR, ticked_ticked,
      ticked_ticked, scanTicks]
    simp only [List.append_assoc]
  rw [scanDR, run_bind_ok (assertState_ok ht), run_bind_ok g1, run_bind_ok (assertState_ok t1), run_bind_ok g2,
    run_bind_ok (assertState_ok t2), run_bind_ok g3, run_bind_ok (assertState_ok t3), run_pure, hr, he]

theorem scanDR_raises {data : BitSeq} {receive : Bool} (ht : s.tap ≠ .known .runTestIdle) :
    scanDR data receive s =
      .error .raised (s.enterError .protocolDesyncError (.tapMismatch .runTestIdle s.tap)) := by
  rw [scanDR, run_bind_error (assertState_raises ht)]

end Sys2Proof.Machine
end

