-- ==== Sys2Proof/Laws/Frames.lean ====
section
/-! SUPPORT. What the framer's operations do where the transport answers (R189, R165 to R182), and where it fails. -/

namespace Sys2Proof.Machine

variable {s : State}

/-! ### The exchange -/

theorem exchange_ok {op : Byte} {payload : Bytes} (h : s.AnswersOk 2) :
    exchange op payload s = .ok (s.responseAt 0 op payload) (s.exchanged op payload) := by
  have h0 := h 0 (by omega)
  have h1 : answered ((s.drewAnswers 1).answerAt (s.drewAnswers 1).drawn.answers) = true := h 1 (by omega)
  rw [exchange, run_bind_ok (usbWrite_ok h0), run_get_bind, run_bind_ok (usbRead_ok h1), run_bind_ok (run_record ..),
    run_pure]
  rfl

theorem exchange_write_fails {op : Byte} {payload : Bytes} {k : FailKind}
    (h : s.answerAt s.drawn.answers = .fail k) :
    exchange op payload s = raiseTransport (op == 0x50) (writeKind k) (s.drewAnswers 1) := by
  rw [exchange, run_bind_error (e := .raised) (usbWrite_fail h)]
  rfl

theorem exchange_read_fails {op : Byte} {payload : Bytes} {k : FailKind}
    (h0 : answered (s.answerAt s.drawn.answers) = true) (h1 : s.answerAt (s.drawn.answers + 1) = .fail k) :
    exchange op payload s = raiseTransport (op == 0x50) (readKind k) (s.drewAnswers 2) := by
  have h1' : (s.drewAnswers 1).answerAt (s.drewAnswers 1).drawn.answers = .fail k := h1
  rw [exchange, run_bind_ok (usbWrite_ok h0), run_get_bind, run_bind_error (e := .raised) (usbRead_fail h1')]
  rfl

/-! ### Ticks at the port -/

theorem drawTdos_ok {n : Nat} {s : State} : drawTdos n s = .ok (s.tdos 0 n) (s.drewTdo n) := by
  induction n generalizing s with
  | zero => rfl
  | succ n ih =>
    rw [drawTdos, run_bind_ok (run_drawTdo s), run_bind_ok ih, run_pure]
    have e : s.tdos 0 (n + 1) = s.tdoAt s.drawn.tdo :: s.tdos 1 n := by
      rw [Nat.add_comm, tdos_eq_append]
      simp [State.tdos]
    rw [e]
    simp [State.drewTdo, State.tdos, State.tdoAt, Nat.add_assoc, Nat.add_left_comm, Nat.add_comm 1]

theorem portTicks_ok {ticks : List (Bool × Bool)} {tdo : BitSeq} {s : State} (h : tdo.length = ticks.length) :
    portTicks ((ticks.zip tdo).map fun t => (t.1.1, t.1.2, t.2)) s = .ok () (s.ported ticks tdo) := by
  induction ticks generalizing tdo s with
  | nil =>
    cases tdo with
    | nil => simp [portTicks, State.ported, walkTracked, walk, trackIR, tickEvents]
    | cons b l => simp at h
  | cons t ticks ih =>
    cases tdo with
    | nil => simp at h
    | cons b tdo =>
      simp only [List.zip_cons_cons, List.map_cons, portTicks]
      rw [run_bind_ok (run_portTick ..), ih (by simpa using h)]
      simp [State.ported, State.portTick, walkTracked, walk, trackIR, tickEvents]

/-! ### The admitted opcodes -/

theorem flashOnOff_ok {on : Bool} (h : s.AnswersOk 2) : flashOnOff on s = .ok () (s.pinned on) := by
  rw [flashOnOff, run_bind_ok (exchange_ok h)]
  rfl

theorem writeEedata_ok {addr value : Byte} (h : s.AnswersOk 2) :
    writeEedata addr value s = .ok () (s.exchanged 0x05 (Config.encodeEeWrite addr value)) := by
  rw [writeEedata, run_bind_ok (exchange_ok h)]
  rfl

theorem prog_ok {payload : Bytes} (h : s.AnswersOk 2) :
    prog payload s = .ok () { s.exchanged 0x49 payload with
      caps := none, lastIR := .unknown, pendingIR := .unknown, tap := .unknown } := by
  rw [prog, run_bind_ok (exchange_ok h)]
  rfl

theorem responseTdo_length {op : Byte} {resp : Bytes} {n : Nat} : (responseTdo op resp n).length ≤ n := by
  unfold responseTdo
  split
  · simp
  · split <;> simp [bitsOfBytes]

/-- A framed exchange with ticks at the port, where the transport answers (R173). -/
theorem portFrame_ok {op : Byte} {payload : Bytes} {ticks : List (Bool × Bool)} {tdo : BitSeq} {m : Nat}
    (h : s.AnswersOk 2) (ht : tdo = responseTdo op (s.responseAt 0 op payload) ticks.length)
    (hm : m = ticks.length - tdo.length) :
    portFrame op payload ticks s = .ok (s.responseAt 0 op payload)
      (((s.exchanged op payload).ported ticks (tdo ++ s.tdos 0 m)).drewTdo m) := by
  subst ht hm
  have hl := responseTdo_length (op := op) (resp := s.responseAt 0 op payload) (n := ticks.length)
  rw [portFrame, run_bind_ok (exchange_ok h)]
  rw [run_bind_ok drawTdos_ok, run_bind_ok (portTicks_ok (by simp; omega)), run_pure]
  rfl

/-- A frame whose response carries no TDO (R174, R177, R181). -/
theorem portFrame_draws {op : Byte} {payload : Bytes} {ticks : List (Bool × Bool)} (h : s.AnswersOk 2)
    (h1 : op ≠ 0x43) (h2 : op ≠ 0x44) :
    portFrame op payload ticks s = .ok (s.responseAt 0 op payload)
      (((s.exchanged op payload).ported ticks (s.tdos 0 ticks.length)).drewTdo ticks.length) :=
  portFrame_ok (tdo := []) h (by rw [responseTdo, if_neg h1, if_neg h2]) rfl

theorem tmsTdi_ok {tms tdi : Bool} (h : s.AnswersOk 2) :
    tmsTdi tms tdi s = .ok () (((s.exchanged 0x42 (encodeTick tms tdi)).ported [(tms, tdi)]
      (s.tdos 0 1)).drewTdo 1) := by
  rw [tmsTdi, run_bind_ok (portFrame_draws h (by decide) (by decide))]
  rfl

theorem tmsTdiTdo_ok {tms tdi : Bool} (h : s.AnswersOk 2) :
    tmsTdiTdo tms tdi s = .ok (Config.decodeTdo (s.responseAt 0 0x43 (encodeTick tms tdi)))
      ((s.exchanged 0x43 (encodeTick tms tdi)).ported [(tms, tdi)]
        [Config.decodeTdo (s.responseAt 0 0x43 (encodeTick tms tdi))]) := by
  rw [tmsTdiTdo, run_bind_ok (portFrame_ok (m := 0) h rfl rfl)]
  rfl

theorem bulkLength_le (unit : LenUnit) (n : Nat) : bulkLength unit n ≤ n := by
  cases unit
  · exact Nat.le_refl n
  · simp only [bulkLength]; omega

theorem bulkPayload_ok {bits : BitSeq} (h : bits.length < 2 ^ 32) :
    bulkPayload bits s = .ok (bulkBytes s.params bits) s := by
  rw [bulkPayload, run_get_bind, le32, if_pos (Nat.lt_of_le_of_lt (bulkLength_le _ _) h)]
  rfl

theorem tdi_ok {bits : BitSeq} {marked : Bool} (hb : bits ≠ []) (hl : bits.length < 2 ^ 32) (h : s.AnswersOk 2) :
    tdi bits marked s = .ok () (((s.exchanged 0x46 (bulkBytes s.params bits)).ported (bulkTicks bits marked)
      (s.tdos 0 bits.length)).drewTdo bits.length) := by
  rw [tdi, if_neg (by simpa using hb), run_bind_ok (bulkPayload_ok hl),
    run_bind_ok (portFrame_draws h (by decide) (by decide)), bulkTicks_length]
  rfl

theorem bitsOfBytes_length (bytes : Bytes) (n : Nat) : (bitsOfBytes bytes n).length = n := by
  simp [bitsOfBytes]

/-- The response of `TDI_TDO` supplies all `n` bits (R176). -/
theorem tdiTdo_ok {bits : BitSeq} {marked : Bool} (hb : bits ≠ []) (hl : bits.length < 2 ^ 32) (h : s.AnswersOk 2)
    (hr : bits.length ≤ 8 * (s.responseAt 0 0x44 (bulkBytes s.params bits)).length) :
    tdiTdo bits marked s =
      .ok (bitsOfBytes (s.responseAt 0 0x44 (bulkBytes s.params bits)) bits.length)
        ((s.exchanged 0x44 (bulkBytes s.params bits)).ported (bulkTicks bits marked)
          (bitsOfBytes (s.responseAt 0 0x44 (bulkBytes s.params bits)) bits.length)) := by
  rw [tdiTdo, if_neg (by simpa using hb), run_bind_ok (bulkPayload_ok hl),
    run_bind_ok (portFrame_ok (tdo := bitsOfBytes (s.responseAt 0 0x44 (bulkBytes s.params bits)) bits.length) (m := 0) h
      (by rw [bulkTicks_length, responseTdo, if_neg (by decide), if_pos rfl, Nat.min_eq_left hr])
      (by rw [bulkTicks_length, bitsOfBytes_length, Nat.sub_self])), fromBytes, if_pos hr]
  simp [State.tdos, State.drewTdo]

/-- The response of `TDI_TDO` is short: its ticks have happened, and `fromBytes` raises (R144, R176). -/
theorem tdiTdo_short {bits : BitSeq} {marked : Bool} {resp : Bytes} {m : Nat} (hb : bits ≠ [])
    (hl : bits.length < 2 ^ 32) (h : s.AnswersOk 2) (he : resp = s.responseAt 0 0x44 (bulkBytes s.params bits))
    (hr : 8 * resp.length < bits.length) (hm : m = bits.length - 8 * resp.length) :
    tdiTdo bits marked s = .error .raised (State.enterError
      (((s.exchanged 0x44 (bulkBytes s.params bits)).ported (bulkTicks bits marked)
        (bitsOfBytes resp (8 * resp.length) ++ s.tdos 0 m)).drewTdo m)
      .invalidOperand (.operands bits.length resp.length)) := by
  subst he
  rw [tdiTdo, if_neg (by simpa using hb), run_bind_ok (bulkPayload_ok hl),
    run_bind_ok (portFrame_ok (m := m) h
      (show bitsOfBytes _ (8 * (s.responseAt 0 0x44 (bulkBytes s.params bits)).length) = _ by
        rw [bulkTicks_length, responseTdo, if_neg (by decide), if_pos rfl, Nat.min_eq_right (by omega)])
      (by rw [bulkTicks_length, bitsOfBytes_length]; exact hm)), fromBytes, if_neg (by omega)]
  rfl

theorem tapSeq_ok {seq : BitSeq} (hb : seq ≠ []) (h : s.AnswersOk 2) :
    tapSeq seq s = .ok () (((s.exchanged 0x4f (encodeTmsSeq seq)).ported (pathTicks seq)
      (s.tdos 0 seq.length)).drewTdo seq.length) := by
  have e : (pathTicks seq).length = seq.length := by simp [pathTicks]
  rw [tapSeq, if_neg (by simpa using hb), run_bind_ok (portFrame_draws h (by decide) (by decide)), e]
  rfl

/-! ### Raw frames -/

/-- A raw frame of an opcode that is no JTAG primitive (R189). -/
theorem sendFrame_ok {op : Byte} {payload : Bytes} (hj : isJtagPrimitive op = false) (h : s.AnswersOk 2) :
    sendFrame op payload s = .ok (s.responseAt 0 op payload) (s.exchanged op payload) := by
  rw [sendFrame, run_get_bind, if_neg (by simp [hj]), exchange_ok h]

/-- A raw frame of a JTAG primitive also has its ticks at the port (R173, R189). -/
theorem sendFrame_jtag_ok {op : Byte} {payload : Bytes} {ticks : List (Bool × Bool)} {tdo : BitSeq} {m : Nat}
    (hj : isJtagPrimitive op = true) (h : s.AnswersOk 2) (hf : ticks = frameTicks s.params op payload)
    (ht : tdo = responseTdo op (s.responseAt 0 op payload) ticks.length) (hm : m = ticks.length - tdo.length) :
    sendFrame op payload s = .ok (s.responseAt 0 op payload)
      (((s.exchanged op payload).ported ticks (tdo ++ s.tdos 0 m)).drewTdo m) := by
  rw [sendFrame, run_get_bind, if_pos hj, ← hf, portFrame_ok h ht hm]

theorem bytesBits_bitBytes (seq : BitSeq) : bytesBits (bitBytes seq) = some seq := by
  induction seq with
  | nil => rfl
  | cons b seq ih =>
    have e : bitBytes (b :: seq) = (if b then 1 else 0) :: bitBytes seq := rfl
    rw [e]
    cases b <;> simp [bytesBits, ih]

/-- A single-tick payload is read back to its tick (R174, R175). -/
@[simp] theorem decodeTick_encodeTick (tms tdi : Bool) : decodeTick (encodeTick tms tdi) = some (tms, tdi) := by
  simp [decodeTick, encodeTick, bytesBits_bitBytes]

/-- The payload of a TMS sequence is read back to it (R181). -/
@[simp] theorem decodeTmsSeq_encodeTmsSeq (seq : BitSeq) : decodeTmsSeq (encodeTmsSeq seq) = some seq := by
  simp [decodeTmsSeq, encodeTmsSeq, bytesBits_bitBytes]

/-- The `len` field of a frame is the number that was encoded in it (R71, R152). -/
theorem lenField_le32 {n : Nat} {data : Bytes} (h : n < 2 ^ 32) : lenField (le32Bytes n ++ data) = n := by
  simp [lenField, le32Bytes]
  omega

theorem highZeros_bit : ∀ (b : Byte) (k : Fin 8), 8 - highZeros b ≤ k.val → b.getLsbD k.val = false := by
  decide +kernel

/-- Dropping zero bits at the end does not change the packed bytes, as long as their number stays. -/
theorem toBytes_bitsOfBytes {bits : BitSeq} {n : Nat} (hn : (n + 7) / 8 = (bits.length + 7) / 8)
    (hz : ∀ i, n ≤ i → bits.getD i false = false) : toBytes (bitsOfBytes (toBytes bits) n) = toBytes bits := by
  have hl : ∀ m, (bitsOfBytes (toBytes bits) m).length = m := bitsOfBytes_length _
  apply List.ext_getElem?
  intro j
  by_cases hj : j < (bits.length + 7) / 8
  swap
  · rw [List.getElem?_eq_none (by rw [toBytes_length, hl]; omega), List.getElem?_eq_none (by rw [toBytes_length]; omega)]
  rw [toBytes_getElem? (by rw [hl, hn]; exact hj), toBytes_getElem? hj]
  refine congrArg some (BitVec.eq_of_getLsbD_eq fun k hk => ?_)
  rw [packedByte_bit, packedByte_bit]
  congr 1
  by_cases hi : 8 * j + k < n
  · rw [List.getD_eq_getElem?_getD, bitsOfBytes_getElem? hi]
    have e1 : (8 * j + k) / 8 = j := by omega
    have e2 : (8 * j + k) % 8 = k := by omega
    rw [e1, e2, List.getD_eq_getElem?_getD, toBytes_getElem? hj]
    change (packedByte bits j).getLsbD k = _
    rw [packedByte_bit]
    simp [hk]
  · rw [hz _ (by omega), List.getD_eq_getElem?_getD, List.getElem?_eq_none (by rw [hl]; omega)]
    rfl

/-- A bulk payload of bits is read back to an operand with the same payload, and where the length counts bits to the
bits themselves (R71, R176, R177). -/
theorem bulkOperand_bulkBytes {p : Params} {op : Byte} {bits : BitSeq} (hb : bits ≠ []) (hl : bits.length < 2 ^ 32) :
    ∃ operand, operand ≠ [] ∧ bulkBytes p operand = bulkBytes p bits ∧ (p.bulkLenUnit = .bits → operand = bits)
      ∧ bulkOperand p op (bulkBytes p bits) = some operand := by
  have hpos : 0 < bits.length := List.length_pos_iff.mpr hb
  have hd : (bulkBytes p bits).drop 4 = toBytes bits := rfl
  have hL : (bulkBytes p bits).length - 4 = (bits.length + 7) / 8 := by
    simp [bulkBytes, le32Bytes, toBytes_length]
  have key : ∀ n, n = bulkCount p op (bulkBytes p bits) → n ≠ 0 → (n + 7) / 8 = (bits.length + 7) / 8 →
      (p.bulkLenUnit = .bits → n = bits.length) → (∀ i, n ≤ i → bits.getD i false = false) →
      ∃ operand, operand ≠ [] ∧ bulkBytes p operand = bulkBytes p bits ∧ (p.bulkLenUnit = .bits → operand = bits)
        ∧ bulkOperand p op (bulkBytes p bits) = some operand := by
    intro n hn h0 h7 hu hz
    have hlen : (bitsOfBytes (toBytes bits) n).length = n := bitsOfBytes_length ..
    have hB : bulkBytes p (bitsOfBytes (toBytes bits) n) = bulkBytes p bits := by
      rw [bulkBytes, bulkBytes, toBytes_bitsOfBytes h7 hz, hlen]
      cases hq : p.bulkLenUnit with
      | bits => rw [hu hq]
      | bytes => simp only [bulkLength, h7]
    have h32 : bulkLength p.bulkLenUnit n < 2 ^ 32 := by
      cases hq : p.bulkLenUnit with
      | bits => rwa [bulkLength, hu hq]
      | bytes =>
        simp only [bulkLength]
        omega
    refine ⟨bitsOfBytes (toBytes bits) n, ?_, hB, ?_, ?_⟩
    · intro e
      rw [e] at hlen
      exact h0 hlen.symm
    · intro hq
      apply List.ext_getElem?
      intro i
      by_cases hi : i < bits.length
      · rw [bitsOfBytes_getElem? (by rw [hu hq]; exact hi), List.getD_eq_getElem?_getD,
          toBytes_getElem? (by omega)]
        simp only [Option.getD_some, packedByte_bit]
        rw [show 8 * (i / 8) + i % 8 = i by omega]
        simp [hi, Nat.mod_lt]
      · rw [List.getElem?_eq_none (by rw [hlen, hu hq]; omega), List.getElem?_eq_none (by omega)]
    · rw [bulkOperand]
      simp only [← hn, hd, hL]
      rw [if_neg (by omega), if_pos hB.symm]
  have hu : p.bulkLenUnit = .bits ∨ p.bulkLenUnit = .bytes := by cases p.bulkLenUnit <;> simp
  rcases hu with hq | hq
  · refine key bits.length ?_ (by omega) rfl (fun _ => rfl) fun i hi => ?_
    · rw [bulkCount, hq]
      simp only
      rw [bulkBytes, hq, bulkLength, lenField_le32 hl]
    · rw [List.getD_eq_getElem?_getD, List.getElem?_eq_none hi]
      rfl
  · have hlast : (bulkBytes p bits).getLastD 0 = packedByte bits ((bits.length + 7) / 8 - 1) := by
      rw [List.getLastD_eq_getLast?, List.getLast?_eq_getElem?, bulkBytes, List.getElem?_append_right
        (by simp [le32Bytes, toBytes_length]; omega), List.length_append, toBytes_length]
      rw [show (le32Bytes (bulkLength p.bulkLenUnit bits.length)).length = 4 from rfl,
        show 4 + (bits.length + 7) / 8 - 1 - 4 = (bits.length + 7) / 8 - 1 by omega, toBytes_getElem? (by omega)]
      rfl
    have hp : (Config.bulkPad op (bulkBytes p bits)).val < 8 := (Config.bulkPad op (bulkBytes p bits)).isLt
    have hk : bulkCount p op (bulkBytes p bits) = 8 * ((bits.length + 7) / 8)
        - min (Config.bulkPad op (bulkBytes p bits)).val (highZeros (packedByte bits ((bits.length + 7) / 8 - 1))) := by
      rw [bulkCount, hq]
      simp only
      rw [hL, hlast]
    generalize Config.bulkPad op (bulkBytes p bits) = pad at hp hk
    refine key _ rfl (by omega) (by omega) (by rw [hq]; exact fun h => nomatch h) fun i hi => ?_
    by_cases h8 : i < 8 * ((bits.length + 7) / 8)
    · have := highZeros_bit (packedByte bits ((bits.length + 7) / 8 - 1)) ⟨i % 8, by omega⟩ (by simp only; omega)
      rw [packedByte_bit] at this
      rw [show 8 * ((bits.length + 7) / 8 - 1) + i % 8 = i by omega] at this
      simpa [Nat.mod_lt] using this
    · rw [List.getD_eq_getElem?_getD, List.getElem?_eq_none (by omega)]
      rfl

end Sys2Proof.Machine
end

