-- ==== Sys2Proof/Laws/Flash.lean ====
section
/-! SUPPORT. What the flash operations do: each once where the transport answers, and as an error where a check fails
(R210 to R224). -/

namespace Sys2Proof.Machine

variable {s : State}

/-! ### The gate -/

theorem requireIdentified_ok (h : s.session = .identified) : requireIdentified s = .ok () s := by
  rw [requireIdentified, run_get_bind, if_pos h]
  rfl

theorem requireIdentified_raises (h : s.session ≠ .identified) :
    requireIdentified s = .error .raised (s.enterError .deviceIdentityError (.session s.session)) := by
  rw [requireIdentified, run_get_bind, if_neg h]
  rfl

/-- An operation behind the gate, on a session that is not identified. -/
theorem gated_raises {α : Type} {f : Unit → Op α} (h : s.session ≠ .identified) :
    (requireIdentified >>= f) s = .error .raised (s.enterError .deviceIdentityError (.session s.session)) :=
  run_bind_error (requireIdentified_raises h)

/-! ### Scans -/

theorem cmdScan_ok {frame : BitSeq} (ht : s.tap = .known .runTestIdle)
    (h : s.AnswersOk (2 * (loadTicks user1 frame).length)) : cmdScan frame s = .ok () (s.commanded frame) := by
  rw [cmdScan, run_bind_ok (loadInstructionThenData_ok ht user1_length h)]
  rfl

theorem cmdScan_raises {frame : BitSeq} (ht : s.tap ≠ .known .runTestIdle) :
    cmdScan frame s = .error .raised (s.enterError .protocolDesyncError (.tapMismatch .runTestIdle s.tap)) := by
  rw [cmdScan, run_bind_error (loadInstructionThenData_raises ht)]

theorem user1Loaded_ok (h : s.lastIR = .instr user1) : user1Loaded s = .ok () s := by
  rw [user1Loaded, run_get_bind, if_pos h]
  rfl

theorem user1Loaded_raises (h : s.lastIR ≠ .instr user1) :
    user1Loaded s = .error .raised (s.enterError .protocolDesyncError (.irMismatch user1 s.lastIR)) := by
  rw [user1Loaded, run_get_bind, if_neg h]
  rfl

theorem checkUser1_ok (hs : s.session = .identified) (h : s.lastIR = .instr user1) : checkUser1 s = .ok () s := by
  rw [checkUser1, run_bind_ok (requireIdentified_ok hs), user1Loaded_ok h]

theorem bitsOf_ne_nil {n v : Nat} (hn : n ≠ 0) : bitsOf n v ≠ [] := by
  intro e
  have := congrArg List.length e
  rw [bitsOf_length] at this
  exact hn this

theorem respScan_ok {n : Nat} (hs : s.session = .identified) (hi : s.lastIR = .instr user1)
    (ht : s.tap = .known .runTestIdle) (hn : n ≠ 0) (h : s.AnswersOk (2 * (n + 5))) :
    respScan n s = .ok (s.tdos 3 n) (s.responded n) := by
  rw [respScan, run_bind_ok (checkUser1_ok hs hi), readDR,
    scanDR_ok ht (bitsOf_ne_nil hn) (by simpa using h)]
  simp [State.responded, State.scanned]

theorem payScan_ok {bits : BitSeq} (hs : s.session = .identified) (hi : s.lastIR = .instr user1)
    (ht : s.tap = .known .runTestIdle) (hb : bits ≠ []) (h : s.AnswersOk (2 * (bits.length + 5))) :
    payScan bits s = .ok () (s.scanned bits) := by
  rw [payScan, run_bind_ok (checkUser1_ok hs hi), run_bind_ok (scanDR_ok ht hb h)]
  rfl

/-! ### What a scan leaves -/

theorem walk_load {instr data : BitSeq} (hl : instr.length = 6) :
    walk .runTestIdle ((loadTicks instr data).map Prod.fst) = .runTestIdle := by
  simp only [loadTicks, List.map_append, walk_append, pathTicks_tms]
  rw [show walk .runTestIdle [true, true, false, false] = .shiftIr from rfl, walk_operand_shiftIr (operand_ne_nil hl),
    show walk .exit1Ir [true, true, false, false] = .shiftDr from rfl, walk_dwell]
  rfl

theorem walk_scan {data : BitSeq} (hb : data ≠ []) :
    walk .runTestIdle ((scanTicks data).map Prod.fst) = .runTestIdle := by
  simp only [scanTicks, List.map_append, walk_append, pathTicks_tms]
  rw [show walk .runTestIdle [true, false, false] = .shiftDr from rfl, walk_operand_shiftDr hb]
  rfl

theorem loaded_tap {instr data : BitSeq} (ht : s.tap = .known .runTestIdle) (hl : instr.length = 6) :
    (s.loaded instr data).tap = .known .runTestIdle := by
  rw [State.loaded, ticked_tap, ht, walkTracked_known, walk_load hl]

theorem commanded_tap {frame : BitSeq} (ht : s.tap = .known .runTestIdle) :
    (s.commanded frame).tap = .known .runTestIdle := loaded_tap ht user1_length

theorem scanned_tap {data : BitSeq} (ht : s.tap = .known .runTestIdle) (hb : data ≠ []) :
    (s.scanned data).tap = .known .runTestIdle := by
  rw [State.scanned, ticked_tap, ht, walkTracked_known, walk_scan hb]

theorem responded_tap {n : Nat} (ht : s.tap = .known .runTestIdle) (hn : n ≠ 0) :
    (s.responded n).tap = .known .runTestIdle := scanned_tap ht (bitsOf_ne_nil hn)

theorem dwellTicks_of_ne {data : BitSeq} (hb : data ≠ []) : dwellTicks data = operandTicks data := if_neg hb

theorem loadTicks_frame_length {frame : BitSeq} (hb : frame ≠ []) :
    (loadTicks user1 frame).length = 16 + frame.length := by
  rw [loadTicks_length _ _ user1_length, dwellTicks_of_ne hb, operandTicks_length]

theorem answersOk_commanded {frame : BitSeq} {n : Nat} (hb : frame ≠ [])
    (h : s.AnswersOk (2 * (16 + frame.length) + n)) : (s.commanded frame).AnswersOk n :=
  answersOk_ticked (by rw [loadTicks_frame_length hb]; exact h)

theorem answersOk_scanned {data : BitSeq} {n : Nat} (h : s.AnswersOk (2 * (data.length + 5) + n)) :
    (s.scanned data).AnswersOk n :=
  answersOk_ticked (by rw [scanTicks_length]; exact h)

theorem answersOk_responded {m n : Nat} (h : s.AnswersOk (2 * (m + 5) + n)) : (s.responded m).AnswersOk n :=
  answersOk_scanned (by simpa using h)

/-! ### Probe and geometry -/

theorem probeCapabilities_ok (hs : s.session = .identified) (ht : s.tap = .known .runTestIdle)
    (h : s.AnswersOk (2 * (16 + subWidth s.params.subCapabilities + 37))) :
    probeCapabilities s = .ok s.probedWord s.probed := by
  have hb := subBits_ne_nil s.params.subCapabilities
  have g1 := cmdScan_ok (frame := subBits s.params.subCapabilities) ht
    (by rw [loadTicks_frame_length hb, subBits_length]; exact answersOk_mono h (by omega))
  have h1 : (s.commanded (subBits s.params.subCapabilities)).AnswersOk (2 * (32 + 5)) :=
    answersOk_commanded hb (by rw [subBits_length]; exact answersOk_mono h (by omega))
  have g2 := respScan_ok (s := s.commanded (subBits s.params.subCapabilities)) hs rfl (commanded_tap ht)
    (by decide : 32 ≠ 0) h1
  rw [probeCapabilities, run_bind_ok (requireIdentified_ok hs), run_get_bind, run_bind_ok g1, run_bind_ok g2]
  rfl

theorem probed_tap (ht : s.tap = .known .runTestIdle) : s.probed.tap = .known .runTestIdle :=
  responded_tap (commanded_tap ht) (by decide)

theorem answersOk_probed {n : Nat} (h : s.AnswersOk (2 * (16 + subWidth s.params.subCapabilities + 37) + n)) :
    s.probed.AnswersOk n :=
  answersOk_later (m := 0) (s := (s.commanded (subBits s.params.subCapabilities)).responded 32) rfl rfl
    (by rw [Nat.zero_add]; exact answersOk_responded (answersOk_commanded (subBits_ne_nil _)
      (by rw [subBits_length]; exact answersOk_mono h (by omega))))

/-- The three geometry fields are read, and stored where they are legal (R214). -/
theorem readGeometry_ok (hs : s.session = .identified) (ht : s.tap = .known .runTestIdle)
    (h : s.AnswersOk (2 * (16 + subWidth s.params.subFlashSize + 29))) :
    readGeometry s = if validGeometry s.scannedGeometry then .ok s.scannedGeometry s.measured
      else .error .raised (s.geometryTicked.enterError .geometryInvalid
        (.geometry s.scannedGeometry.dataWidthBits.toNat s.scannedGeometry.addrWidthBits.toNat
          s.scannedGeometry.blockAddrWidthBits.toNat)) := by
  have hb := subBits_ne_nil s.params.subFlashSize
  have g1 := cmdScan_ok (frame := subBits s.params.subFlashSize) ht
    (by rw [loadTicks_frame_length hb, subBits_length]; exact answersOk_mono h (by omega))
  have h1 : (s.commanded (subBits s.params.subFlashSize)).AnswersOk (2 * (24 + 5)) :=
    answersOk_commanded hb (by rw [subBits_length]; exact answersOk_mono h (by omega))
  have g2 := respScan_ok (s := s.commanded (subBits s.params.subFlashSize)) hs rfl (commanded_tap ht)
    (by decide : 24 ≠ 0) h1
  rw [readGeometry, run_bind_ok (requireIdentified_ok hs), run_get_bind, run_bind_ok g1, run_bind_ok g2]
  change (if validGeometry s.scannedGeometry then _ else _ : Op Geometry) _ = _
  rw [run_ite]
  rfl

theorem measured_tap (ht : s.tap = .known .runTestIdle) : s.measured.tap = .known .runTestIdle :=
  responded_tap (commanded_tap ht) (by decide)

theorem answersOk_measured {n : Nat} (h : s.AnswersOk (2 * (16 + subWidth s.params.subFlashSize + 29) + n)) :
    s.measured.AnswersOk n :=
  answersOk_later (m := 0) (s := (s.commanded (subBits s.params.subFlashSize)).responded 24) rfl rfl
    (by rw [Nat.zero_add]; exact answersOk_responded (answersOk_commanded (subBits_ne_nil _)
      (by rw [subBits_length]; exact answersOk_mono h (by omega))))

theorem ensureCapability_present {bitpos : Nat} {start : Bool} (hs : s.session = .identified)
    (ht : s.tap = .known .runTestIdle) (h : s.AnswersOk (2 * (16 + subWidth s.params.subCapabilities + 37)))
    (hc : hasCap s.probedWord bitpos = true) : ensureCapability bitpos start s = .ok () s.probed := by
  rw [ensureCapability, run_bind_ok (requireIdentified_ok hs), run_bind_ok (probeCapabilities_ok hs ht h), if_pos hc]
  rfl

theorem ensureCapability_absent {bitpos : Nat} (hs : s.session = .identified)
    (ht : s.tap = .known .runTestIdle) (h : s.AnswersOk (2 * (16 + subWidth s.params.subCapabilities + 37)))
    (hc : hasCap s.probedWord bitpos = false) :
    ensureCapability bitpos false s =
      .error .raised (s.probed.enterError .capabilityAbsentError (.capability bitpos s.probedWord)) := by
  rw [ensureCapability, run_bind_ok (requireIdentified_ok hs), run_bind_ok (probeCapabilities_ok hs ht h),
    if_neg (by simp [hc]), if_pos rfl]
  rfl

/-! ### Alignment -/

theorem validateRange_eq {address length : Nat} (hs : s.session = .identified) :
    validateRange address length s =
      if length % stride s.geometry ≠ 0 then
        .error .raised (s.enterError .alignmentError (.alignment length (stride s.geometry)))
      else if belowStride address (stride s.geometry) ≠ 0 then
        .error .raised (s.enterError .alignmentError (.alignment address (stride s.geometry)))
      else .ok () s := by
  rw [validateRange, run_bind_ok (requireIdentified_ok hs), run_get_bind, run_ite]
  split
  · rfl
  · rw [run_ite]; rfl

theorem validateRange_ok {address length : Nat} (hs : s.session = .identified)
    (hl : length % stride s.geometry = 0) (ha : belowStride address (stride s.geometry) = 0) :
    validateRange address length s = .ok () s := by
  rw [validateRange_eq hs, if_neg (by simpa using hl), if_neg (by simpa using ha)]

/-! ### Polls -/

/-- One poll of the loop of R217, by what the status word decodes to. -/
theorem pollOnce_eq {k : Nat} {rest : Rest} (hm : s.cfg.maxPolls.any (fun m => decide (m ≤ k)) = false)
    (hs : s.session = .identified) (hi : s.lastIR = .instr user1) (ht : s.tap = .known .runTestIdle)
    (h : s.AnswersOk 74) : pollOnce k rest s = pollVerdict (k + 1) rest s.pollWord s.polled := by
  rw [pollOnce, run_get_bind, if_neg (by simp [hm]), run_bind_ok (respScan_ok hs hi ht (by decide) h), run_modify_bind]
  rfl

theorem pollVerdict_passed {k : Nat} {rest : Rest} {w : Word32} (h : decodeStatus s.params w = .passed) :
    pollVerdict k rest w s = .ok () s := by
  simp only [pollVerdict, h]

theorem pollVerdict_failed {k : Nat} {rest : Rest} {w : Word32} (h : decodeStatus s.params w = .failed) :
    pollVerdict k rest w s = .error .raised (s.enterError .flashOperationFailed (.statusWord w)) := by
  simp only [pollVerdict, h]

theorem pollVerdict_inProgress {k : Nat} {rest : Rest} {w : Word32} (h : decodeStatus s.params w = .inProgress) :
    pollVerdict k rest w s = .error .waiting { s with busy := some { polls := k, rest := rest } } := by
  simp only [pollVerdict, h]

theorem pollOnce_ceiling {k : Nat} {rest : Rest} (hm : s.cfg.maxPolls.any (fun m => decide (m ≤ k)) = true) :
    pollOnce k rest s = .error .raised (s.enterError .pollLimitExceeded (.pollCount k)) := by
  rw [pollOnce, run_get_bind, if_pos hm]
  rfl

/-- One pass of a poll loop that is the last event of an instruction (R217). -/
theorem pollOnce_ends {k : Nat} (hs : s.session = .identified) (hi : s.lastIR = .instr user1)
    (ht : s.tap = .known .runTestIdle) (h : s.AnswersOk (2 * 37) ∨ s.atCeiling k = true) :
    settle (fun _ => .none) (pollOnce k .done s) = s.pollEnds k := by
  rw [State.pollEnds, State.pollThen]
  cases hm : s.atCeiling k with
  | true =>
    rw [if_pos rfl, pollOnce_ceiling hm]
    rfl
  | false =>
    rw [if_neg (by decide), pollOnce_eq hm hs hi ht (h.resolve_right (by simp [hm]))]
    cases hd : decodeStatus s.params s.pollWord with
    | passed =>
      rw [pollVerdict_passed (s := s.polled) hd]
      rfl
    | failed =>
      rw [pollVerdict_failed (s := s.polled) hd]
      rfl
    | inProgress =>
      rw [pollVerdict_inProgress (s := s.polled) hd]
      rfl

theorem polled_tap (ht : s.tap = .known .runTestIdle) : s.polled.tap = .known .runTestIdle :=
  responded_tap ht (by decide)

theorem answersOk_polled {n : Nat} (h : s.AnswersOk (74 + n)) : s.polled.AnswersOk n :=
  answersOk_later (m := 0) (s := s.responded 32) rfl rfl
    (by rw [Nat.zero_add]; exact answersOk_responded h)

theorem pollUntilTerminal_eq {rest : Rest} (hs : s.session = .identified) :
    pollUntilTerminal rest s = pollOnce 0 rest s := by
  rw [pollUntilTerminal, run_bind_ok (requireIdentified_ok hs)]

theorem eraseFlash_eq {rest : Rest} (hs : s.session = .identified) (ht : s.tap = .known .runTestIdle)
    (h : s.AnswersOk (2 * (16 + subWidth s.params.subFlashErase))) :
    eraseFlash rest s = pollOnce 0 rest (s.commanded (subBits s.params.subFlashErase)) := by
  have g1 := cmdScan_ok (frame := subBits s.params.subFlashErase) ht
    (by rw [loadTicks_frame_length (subBits_ne_nil _), subBits_length]; exact h)
  rw [eraseFlash, run_bind_ok (requireIdentified_ok hs), run_get_bind, run_bind_ok g1]
  exact pollUntilTerminal_eq hs

/-! ### Program -/

theorem makeBits_ok {count value : Nat} (h : value < 2 ^ count) : makeBits count value s = .ok (bitsOf count value) s := by
  rw [makeBits, if_pos h]
  rfl

theorem makeBits_raises {count value : Nat} (h : ¬ value < 2 ^ count) :
    makeBits count value s = .error .raised (s.enterError .invalidOperand (.operands count value)) := by
  rw [makeBits, if_neg h]
  rfl

theorem addressedFrame_ok {sub : SubCode} {g : Geometry} {a n : Nat} (ha : a < 2 ^ addrWidth g)
    (hn : n < 2 ^ addrWidth g) : addressedFrame sub g a n s = .ok (wordFrame sub g a n) s := by
  rw [addressedFrame, run_bind_ok (makeBits_ok ha), run_bind_ok (makeBits_ok hn)]
  rfl

theorem wordFrame_length (sub : SubCode) (g : Geometry) (a n : Nat) :
    (wordFrame sub g a n).length = subWidth sub + 2 * addrWidth g := by
  simp [wordFrame]
  omega

theorem wordFrame_ne_nil (sub : SubCode) (g : Geometry) (a n : Nat) : wordFrame sub g a n ≠ [] := by
  intro e
  have := congrArg List.length e
  rw [wordFrame_length] at this
  have := subWidth_pos sub
  simp at *
  omega

theorem payloadBits_ne_nil {chunk : Bytes} (h : chunk ≠ []) : payloadBits chunk ≠ [] := by
  intro e
  have := congrArg List.length e
  rw [payloadBits_length] at this
  cases chunk <;> simp_all

/-- What a chunk without a fault is. -/
theorem chunkFault_none {g : Geometry} {address : Nat} {chunk : Bytes} (h : chunkFault g address chunk = none) :
    chunk ≠ [] ∧ chunk.length ≤ blockSizeBytes g ∧ chunk.length % stride g = 0 ∧ belowStride address (stride g) = 0
      ∧ address / stride g < 2 ^ addrWidth g ∧ chunk.length / stride g < 2 ^ addrWidth g := by
  unfold chunkFault at h
  split at h
  · cases h
  split at h
  · cases h
  split at h
  · cases h
  split at h
  · cases h
  split at h
  · cases h
  rename_i h1 h2 h3 h4 h5
  refine ⟨?_, by omega, by omega, by omega, by omega, by omega⟩
  rintro rfl
  simp at h1

theorem checkChunk_ok {g : Geometry} {chunk : Bytes} (h0 : chunk ≠ []) (h : chunk.length ≤ blockSizeBytes g) :
    checkChunk g chunk s = .ok () s := by
  have := List.length_pos_iff.mpr h0
  rw [checkChunk, if_neg (by omega)]
  rfl

theorem checkChunk_raises {g : Geometry} {chunk : Bytes} (h : chunk.length = 0 ∨ blockSizeBytes g < chunk.length) :
    checkChunk g chunk s = .error .raised (s.enterError .invalidOperand (.operand chunk.length)) := by
  rw [checkChunk, if_pos h]
  rfl

/-- A chunk with a fault raises it before its first tick (R218, R303). -/
theorem programChunk_fault {address : Nat} {chunk : Bytes} {rest : Rest} {e : ErrorCode × ErrorInfo}
    (hs : s.session = .identified) (h : chunkFault s.geometry address chunk = some e) :
    programChunk address chunk rest s = .error .raised (s.enterError e.1 e.2) := by
  rw [programChunk, run_bind_ok (requireIdentified_ok hs), run_get_bind]
  unfold chunkFault at h
  split at h
  · cases h
    rw [run_bind_error (checkChunk_raises ‹_›)]
  rename_i h1
  rw [run_bind_ok (checkChunk_ok (by rintro rfl; simp at h1) (by omega))]
  split at h
  · cases h
    rw [run_bind_error (e := .raised) ((validateRange_eq hs).trans (if_pos ‹_›))]
  rename_i h2
  split at h
  · cases h
    rw [run_bind_error (e := .raised) ((validateRange_eq hs).trans ((if_neg h2).trans (if_pos ‹_›)))]
  rename_i h3
  rw [run_bind_ok (validateRange_ok hs (by omega) (by omega))]
  split at h
  · cases h
    rw [addressedFrame, run_bind_error (e := .raised) (run_bind_error (makeBits_raises (by omega)))]
  rename_i h4
  split at h
  · cases h
    rw [addressedFrame, run_bind_error (e := .raised)
      ((run_bind_ok (makeBits_ok (by omega))).trans (run_bind_error (makeBits_raises (by omega))))]
  · cases h

/-- A chunk without a fault, up to its first poll (R218). -/
theorem programChunk_eq {address : Nat} {chunk : Bytes} {rest : Rest} (hs : s.session = .identified)
    (ht : s.tap = .known .runTestIdle) (hf : chunkFault s.geometry address chunk = none)
    (h : s.AnswersOk (2 * (16 + subWidth s.params.subFlashPgm + 2 * addrWidth s.geometry + (5 + 8 * chunk.length)))) :
    programChunk address chunk rest s = pollOnce 0 rest (s.sentChunk s.geometry address chunk) := by
  obtain ⟨hc, hk, hl, ha, hfa, hfn⟩ := chunkFault_none hf
  generalize hf : wordFrame s.params.subFlashPgm s.geometry (address / stride s.geometry)
    (chunk.length / stride s.geometry) = frame
  have hfl : frame.length = subWidth s.params.subFlashPgm + 2 * addrWidth s.geometry := by rw [← hf, wordFrame_length]
  have hb : frame ≠ [] := by rw [← hf]; exact wordFrame_ne_nil _ _ _ _
  have g1 := cmdScan_ok (frame := frame) ht (by rw [loadTicks_frame_length hb, hfl]; exact answersOk_mono h (by omega))
  have h1 : (s.commanded frame).AnswersOk (2 * ((payloadBits chunk).length + 5)) :=
    answersOk_commanded hb (by rw [hfl, payloadBits_length]; exact answersOk_mono h (by omega))
  have g2 := payScan_ok (s := s.commanded frame) hs rfl (commanded_tap ht) (payloadBits_ne_nil hc) h1
  rw [programChunk, run_bind_ok (requireIdentified_ok hs), run_get_bind, run_bind_ok (checkChunk_ok hc hk),
    run_bind_ok (validateRange_ok hs hl ha)]
  rw [run_bind_ok (addressedFrame_ok hfa hfn), hf, run_bind_ok g1, run_bind_ok g2, State.sentChunk, hf]
  exact pollUntilTerminal_eq hs

theorem sentChunk_tap {g : Geometry} {address : Nat} {chunk : Bytes} (ht : s.tap = .known .runTestIdle)
    (hc : chunk ≠ []) : (s.sentChunk g address chunk).tap = .known .runTestIdle :=
  scanned_tap (commanded_tap ht) (payloadBits_ne_nil hc)

theorem answersOk_sentChunk {g : Geometry} {address : Nat} {chunk : Bytes} {n : Nat}
    (h : s.AnswersOk (2 * (16 + subWidth s.params.subFlashPgm + 2 * addrWidth g + (5 + 8 * chunk.length)) + n)) :
    (s.sentChunk g address chunk).AnswersOk n :=
  answersOk_scanned (answersOk_commanded (wordFrame_ne_nil _ _ _ _)
    (by rw [wordFrame_length, payloadBits_length]; exact answersOk_mono h (by omega)))

/-! ### The pin and the cleanup -/

/-- An error draws no transport answer. -/
theorem answersOk_enterError {code : ErrorCode} {info : ErrorInfo} {n : Nat} :
    (s.enterError code info).AnswersOk n ↔ s.AnswersOk n := by
  cases code <;> exact Iff.rfl

theorem setFlashPin_ok {on : Bool} (hs : s.session = .identified) (h : s.AnswersOk 2) :
    setFlashPin on s = .ok () (s.pinned on) := by
  rw [setFlashPin, run_bind_ok (requireIdentified_ok hs), flashOnOff_ok h]

theorem releaseAfter_ok {α : Type} {body : Op α} {a : α} {t : State} (hb : body s = .ok a t)
    (hs : t.session = .identified) (h : t.AnswersOk 2) : releaseAfter body s = .ok a (t.pinned false) := by
  have hr : releaseOnExit t = .ok () (t.pinned false) := setFlashPin_ok hs h
  simp only [releaseAfter, hb, hr]

theorem releaseAfter_raised {α : Type} {body : Op α} {t : State} (hb : body s = .error .raised t)
    (hs : t.session = .identified) (h : t.AnswersOk 2) :
    releaseAfter body s = .error .raised (t.pinned false) := by
  have hr : releaseOnExit t = .ok () (t.pinned false) := setFlashPin_ok hs h
  simp only [releaseAfter, hb, hr]

/-- The cleanup depends on how its body leaves alone. -/
theorem releaseAfter_congr {α : Type} {body body' : Op α} {t : State} (h : body s = body' t) :
    releaseAfter body s = releaseAfter body' t := by
  simp only [releaseAfter, h]

theorem bind_congr_run {α β : Type} {x y : Op α} {f : α → Op β} {t : State} (h : x s = y t) :
    (x >>= f) s = (y >>= f) t := by
  cases hy : y t with
  | ok a u => rw [run_bind_ok (h.trans hy), run_bind_ok hy]
  | error e u => rw [run_bind_error (h.trans hy), run_bind_error hy]

theorem releaseAfter_bind_ok {α β : Type} {x : Op α} {f : α → Op β} {a : α} {t : State} (h : x s = .ok a t) :
    releaseAfter (x >>= f) s = releaseAfter (f a) t :=
  releaseAfter_congr (run_bind_ok h)

theorem releaseAfter_waiting {α : Type} {body : Op α} {t : State} (hb : body s = .error .waiting t) :
    releaseAfter body s = .error .waiting t := by
  simp only [releaseAfter, hb]

/-! ### Read and write -/

/-- The number of ticks of a read after capability and geometry (R340). -/
def readTicks (p : Params) (g : Geometry) (m : Nat) : Nat :=
  16 + subWidth p.subFlashRead + 2 * addrWidth g + (5 + 8 * m)

/-- A read body after its last probe, where every check passes (R220). -/
theorem readBody_ok {q : State} {g : Geometry} {loAddr hiAddr n : Nat} {start : Bool}
    (hq : ensureCapability (capPosition s.params.capFlashRead) start s = .ok () q) (hp : q.params = s.params)
    (hs : q.session = .identified) (ht : q.tap = .known .runTestIdle) (hgq : g = q.scannedGeometry)
    (hneq : n = hiAddr - loAddr + 1)
    (h : q.AnswersOk (2 * (16 + subWidth q.params.subFlashSize + 29) + 2 * readTicks q.params g n))
    (hg : validGeometry g = true) (hl : n % stride g = 0) (ha : belowStride loAddr (stride g) = 0)
    (hfa : loAddr / stride g < 2 ^ addrWidth g) (hfn : n / stride g < 2 ^ addrWidth g) :
    readBody loAddr hiAddr start s =
      let c := q.measured.commanded (wordFrame q.params.subFlashRead g (loAddr / stride g) (n / stride g))
      .ok (payloadBytesOf (c.tdos 3 (8 * n))) (c.responded (8 * n)) := by
  have hm : q.measured.AnswersOk (2 * readTicks q.params g n) := answersOk_measured h
  have g2 := readGeometry_ok hs ht (answersOk_mono h (by omega))
  rw [← hgq, if_pos hg] at g2
  have tm : q.measured.tap = .known .runTestIdle := measured_tap ht
  have hgm : q.measured.geometry = g := hgq.symm
  have sm : q.measured.session = .identified := hs
  generalize q.measured = m at hm g2 tm hgm sm
  have hn : 8 * n ≠ 0 := by omega
  have g3 := validateRange_ok (s := m) (address := loAddr) (length := n) sm (by rw [hgm]; exact hl) (by rw [hgm]; exact ha)
  rw [hp]
  rw [hp] at hm
  generalize hf : wordFrame s.params.subFlashRead g (loAddr / stride g) (n / stride g) = frame
  have hb : frame ≠ [] := by rw [← hf]; exact wordFrame_ne_nil _ _ _ _
  have hfl : frame.length = subWidth s.params.subFlashRead + 2 * addrWidth g := by rw [← hf, wordFrame_length]
  have g4 := cmdScan_ok (s := m) (frame := frame) tm
    (by rw [loadTicks_frame_length hb, hfl]; exact answersOk_mono hm (by simp only [readTicks]; omega))
  have h4 : (m.commanded frame).AnswersOk (2 * (8 * n + 5)) :=
    answersOk_commanded hb (by rw [hfl]; exact answersOk_mono hm (by simp only [readTicks]; omega))
  have g5 := respScan_ok (s := m.commanded frame) sm rfl (commanded_tap tm) hn h4
  rw [readBody, run_get_bind, run_bind_ok hq, run_bind_ok g2]
  simp only [← hneq]
  rw [run_bind_ok g3, run_bind_ok (addressedFrame_ok hfa hfn), hf, run_bind_ok g4, run_bind_ok g5, payloadBytes,
    if_pos (by simp [State.tdos])]
  rfl

/-- One pass of a poll loop and what follows it, inside the `try` of a `writeFlash` (R217, R221, R224). -/
theorem pollOnce_then {k : Nat} {rest : Rest} {f : Op Unit} {after : State → Prop} {go : State → State}
    (hs : s.session = .identified) (hi : s.lastIR = .instr user1) (ht : s.tap = .known .runTestIdle)
    (h : s.PollAnswered k after)
    (hgo : after s.polled → settle (fun _ => .none) (releaseAfter f s.polled) = go s.polled) :
    settle (fun _ => .none) (releaseAfter (pollOnce k rest >>= fun _ => f) s) =
      s.pollThen k rest State.failedReleased go := by
  obtain ⟨h0, h1⟩ := h
  rw [State.pollThen]
  cases hm : s.atCeiling k with
  | true =>
    rw [if_pos rfl, releaseAfter_raised (run_bind_error (pollOnce_ceiling hm)) ((enterError_session _ _ _).trans hs)
      (answersOk_enterError.mpr (h0 hm))]
    rfl
  | false =>
    obtain ⟨ha, hp, hf⟩ := h1 hm
    have e := pollOnce_eq (rest := rest) hm hs hi ht (answersOk_mono ha (by decide))
    rw [if_neg (by decide)]
    cases hd : decodeStatus s.params s.pollWord with
    | passed =>
      rw [releaseAfter_bind_ok (e.trans (pollVerdict_passed hd))]
      exact hgo (hp hd)
    | failed =>
      rw [releaseAfter_raised (run_bind_error (e.trans (pollVerdict_failed hd))) ((enterError_session _ _ _).trans hs)
        (answersOk_enterError.mpr (hf hd))]
      rfl
    | inProgress =>
      rw [releaseAfter_waiting (run_bind_error (e.trans (pollVerdict_inProgress hd)))]
      rfl

/-- The chunk loop of a write, and its pin release (R221, R223, R224). -/
theorem writeChunks_end {g : Geometry} {chunks : List (Nat × Bytes)} {done : Nat} {s : State}
    (hs : s.session = .identified) (ht : s.tap = .known .runTestIdle) (hg : s.geometry = g)
    (h : s.ChunksAnswered g done chunks) :
    settle (fun _ => .none) (releaseAfter (writeChunks done chunks) s) = s.chunksEnd g done chunks := by
  induction chunks generalizing s done with
  | nil =>
    rw [writeChunks, releaseAfter_ok (a := ()) (t := s) (run_pure _ _) hs h]
    rfl
  | cons c more ih =>
    obtain ⟨address, chunk⟩ := c
    subst hg
    rw [State.chunksEnd, writeChunks]
    rw [State.ChunksAnswered] at h
    cases hf : chunkFault s.geometry address chunk with
    | some e =>
      rw [hf] at h
      rw [releaseAfter_raised (run_bind_error (programChunk_fault hs hf)) (by simpa using hs)
        (answersOk_enterError.mpr h)]
      rfl
    | none =>
      rw [hf] at h
      rw [releaseAfter_congr (bind_congr_run (programChunk_eq hs ht hf h.1))]
      refine pollOnce_then hs rfl (sentChunk_tap ht (chunkFault_none hf).1) h.2 fun hw => ?_
      rw [releaseAfter_bind_ok (run_record _ _)]
      exact ih hs (polled_tap (sentChunk_tap ht (chunkFault_none hf).1)) rfl hw

/-! ### Geometry -/

theorem isPow2_two_pow (n : Nat) : isPow2 (2 ^ n) = true := by
  have h : 2 ^ n &&& (2 ^ n - 1) = 0 := by
    rw [Nat.and_two_pow_sub_one_eq_mod, Nat.mod_self]
  simp [isPow2, h]

/-- Where no geometry has been read, the model's is legal (R214), so that no division is by 0 (R151). -/
theorem unreadGeometry_legal : validGeometry unreadGeometry = true := by
  unfold unreadGeometry validGeometry
  generalize Config.unreadStrideLog = k
  generalize Config.unreadAddrGap = a
  generalize Config.unreadBlockLog = b
  obtain ⟨a, ha⟩ := a
  obtain ⟨b, hb⟩ := b
  have h1 : (BitVec.ofNat 8 (a + 1)).toNat = a + 1 := by simp; omega
  have h2 : ∀ k < 5, (BitVec.ofNat 8 (max k b)).toNat = max k b := by intro k hk; simp; omega
  have h3 : ∀ k, 2 ^ k ≤ 2 ^ max k b := fun k => Nat.pow_le_pow_right (by decide) (Nat.le_max_left ..)
  obtain ⟨k, hk⟩ := k
  have h4 : (BitVec.ofNat 8 (8 * 2 ^ k)).toNat = 8 * 2 ^ k := by
    have : 2 ^ k ≤ 2 ^ 4 := Nat.pow_le_pow_right (by decide) (by omega)
    simp
    omega
  simp only [h1, h2 k hk, h4]
  have h5 : 0 < 2 ^ k := Nat.two_pow_pos k
  simp [isPow2_two_pow, h3]

/-- A geometry that an operation works with is legal in every state whose register is (R29, R214). -/
theorem geometry_legal (h : GeometryLegal s) : validGeometry s.geometry = true := by
  unfold State.geometry
  cases hg : s.geom with
  | none => exact unreadGeometry_legal
  | some g => exact h g hg

/-- A legal geometry's stride is a power of two (R214). -/
theorem stride_two_pow {g : Geometry} (h : validGeometry g = true) : ∃ k < 5, stride g = 2 ^ k := by
  have key : ∀ d : Byte, isPow2 (d.toNat / 8) = true → ∃ k < 5, d.toNat / 8 = 2 ^ k := by decide +kernel
  refine key g.dataWidthBits ?_
  simp [validGeometry] at h
  exact h.1.1.2

/-- The address bits below a legal stride are the remainder (R215). -/
theorem belowStride_eq {g : Geometry} (h : validGeometry g = true) (address : Nat) :
    belowStride address (stride g) = address % stride g := by
  obtain ⟨k, _, hk⟩ := stride_two_pow h
  rw [belowStride, hk, Nat.and_two_pow_sub_one_eq_mod]

/-- A legal geometry's stride is not 0. -/
theorem stride_pos {g : Geometry} (h : validGeometry g = true) : 0 < stride g := by
  simp only [validGeometry, stride] at *
  simp at h
  omega

end Sys2Proof.Machine
end

