-- ==== Sys2Proof/Laws/Session.lean ====
section
/-! SUPPORT. What the session operations do: the handshake, the two identification reads, the configuration (R250 to
R263). -/

namespace Sys2Proof.Machine

variable {s : State}

/-! ### The handshake -/

theorem transportOpen_ok (h : answered (s.answerAt s.drawn.answers) = true) :
    transportOpen s = .ok () (s.drewAnswers 1) := by
  rw [transportOpen, run_bind_ok (run_drawAnswer s), answer_eq_ok h]
  rfl

theorem handshakeRead_first {frame : Bytes} {maxlen : Nat} (h : answered (s.answerAt s.drawn.answers) = true) :
    handshakeRead frame maxlen s = .ok ((answerBytes (s.answerAt s.drawn.answers)).take maxlen)
      { s.drewAnswers 1 with
        history := s.history ++ [.write frame, .read ((answerBytes (s.answerAt s.drawn.answers)).take maxlen)] } := by
  rw [handshakeRead, run_bind_ok (tryRead_ok h)]
  rfl

theorem handshakeRead_retry {frame : Bytes} {maxlen : Nat} {k : FailKind} (h0 : s.answerAt s.drawn.answers = .fail k)
    (h1 : answered (s.answerAt (s.drawn.answers + 1)) = true) :
    handshakeRead frame maxlen s = .ok ((answerBytes (s.answerAt (s.drawn.answers + 1))).take maxlen)
      { s.lostTap.drewAnswers 2 with
        history := s.history ++ [.write frame, .fail .read,
          .read ((answerBytes (s.answerAt (s.drawn.answers + 1))).take maxlen)] } := by
  have h1' : answered ((State.lostTap { s.drewAnswers 1 with
      history := (s.drewAnswers 1).history ++ [.write frame, .fail .read] }).answerAt (s.drawn.answers + 1)) = true := h1
  rw [handshakeRead, run_bind_ok (tryRead_fail h0)]
  simp only
  rw [run_bind_ok (run_record _ _), run_bind_ok (run_loseTap _), run_bind_ok (usbRead_ok h1'),
    run_bind_ok (run_record _ _), run_pure]
  simp [State.answerAt, State.lostTap, State.devTapAt]

/-- The second failed read in a row raises (R250). -/
theorem handshakeRead_fails {frame : Bytes} {maxlen : Nat} {k k' : FailKind}
    (h0 : s.answerAt s.drawn.answers = .fail k) (h1 : s.answerAt (s.drawn.answers + 1) = .fail k') :
    handshakeRead frame maxlen s = raiseTransport false (readKind k')
      { s.lostTap.drewAnswers 2 with history := s.history ++ [.write frame, .fail .read] } := by
  have h1' : (State.lostTap { s.drewAnswers 1 with
      history := (s.drewAnswers 1).history ++ [.write frame, .fail .read] }).answerAt (s.drawn.answers + 1) = .fail k' := h1
  rw [handshakeRead, run_bind_ok (tryRead_fail h0)]
  simp only
  rw [run_bind_ok (run_record _ _), run_bind_ok (run_loseTap _), run_bind_error (e := .raised) (usbRead_fail h1')]
  rfl

theorem openSession_answered {cfg : SessionConfig} (h : s.AnswersOk 3) :
    openSession cfg s =
      let t := s.shookHands cfg [.write infoFrame, .read (s.infoResponse 2)] 3
      if infoChecksumOk s.params (s.infoResponse 2) then .ok () t.openedSession
      else .error .raised (t.enterError .deviceIdentityError (.checksum (s.infoResponse 2))) := by
  have h0 : answered (State.answerAt { s with cfg := cfg } s.drawn.answers) = true := h 0 (by omega)
  have h1 : answered ((State.drewAnswers { s with cfg := cfg } 1).answerAt (s.drawn.answers + 1)) = true :=
    h 1 (by omega)
  have h2 : answered (((State.drewAnswers { s with cfg := cfg } 1).drewAnswers 1).answerAt (s.drawn.answers + 2)) =
    true := h 2 (by omega)
  rw [openSession, run_modify_bind, run_bind_ok (transportOpen_ok h0), run_bind_ok (usbWrite_ok h1), run_get_bind,
    run_bind_ok (handshakeRead_first h2)]
  change (if infoChecksumOk s.params (s.infoResponse 2) then enterOpen else _ : Op Unit) _ = _
  rw [run_ite]
  rfl

/-- The handshake whose first read fails and whose second succeeds (R250). -/
theorem openSession_retried {cfg : SessionConfig} {k : FailKind} (h : s.AnswersOk 2)
    (hf : s.answerAt (s.drawn.answers + 2) = .fail k) (hr : answered (s.answerAt (s.drawn.answers + 3)) = true) :
    openSession cfg s =
      let t := s.lostTap.shookHands cfg [.write infoFrame, .fail .read, .read (s.infoResponse 3)] 4
      if infoChecksumOk s.params (s.infoResponse 3) then .ok () t.openedSession
      else .error .raised (t.enterError .deviceIdentityError (.checksum (s.infoResponse 3))) := by
  have h0 : answered (State.answerAt { s with cfg := cfg } s.drawn.answers) = true := h 0 (by omega)
  have h1 : answered ((State.drewAnswers { s with cfg := cfg } 1).answerAt (s.drawn.answers + 1)) = true :=
    h 1 (by omega)
  have h2 : (((State.drewAnswers { s with cfg := cfg } 1).drewAnswers 1).answerAt (s.drawn.answers + 2)) = .fail k := hf
  have h3 : answered (((State.drewAnswers { s with cfg := cfg } 1).drewAnswers 1).answerAt (s.drawn.answers + 3)) =
    true := hr
  rw [openSession, run_modify_bind, run_bind_ok (transportOpen_ok h0), run_bind_ok (usbWrite_ok h1), run_get_bind,
    run_bind_ok (handshakeRead_retry h2 h3)]
  change (if infoChecksumOk s.params (s.infoResponse 3) then enterOpen else _ : Op Unit) _ = _
  rw [run_ite]
  rfl

/-! ### Identification -/

theorem readIdcode_ok (hs : s.session ≠ .closed) (ht : s.tap = .known .runTestIdle) (h : s.AnswersOk 96) :
    readIdcode s = .ok (wordOf (s.tdos 14 32))
      { s.loaded (irBits s.params.instrIdcode) (bitsOf 32 0) with deviceId := some (wordOf (s.tdos 14 32)) } := by
  have hlen : (loadTicks (irBits s.params.instrIdcode) (bitsOf 32 0)).length = 48 := by
    rw [loadTicks_length _ _ (irBits_length _), dwellTicks_of_ne (bitsOf_ne_nil (by decide)), operandTicks_length,
      bitsOf_length]
  rw [readIdcode, run_get_bind, if_neg hs,
    run_bind_ok (loadInstructionThenData_ok ht (irBits_length _) (by rw [hlen]; exact h))]
  simp only [bitsOf_length]
  rfl

theorem readUsercode_ok (hs : s.session = .identified) (ht : s.tap = .known .runTestIdle) (h : s.AnswersOk 96) :
    readUsercode s = .ok (wordOf (s.tdos 14 32)) (s.loaded (irBits s.params.instrUsercode) (bitsOf 32 0)) := by
  have hlen : (loadTicks (irBits s.params.instrUsercode) (bitsOf 32 0)).length = 48 := by
    rw [loadTicks_length _ _ (irBits_length _), dwellTicks_of_ne (bitsOf_ne_nil (by decide)), operandTicks_length,
      bitsOf_length]
  rw [readUsercode, run_bind_ok (requireIdentified_ok hs), run_get_bind,
    run_bind_ok (loadInstructionThenData_ok ht (irBits_length _) (by rw [hlen]; exact h))]
  simp only [bitsOf_length]
  rfl

/-! ### Configuration -/

theorem configureFpga_eq {bitstream : Bytes} {t : State} (hs : s.session = .identified)
    (h : seqOps (configureSeq s.params bitstream) s = .ok () t) :
    configureFpga bitstream s = assertState .runTestIdle { t with caps := none } := by
  rw [configureFpga, run_bind_ok (requireIdentified_ok hs), run_get_bind, run_bind_ok h]
  rfl

end Sys2Proof.Machine
end

