-- ==== Sys2Proof/Laws/Invariant.lean ====
section
/-! SUPPORT. One induction for every claim about all steps: a predicate that each single update of the state keeps is kept
by every operation, and so by every instruction and every step. `I` is what holds while nothing has been raised, `E`
what holds after an error; an invariant takes both alike. -/

namespace Sys2Proof.Machine

variable {W : Effect → Prop} {I E F : State → Prop}

/-- The updates that also happen while an operation is ending (the pin release of R224). -/
structure Stable (W : Effect → Prop) (P : State → Prop) : Prop where
  drawn : ∀ s d, P s → P { s with drawn := d }
  record : ∀ s events, P s → halfDuplex events = true → errorEvents events = [] →
    P { s with history := s.history ++ events }
  pin : W .flashPin → ∀ s p, P s → P { s with flashPin := p }

/-- What the updates of the operations do to `I`, and what a raise makes of it. The updates of a field in `Effect` are
asked for only where the operations in question may write it (`W`). -/
structure Closed (W : Effect → Prop) (I E : State → Prop) : Prop where
  stable : Stable W I
  raise : ∀ s code info, I s → E (s.enterError code info)
  raisedPin : W .flashPin → ∀ s p, E s → E { s with flashPin := p }
  tick : ∀ s b tms tdi tdo, I s → I (s.portTick b tms tdi tdo)
  pending : ∀ (s : State) (clean : Bool) (x : BitSeq), I s → s.tap ≠ .unknown → x.length = 6 →
    I { s with pendingIR := if clean then .instr x else .unknown }
  forget : W .caps → ∀ s, I s → I { s with caps := none, lastIR := .unknown, pendingIR := .unknown, tap := .unknown }
  caps : W .caps → ∀ s c, I s → I { s with caps := c }
  status : W .status → ∀ s w, I s → I { s with status := some w }
  deviceId : W .deviceId → ∀ s w, I s → I { s with deviceId := some w }
  geom : W .geom → ∀ s g, I s → validGeometry g = true → I { s with geom := some g }
  busy : ∀ s b, I s → I { s with busy := b }

/-- What the pin release makes of `E`: it stays where the release succeeds, and the TransportError of a release that
failed makes it `F` (R305, R307). -/
structure Ending (W : Effect → Prop) (E F : State → Prop) : Prop where
  stable : Stable W E
  again : W .flashPin → ∀ s k, E s → s.session = .identified →
    F { s.enterError .transportError (.transport k) with flashPin := .unknown }
  weaken : ∀ s, E s → F s

/-- What a pin release that is turned away makes of `E`: no run has one, since an operation that waits between polls has
an identified session (`WaitsIdentified`). -/
def Stray (E F : State → Prop) : Prop :=
  ∀ s, E s → s.session ≠ .identified → F (s.enterError .deviceIdentityError (.session s.session))

/-- An invariant is its own end. -/
theorem Closed.ending (hc : Closed W I I) : Ending W I I where
  stable := hc.stable
  again := fun hw s _ h _ => hc.stable.pin hw _ _ (hc.raise s _ _ h)
  weaken := fun _ h => h

theorem Closed.stray (hc : Closed W I I) : Stray I I :=
  fun s h _ => hc.raise s _ _ h

/-- No update of an operation writes the session. -/
theorem Closed.session (hc : Closed W I E) (v : Session) :
    Closed W (fun s => I s ∧ s.session = v) (fun s => E s ∧ s.session = v) where
  stable := {
    drawn := fun s d h => ⟨hc.stable.drawn s d h.1, h.2⟩
    record := fun s e h h1 h2 => ⟨hc.stable.record s e h.1 h1 h2, h.2⟩
    pin := fun w s p h => ⟨hc.stable.pin w s p h.1, h.2⟩ }
  raise := fun s code info h => ⟨hc.raise s code info h.1, (enterError_session s code info).trans h.2⟩
  raisedPin := fun w s p h => ⟨hc.raisedPin w s p h.1, h.2⟩
  tick := fun s b tms tdi tdo h => ⟨hc.tick s b tms tdi tdo h.1, h.2⟩
  pending := fun s c x h h1 h2 => ⟨hc.pending s c x h.1 h1 h2, h.2⟩
  forget := fun w s h => ⟨hc.forget w s h.1, h.2⟩
  caps := fun w s c h => ⟨hc.caps w s c h.1, h.2⟩
  status := fun w s x h => ⟨hc.status w s x h.1, h.2⟩
  deviceId := fun w s x h => ⟨hc.deviceId w s x h.1, h.2⟩
  geom := fun w s g h h1 => ⟨hc.geom w s g h.1 h1, h.2⟩
  busy := fun s b h => ⟨hc.busy s b h.1, h.2⟩

/-- The middle step of `reset()` (R110). -/
def ResetOk (I : State → Prop) : Prop :=
  ∀ s, I s → s.devTap = .testLogicReset →
    I { s with tap := .known .testLogicReset, lastIR := .unknown, pendingIR := .unknown }

theorem ResetOk.session (hr : ResetOk I) (v : Session) : ResetOk fun s => I s ∧ s.session = v :=
  fun s h hd => ⟨hr s h.1 hd, h.2⟩

/-- The writes of `openSession` (R250): its configuration, the open session, and what a failed read loses. -/
def OpenOk (I : State → Prop) : Prop :=
  (∀ s c, I s → I { s with cfg := c }) ∧ (∀ s, I s → I s.openedSession) ∧ ∀ s, I s → I s.lostTap

/-- The write of `checkIdentity` (R253). -/
def IdentityOk (I : State → Prop) : Prop :=
  ∀ s, I s → s.deviceId = some Config.expectedIdcode → I { s with session := .identified }

/-- How an operation leaves the state: `I` where it completes or waits for a poll, on an identified session, and `E` where
it raises. -/
def Leaves {α : Type} (I E : State → Prop) : EStateM.Result Exit State α → Prop
  | .ok _ t => I t
  | .error .waiting t => ∃ u b, I u ∧ u.session = .identified ∧ t = { u with busy := some b }
  | .error .raised t => E t

/-- An operation keeps `I`, and establishes `E` where it raises. -/
structure Keeps {α : Type} (I E : State → Prop) (op : Op α) : Prop where
  leaves : ∀ s, I s → Leaves I E (op s)

/-! ### Sequencing -/

theorem Keeps.weaken {α : Type} {op : Op α} (h : Keeps I E op) (hw : ∀ s, E s → F s) : Keeps I F op := by
  refine ⟨fun s hs => ?_⟩
  have h1 := h.leaves s hs
  cases hr : op s with
  | ok a t => rw [hr] at h1; exact h1
  | error e t =>
    rw [hr] at h1
    cases e with
    | raised => exact hw t h1
    | waiting => exact h1

theorem keeps_pure {α : Type} (a : α) : Keeps I E (pure a : Op α) :=
  ⟨fun _ h => h⟩

theorem keeps_get : Keeps I E (get : Op State) :=
  ⟨fun _ h => h⟩

theorem keeps_bind {α β : Type} {x : Op α} {f : α → Op β} (hx : Keeps I E x) (hf : ∀ a, Keeps I E (f a)) :
    Keeps I E (x >>= f) := by
  refine ⟨fun s h => ?_⟩
  have h1 := hx.leaves s h
  cases hr : x s with
  | ok a t =>
    rw [hr] at h1
    rw [run_bind_ok hr]
    exact (hf a).leaves t h1
  | error e t =>
    rw [hr] at h1
    rw [run_bind_error hr]
    cases e <;> exact h1

theorem keeps_get_bind {α : Type} {f : State → Op α} (hf : ∀ s, Keeps I E (f s)) :
    Keeps I E ((get : Op State) >>= f) :=
  ⟨fun s h => (hf s).leaves s h⟩

theorem keeps_ite {α : Type} {c : Prop} [Decidable c] {x y : Op α} (hx : Keeps I E x) (hy : Keeps I E y) :
    Keeps I E (if c then x else y) := by
  split
  · exact hx
  · exact hy

theorem keeps_modify {g : State → State} (hg : ∀ s, I s → I (g s)) : Keeps I E (modify g : Op PUnit) :=
  ⟨fun s h => hg s h⟩

theorem keeps_ignoring {α : Type} {op : Op α} (h : Keeps I E op) : Keeps I E (ignoring op) :=
  keeps_bind h fun _ => keeps_pure _

/-! ### What a tick that completes has done -/

theorem bind_ok_inv {α β : Type} {x : Op α} {f : α → Op β} {s t : State} {b : β} (h : (x >>= f) s = .ok b t) :
    ∃ a u, x s = .ok a u ∧ f a u = .ok b t := by
  cases hx : x s with
  | ok a u => exact ⟨a, u, rfl, by rw [run_bind_ok hx] at h; exact h⟩
  | error e u => rw [run_bind_error hx] at h; cases h

theorem answersOk_two {s : State} (h0 : answered (s.answerAt s.drawn.answers) = true)
    (h1 : answered (s.answerAt (s.drawn.answers + 1)) = true) : s.AnswersOk 2 := by
  intro k hk
  match k, hk with
  | 0, _ => exact h0
  | 1, _ => exact h1

/-- A tick completes only where both of its transport calls succeed. -/
theorem tickIn_answered {b tms tdi a : Bool} {s t : State} (h : tickIn b tms tdi s = .ok a t) : s.AnswersOk 2 := by
  obtain ⟨_, u, h0, h⟩ := bind_ok_inv h
  cases ha : s.answerAt s.drawn.answers with
  | fail k => rw [usbWrite_fail ha] at h0; cases h0
  | ok bytes =>
    have ha' : answered (s.answerAt s.drawn.answers) = true := by rw [ha]; rfl
    rw [usbWrite_ok ha'] at h0
    cases h0
    rw [run_get_bind] at h
    obtain ⟨_, v, h1, _⟩ := bind_ok_inv h
    cases hb : s.answerAt (s.drawn.answers + 1) with
    | fail k =>
      rw [usbRead_fail (show (s.drewAnswers 1).answerAt (s.drewAnswers 1).drawn.answers = .fail k from hb)] at h1
      cases h1
    | ok bytes' => exact answersOk_two ha' (by rw [hb]; rfl)

theorem tickIn_inv {b tms tdi a : Bool} {s t : State} (h : tickIn b tms tdi s = .ok a t) :
    t = s.ticked [(tms, tdi)] (trackIR b s.tap [tms] (s.lastIR, s.pendingIR)) := by
  rw [tickIn_ok (tickIn_answered h)] at h
  cases h
  rfl

theorem goto_devTap {seq : BitSeq} {s t : State} {a : Unit} (h : goto seq s = .ok a t) :
    t.devTap = walk s.devTap seq := by
  induction seq generalizing s with
  | nil => cases h; rfl
  | cons x seq ih =>
    obtain ⟨_, u, h0, h⟩ := bind_ok_inv h
    rw [ih h, tickIn_inv h0]
    rfl

theorem nextTracked_known {p : Tracked} {tms : Bool} (h : p ≠ .unknown) : nextTracked p tms ≠ .unknown := by
  cases p with
  | unknown => exact absurd rfl h
  | known t => simp [nextTracked]

theorem shiftBits_known {b : Bool} {bits a : BitSeq} {s t : State} (h : shiftBits b bits s = .ok a t)
    (ht : s.tap ≠ .unknown) : t.tap ≠ .unknown := by
  match bits with
  | [] => cases h; exact ht
  | [x] =>
    obtain ⟨_, u, h0, h⟩ := bind_ok_inv h
    cases h
    rw [tickIn_inv h0]
    exact nextTracked_known ht
  | x :: y :: more =>
    obtain ⟨_, u, h0, h⟩ := bind_ok_inv h
    obtain ⟨_, v, h1, h⟩ := bind_ok_inv h
    cases h
    refine shiftBits_known h1 ?_
    rw [tickIn_inv h0]
    exact nextTracked_known ht

/-! ### The shared operations -/

section
variable (hc : Closed W I E)
include hc

theorem keeps_raise {α : Type} (code : ErrorCode) (info : ErrorInfo) : Keeps I E (raise code info : Op α) :=
  ⟨fun s h => hc.raise s code info h⟩

theorem keeps_raiseTransport {α : Type} {pin : Bool} (hp : pin = true → W .flashPin) (k : FailKind) :
    Keeps I E (raiseTransport pin k : Op α) := by
  refine ⟨fun s h => ?_⟩
  cases pin with
  | false =>
    rw [show raiseTransport (α := α) false k s = .error .raised (s.enterError .transportError (.transport k)) from rfl]
    exact hc.raise s _ _ h
  | true => exact hc.raisedPin (hp rfl) _ _ (hc.raise s _ _ h)

theorem keeps_drawAnswer : Keeps I E drawAnswer :=
  ⟨fun s h => hc.stable.drawn s _ h⟩

theorem keeps_drawTdo : Keeps I E drawTdo :=
  ⟨fun s h => hc.stable.drawn s _ h⟩

theorem keeps_drawTdos (n : Nat) : Keeps I E (drawTdos n) := by
  induction n with
  | zero => exact keeps_pure _
  | succ n ih => exact keeps_bind (keeps_drawTdo hc) fun _ => keeps_bind ih fun _ => keeps_pure _

theorem keeps_transportOpen : Keeps I E transportOpen := by
  refine keeps_bind (keeps_drawAnswer hc) fun a => ?_
  cases a with
  | ok => exact keeps_pure _
  | fail k => exact keeps_raiseTransport hc (pin := false) (fun h => nomatch h) _

theorem keeps_usbWrite {pin : Bool} (hp : pin = true → W .flashPin) (bytes : Bytes) :
    Keeps I E (usbWrite pin bytes) := by
  refine keeps_bind (keeps_drawAnswer hc) fun a => ?_
  cases a with
  | ok => exact keeps_pure _
  | fail k => exact keeps_raiseTransport hc hp _

theorem keeps_tryRead (n : Nat) : Keeps I E (tryRead n) := by
  refine keeps_bind (keeps_drawAnswer hc) fun a => ?_
  cases a <;> exact keeps_pure _

theorem keeps_usbRead {pin : Bool} (hp : pin = true → W .flashPin) (n : Nat) : Keeps I E (usbRead pin n) := by
  refine keeps_bind (keeps_tryRead hc n) fun a => ?_
  cases a with
  | ok => exact keeps_pure _
  | error k => exact keeps_raiseTransport hc hp _

theorem keeps_record {events : List Event} (h1 : halfDuplex events = true) (h2 : errorEvents events = []) :
    Keeps I E (record events) :=
  ⟨fun s h => hc.stable.record s events h h1 h2⟩

theorem keeps_portTick (b tms tdi tdo : Bool) : Keeps I E (portTick b tms tdi tdo) :=
  ⟨fun s h => hc.tick s b tms tdi tdo h⟩

theorem keeps_portTicks (l : List (Bool × Bool × Bool)) : Keeps I E (portTicks l) := by
  induction l with
  | nil => exact keeps_pure _
  | cons t l ih => exact keeps_bind (keeps_portTick hc ..) fun _ => ih

theorem keeps_tickIn (b tms tdi : Bool) : Keeps I E (tickIn b tms tdi) :=
  keeps_bind (keeps_usbWrite hc (pin := false) (fun h => nomatch h) _) fun _ => keeps_get_bind fun _ =>
    keeps_bind (keeps_usbRead hc (pin := false) (fun h => nomatch h) _) fun _ =>
    keeps_bind (keeps_drawTdo hc) fun _ => keeps_bind (keeps_portTick hc ..) fun _ => keeps_pure _

theorem keeps_tick (tms tdi : Bool) : Keeps I E (tick tms tdi) := keeps_tickIn hc ..

theorem keeps_shiftBits (b : Bool) (bits : BitSeq) : Keeps I E (shiftBits b bits) := by
  match bits with
  | [] => exact keeps_pure _
  | [x] => exact keeps_bind (keeps_tickIn hc ..) fun _ => keeps_pure _
  | x :: y :: more =>
    exact keeps_bind (keeps_tickIn hc ..) fun _ => keeps_bind (keeps_shiftBits b (y :: more)) fun _ => keeps_pure _

theorem keeps_makeBits (c v : Nat) : Keeps I E (makeBits c v) := keeps_ite (keeps_pure _) (keeps_raise hc ..)
theorem keeps_fromBytes (l : Bytes) (c : Nat) : Keeps I E (fromBytes l c) :=
  keeps_ite (keeps_pure _) (keeps_raise hc ..)
theorem keeps_payloadBytes (b : BitSeq) : Keeps I E (payloadBytes b) := keeps_ite (keeps_pure _) (keeps_raise hc ..)
theorem keeps_le32 (n : Nat) : Keeps I E (le32 n) := keeps_ite (keeps_pure _) (keeps_raise hc ..)

theorem keeps_exchange {op : Byte} (hp : op = 0x50 → W .flashPin) (payload : Bytes) : Keeps I E (exchange op payload) :=
  have hp' : (op == 0x50) = true → W .flashPin := fun h => hp (eq_of_beq h)
  keeps_bind (keeps_usbWrite hc hp' _) fun _ => keeps_get_bind fun _ => keeps_bind (keeps_usbRead hc hp' _) fun _ =>
    keeps_bind (keeps_record hc rfl rfl) fun _ => keeps_pure _

theorem keeps_portFrame {op : Byte} (hp : op = 0x50 → W .flashPin) (payload : Bytes) (ticks : List (Bool × Bool)) :
    Keeps I E (portFrame op payload ticks) :=
  keeps_bind (keeps_exchange hc hp _) fun _ => keeps_bind (keeps_drawTdos hc _) fun _ =>
    keeps_bind (keeps_portTicks hc _) fun _ => keeps_pure _

/-! ### TAP operations -/

theorem keeps_goto (seq : BitSeq) : Keeps I E (goto seq) := by
  induction seq with
  | nil => exact keeps_pure _
  | cons t seq ih => exact keeps_bind (keeps_tick hc ..) fun _ => ih

theorem keeps_assertState (e : TapState) : Keeps I E (assertState e) :=
  keeps_get_bind fun _ => keeps_ite (keeps_pure _) (keeps_raise hc ..)

theorem keeps_gotoState (t : TapState) : Keeps I E (gotoState t) := by
  refine keeps_get_bind fun s => ?_
  cases s.tap with
  | unknown => exact keeps_raise hc ..
  | known u => exact keeps_bind (keeps_goto hc _) fun _ => keeps_assertState hc _

theorem keeps_shiftInstruction (instr : BitSeq) : Keeps I E (shiftInstruction instr) := by
  refine ⟨fun s h => ?_⟩
  by_cases ht : s.tap = .known .shiftIr
  swap
  · rw [shiftInstruction_tap_raises ht]; exact hc.raise _ _ _ h
  by_cases hl : instr.length = 6
  swap
  · rw [shiftInstruction_length_raises ht hl]; exact hc.raise _ _ _ h
  rw [shiftInstruction, run_get_bind, if_neg (by simp [ht]), if_neg (by simp [hl, Config.irWidth])]
  have hk := (keeps_shiftBits hc true instr).leaves s h
  cases hr : shiftBits true instr s with
  | ok a u =>
    rw [hr] at hk
    rw [run_bind_ok hr]
    exact hc.pending u _ instr hk (shiftBits_known hr (by simp [ht])) hl
  | error e u =>
    rw [hr] at hk
    rw [run_bind_error hr]
    cases e <;> exact hk

theorem keeps_shiftData (bits : BitSeq) (r : Bool) : Keeps I E (shiftData bits r) :=
  keeps_get_bind fun _ => keeps_ite (keeps_raise hc ..) (keeps_ite (keeps_raise hc ..)
    (keeps_bind (keeps_shiftBits hc ..) fun _ => keeps_pure _))

theorem keeps_loadData (data : BitSeq) (r : Bool) : Keeps I E (loadData data r) :=
  keeps_ite (keeps_bind (keeps_tick hc ..) fun _ => keeps_pure _) (keeps_shiftData hc ..)

theorem keeps_loadInstructionThenData (instr data : BitSeq) (r : Bool) :
    Keeps I E (loadInstructionThenData instr data r) :=
  keeps_bind (keeps_assertState hc _) fun _ => keeps_bind (keeps_goto hc _) fun _ =>
  keeps_bind (keeps_assertState hc _) fun _ => keeps_bind (keeps_shiftInstruction hc _) fun _ =>
  keeps_bind (keeps_assertState hc _) fun _ => keeps_bind (keeps_goto hc _) fun _ =>
  keeps_bind (keeps_assertState hc _) fun _ => keeps_bind (keeps_loadData hc ..) fun _ =>
  keeps_bind (keeps_assertState hc _) fun _ => keeps_bind (keeps_goto hc _) fun _ =>
  keeps_bind (keeps_assertState hc _) fun _ => keeps_pure _

theorem keeps_scanDR (data : BitSeq) (r : Bool) : Keeps I E (scanDR data r) :=
  keeps_bind (keeps_assertState hc _) fun _ => keeps_bind (keeps_goto hc _) fun _ =>
  keeps_bind (keeps_assertState hc _) fun _ => keeps_bind (keeps_shiftData hc ..) fun _ =>
  keeps_bind (keeps_assertState hc _) fun _ => keeps_bind (keeps_goto hc _) fun _ =>
  keeps_bind (keeps_assertState hc _) fun _ => keeps_pure _

theorem keeps_tapReset (hr : ResetOk I) : Keeps I E tapReset := by
  refine ⟨fun s h => ?_⟩
  have hk := (keeps_goto hc (List.replicate Config.resetOnes true)).leaves s h
  cases hg : goto (List.replicate Config.resetOnes true) s with
  | ok a u =>
    rw [hg] at hk
    rw [tapReset, run_bind_ok hg]
    have hd : u.devTap = .testLogicReset := by rw [goto_devTap hg]; exact walk_five_ones _
    rw [run_bind_ok run_enterTestLogicReset]
    exact (keeps_bind (keeps_tick hc ..) fun _ => keeps_pure _).leaves _ (hr u hk hd)
  | error e u =>
    rw [hg] at hk
    rw [tapReset, run_bind_error hg]
    cases e <;> exact hk

/-! ### Frames -/

theorem keeps_flashOnOff (hp : W .flashPin) (on : Bool) : Keeps I E (flashOnOff on) :=
  keeps_bind (keeps_exchange hc (fun _ => hp) _) fun _ => keeps_modify fun s h => hc.stable.pin hp s _ h

theorem keeps_info (payload : Bytes) : Keeps I E (info payload) :=
  keeps_exchange hc (absurd · (by decide)) _

theorem keeps_writeEedata (a v : Byte) : Keeps I E (writeEedata a v) :=
  keeps_bind (keeps_exchange hc (absurd · (by decide)) _) fun _ => keeps_pure _

theorem keeps_prog (hw : W .caps) (p : Bytes) : Keeps I E (prog p) :=
  keeps_bind (keeps_exchange hc (absurd · (by decide)) _) fun _ => keeps_modify fun s h => hc.forget hw s h

theorem keeps_tmsTdi (a b : Bool) : Keeps I E (tmsTdi a b) :=
  keeps_bind (keeps_portFrame hc (absurd · (by decide)) ..) fun _ => keeps_pure _

theorem keeps_tmsTdiTdo (a b : Bool) : Keeps I E (tmsTdiTdo a b) :=
  keeps_bind (keeps_portFrame hc (absurd · (by decide)) ..) fun _ => keeps_pure _

theorem keeps_bulkPayload (bits : BitSeq) : Keeps I E (bulkPayload bits) :=
  keeps_get_bind fun _ => keeps_bind (keeps_le32 hc _) fun _ => keeps_pure _

theorem keeps_tdiTdo (bits : BitSeq) (m : Bool) : Keeps I E (tdiTdo bits m) :=
  keeps_ite (keeps_raise hc ..) (keeps_bind (keeps_bulkPayload hc _) fun _ =>
    keeps_bind (keeps_portFrame hc (absurd · (by decide)) ..) fun _ => keeps_fromBytes hc ..)

theorem keeps_tdi (bits : BitSeq) (m : Bool) : Keeps I E (tdi bits m) :=
  keeps_ite (keeps_raise hc ..) (keeps_bind (keeps_bulkPayload hc _) fun _ =>
    keeps_bind (keeps_portFrame hc (absurd · (by decide)) ..) fun _ => keeps_pure _)

theorem keeps_tapSeq (seq : BitSeq) : Keeps I E (tapSeq seq) :=
  keeps_ite (keeps_pure _) (keeps_bind (keeps_portFrame hc (absurd · (by decide)) ..) fun _ => keeps_pure _)

theorem keeps_sendFrame {op : Byte} (hp : op = 0x50 → W .flashPin) (p : Bytes) : Keeps I E (sendFrame op p) :=
  keeps_get_bind fun _ => keeps_ite (keeps_portFrame hc hp ..) (keeps_exchange hc hp _)

theorem keeps_command {op : Byte} (hp : op = 0x50 → W .flashPin) (p : Bytes) : Keeps I E (command op p) :=
  keeps_ite (keeps_raise hc ..) (keeps_sendFrame hc hp _)

/-! ### Session -/

theorem keeps_handshakeRead (hl : ∀ s, I s → I s.lostTap) (frame : Bytes) (n : Nat) : Keeps I E (handshakeRead frame n) := by
  refine keeps_bind (keeps_tryRead hc n) fun a => ?_
  cases a with
  | ok resp => exact keeps_bind (keeps_record hc rfl rfl) fun _ => keeps_pure _
  | error k =>
    exact keeps_bind (keeps_record hc rfl rfl) fun _ => keeps_bind (x := loseTap) ⟨fun s h => hl s h⟩ fun _ =>
      keeps_bind (keeps_usbRead hc (pin := false) (fun h => nomatch h) _) fun _ =>
      keeps_bind (keeps_record hc rfl rfl) fun _ => keeps_pure _

theorem keeps_openSession (ho : OpenOk I) (cfg : SessionConfig) : Keeps I E (openSession cfg) :=
  keeps_bind (keeps_modify fun s h => ho.1 s cfg h) fun _ => keeps_bind (keeps_transportOpen hc) fun _ =>
  keeps_bind (keeps_usbWrite hc (pin := false) (fun h => nomatch h) _) fun _ => keeps_get_bind fun _ =>
    keeps_bind (keeps_handshakeRead hc ho.2.2 ..)
    fun _ => keeps_ite (keeps_modify fun s h => ho.2.1 s h) (keeps_raise hc ..)

theorem keeps_requireIdentified : Keeps I E requireIdentified :=
  keeps_get_bind fun _ => keeps_ite (keeps_pure _) (keeps_raise hc ..)

theorem keeps_readIdcode (hw : W .deviceId) : Keeps I E readIdcode :=
  keeps_get_bind fun _ => keeps_ite (keeps_raise hc ..) (keeps_bind (keeps_loadInstructionThenData hc ..) fun _ =>
    keeps_bind (keeps_modify fun s h => hc.deviceId hw s _ h) fun _ => keeps_pure _)

theorem keeps_checkIdentity (hi : IdentityOk I) : Keeps I E checkIdentity := by
  refine ⟨fun s h => ?_⟩
  rw [checkIdentity, run_get_bind]
  split
  · exact hi s h ‹_›
  · exact hc.raise _ _ _ h

theorem keeps_readUsercode : Keeps I E readUsercode :=
  keeps_bind (keeps_requireIdentified hc) fun _ => keeps_get_bind fun _ =>
    keeps_bind (keeps_loadInstructionThenData hc ..) fun _ => keeps_pure _

theorem keeps_toggleProgPin (hw : W .caps) : Keeps I E toggleProgPin :=
  keeps_bind (keeps_requireIdentified hc) fun _ => keeps_prog hc hw _

theorem keeps_enableFlash (f : Bool) : Keeps I E (enableFlash f) :=
  keeps_get_bind fun _ => keeps_writeEedata hc ..

theorem keeps_seqOp (hw : W .caps) (hp : W .flashPin) (hr : ResetOk I) (op : SeqOp) : Keeps I E (seqOp op) := by
  cases op with
  | tick a b => exact keeps_ignoring (keeps_tick hc a b)
  | goto a => exact keeps_goto hc a
  | gotoState a => exact keeps_gotoState hc a
  | assertState a => exact keeps_assertState hc a
  | shiftInstruction a => exact keeps_shiftInstruction hc a
  | shiftData a b => exact keeps_ignoring (keeps_shiftData hc a b)
  | reset => exact keeps_tapReset hc hr
  | loadInstructionThenData a b c => exact keeps_ignoring (keeps_loadInstructionThenData hc a b c)
  | scanDR a b => exact keeps_ignoring (keeps_scanDR hc a b)
  | info a => exact keeps_ignoring (keeps_info hc a)
  | flashOnOff a => exact keeps_flashOnOff hc hp a
  | writeEedata a b => exact keeps_writeEedata hc a b
  | prog a => exact keeps_prog hc hw a
  | tmsTdi a b => exact keeps_tmsTdi hc a b
  | tmsTdiTdo a b => exact keeps_ignoring (keeps_tmsTdiTdo hc a b)
  | tdiTdo a b => exact keeps_ignoring (keeps_tdiTdo hc a b)
  | tdi a b => exact keeps_tdi hc a b
  | tapSeq a => exact keeps_tapSeq hc a
  | command a b => exact keeps_ignoring (keeps_command hc (fun _ => hp) b)

theorem keeps_seqOps (hw : W .caps) (hp : W .flashPin) (hr : ResetOk I) (l : List SeqOp) : Keeps I E (seqOps l) := by
  induction l with
  | nil => exact keeps_pure _
  | cons op l ih => exact keeps_bind (keeps_seqOp hc hw hp hr op) fun _ => ih

theorem keeps_configureFpga (hw : W .caps) (hp : W .flashPin) (hr : ResetOk I) (b : Bytes) :
    Keeps I E (configureFpga b) :=
  keeps_bind (keeps_requireIdentified hc) fun _ => keeps_get_bind fun _ => keeps_bind (keeps_seqOps hc hw hp hr _)
    fun _ => keeps_bind (keeps_modify fun s h => hc.caps hw s none h) fun _ => keeps_assertState hc _

theorem keeps_parseAddr (t : Text) : Keeps I E (parseAddr t) := by
  rw [parseAddr]
  split
  · exact keeps_pure _
  · exact keeps_raise hc ..

/-! ### Flash -/

theorem keeps_cmdScan (frame : BitSeq) : Keeps I E (cmdScan frame) :=
  keeps_bind (keeps_loadInstructionThenData hc ..) fun _ => keeps_pure _

theorem keeps_checkUser1 : Keeps I E checkUser1 :=
  keeps_bind (keeps_requireIdentified hc) fun _ => keeps_get_bind fun _ => keeps_ite (keeps_pure _) (keeps_raise hc ..)

theorem keeps_respScan (n : Nat) : Keeps I E (respScan n) :=
  keeps_bind (keeps_checkUser1 hc) fun _ => keeps_scanDR hc ..

theorem keeps_payScan (bits : BitSeq) : Keeps I E (payScan bits) :=
  keeps_bind (keeps_checkUser1 hc) fun _ => keeps_bind (keeps_scanDR hc ..) fun _ => keeps_pure _

theorem keeps_probeCapabilities (hw : W .caps) : Keeps I E probeCapabilities :=
  keeps_bind (keeps_requireIdentified hc) fun _ => keeps_get_bind fun _ => keeps_bind (keeps_cmdScan hc _) fun _ =>
    keeps_bind (keeps_respScan hc _) fun _ => keeps_bind (keeps_modify fun s h => hc.caps hw s _ h) fun _ => keeps_pure _

theorem keeps_ensureCapability (hw : W .caps) (hp : W .flashPin) (hr : ResetOk I) (b : Nat) (start : Bool) :
    Keeps I E (ensureCapability b start) :=
  keeps_bind (keeps_requireIdentified hc) fun _ => keeps_bind (keeps_probeCapabilities hc hw) fun _ =>
    keeps_ite (keeps_pure _) (keeps_ite (keeps_raise hc ..) (keeps_get_bind fun _ =>
      keeps_bind (keeps_configureFpga hc hw hp hr _) fun _ => keeps_bind (keeps_probeCapabilities hc hw) fun _ =>
        keeps_ite (keeps_pure _) (keeps_raise hc ..)))

theorem keeps_readGeometry (hw : W .geom) : Keeps I E readGeometry := by
  refine keeps_bind (keeps_requireIdentified hc) fun _ => keeps_get_bind fun _ => keeps_bind (keeps_cmdScan hc _)
    fun _ => keeps_bind (keeps_respScan hc _) fun r => ?_
  by_cases hg : validGeometry (geometryOf (toInt r)) = true
  · simp only [hg, if_true]
    exact keeps_bind (keeps_modify fun s h => hc.geom hw s _ h hg) fun _ => keeps_pure _
  · simp only [hg]
    exact keeps_raise hc ..

theorem keeps_validateRange (a n : Nat) : Keeps I E (validateRange a n) :=
  keeps_bind (keeps_requireIdentified hc) fun _ => keeps_get_bind fun _ => keeps_ite (keeps_raise hc ..)
    (keeps_ite (keeps_raise hc ..) (keeps_pure _))

omit hc in
/-- A response scan that completes ran on an identified session, and did not change it. -/
theorem respScan_session {n : Nat} {s t : State} {r : BitSeq} (h : respScan n s = .ok r t) :
    t.session = .identified := by
  have hs : s.session = .identified := by
    obtain ⟨_, u, h0, _⟩ := bind_ok_inv h
    obtain ⟨_, v, h1, _⟩ := bind_ok_inv h0
    by_contra hn
    rw [requireIdentified_raises hn] at h1
    cases h1
  have ht : Closed (fun _ => True) (fun _ => True) fun _ => True := by
    refine ⟨⟨?_, ?_, ?_⟩, ?_, ?_, ?_, ?_, ?_, ?_, ?_, ?_, ?_, ?_⟩ <;> intros <;> trivial
  have h1 := (keeps_bind (keeps_checkUser1 (ht.session .identified)) fun _ =>
    keeps_scanDR (ht.session .identified) (bitsOf n 0) true).leaves s ⟨trivial, hs⟩
  rw [show (checkUser1 >>= fun _ => scanDR (bitsOf n 0) true) s = .ok r t from h] at h1
  exact h1.2

theorem keeps_pollOnce (hw : W .status) (k : Nat) (rest : Rest) : Keeps I E (pollOnce k rest) := by
  refine keeps_get_bind fun _ => keeps_ite (keeps_raise hc ..) ⟨fun s h => ?_⟩
  have h1 := (keeps_respScan hc 32).leaves s h
  cases hr : respScan 32 s with
  | error e t =>
    rw [hr] at h1
    rw [run_bind_error hr]
    cases e <;> exact h1
  | ok r t =>
    rw [hr] at h1
    rw [run_bind_ok hr, run_modify_bind]
    have h2 := hc.status hw t (wordOf r) h1
    have h3 : t.session = .identified := respScan_session hr
    rw [pollVerdict]
    split
    · exact h2
    · exact hc.raise _ _ _ h2
    · exact ⟨{ t with status := some (wordOf r) }, _, h2, h3, rfl⟩

theorem keeps_pollUntilTerminal (hw : W .status) (rest : Rest) : Keeps I E (pollUntilTerminal rest) :=
  keeps_bind (keeps_requireIdentified hc) fun _ => keeps_pollOnce hc hw ..

theorem keeps_eraseFlash (hw : W .status) (rest : Rest) : Keeps I E (eraseFlash rest) :=
  keeps_bind (keeps_requireIdentified hc) fun _ => keeps_get_bind fun _ => keeps_bind (keeps_cmdScan hc _) fun _ =>
    keeps_pollUntilTerminal hc hw _

theorem keeps_addressedFrame (sub : SubCode) (g : Geometry) (a n : Nat) : Keeps I E (addressedFrame sub g a n) :=
  keeps_bind (keeps_makeBits hc ..) fun _ => keeps_bind (keeps_makeBits hc ..) fun _ => keeps_pure _

theorem keeps_programChunk (hw : W .status) (a : Nat) (chunk : Bytes) (rest : Rest) :
    Keeps I E (programChunk a chunk rest) :=
  keeps_bind (keeps_requireIdentified hc) fun _ => keeps_get_bind fun _ =>
    keeps_bind (keeps_ite (keeps_raise hc ..) (keeps_pure _)) fun _ => keeps_bind (keeps_validateRange hc ..) fun _ =>
    keeps_bind (keeps_addressedFrame hc ..) fun _ => keeps_bind (keeps_cmdScan hc _) fun _ =>
    keeps_bind (keeps_payScan hc _) fun _ => keeps_pollUntilTerminal hc hw _

theorem keeps_setFlashPin (hp : W .flashPin) (on : Bool) : Keeps I E (setFlashPin on) :=
  keeps_bind (keeps_requireIdentified hc) fun _ => keeps_flashOnOff hc hp _

omit hc in
/-- The pin release after an error, whatever it does, makes `F` of `E`. -/
theorem release_of_error (he : Ending W E F) (hp : W .flashPin) {s : State} (hv : s.session = .identified ∨ Stray E F)
    (h : E s) :
    match releaseOnExit s with
    | .ok _ t => F t
    | .error _ t => F t := by
  by_cases hs : s.session = .identified
  swap
  · rw [show releaseOnExit s = _ from gated_raises hs]
    exact (hv.resolve_left hs) _ h hs
  have e : releaseOnExit s = flashOnOff false s := run_bind_ok (requireIdentified_ok hs)
  rw [e]
  cases h0 : s.answerAt s.drawn.answers with
  | fail k =>
    rw [flashOnOff, run_bind_error (e := .raised) (exchange_write_fails h0)]
    exact he.again hp _ _ (he.stable.drawn _ _ h) hs
  | ok bytes =>
    have h0' : answered (s.answerAt s.drawn.answers) = true := by rw [h0]; rfl
    cases h1 : s.answerAt (s.drawn.answers + 1) with
    | fail k =>
      rw [flashOnOff, run_bind_error (e := .raised) (exchange_read_fails h0' h1)]
      exact he.again hp _ _ (he.stable.drawn _ _ h) hs
    | ok bytes' =>
      rw [flashOnOff_ok (answersOk_two h0' (by rw [h1]; rfl))]
      have hd := he.stable.drawn s { s.drawn with answers := s.drawn.answers + 2 } h
      have hh := he.stable.record _
        [.write [0x50, flashOnOffByte false], .read (s.responseAt 0 0x50 [flashOnOffByte false])] hd rfl rfl
      exact he.weaken _ (he.stable.pin hp _ .released hh)

/-- An operation that keeps `I` on every session, inside a `try` with its pin release. -/
theorem leaves_releaseAfter (he : Ending W E F) (hp : W .flashPin) {α : Type} {body : Op α} {s : State}
    (hb : Keeps (fun t => I t ∧ t.session = s.session) (fun t => E t ∧ t.session = s.session) body)
    (hv : s.session = .identified ∨ Stray E F) (h : I s) : Leaves I F (releaseAfter body s) := by
  have h1 := hb.leaves s ⟨h, rfl⟩
  cases hr : body s with
  | ok a t =>
    rw [hr] at h1
    have h2 := ((keeps_setFlashPin hc hp false).weaken he.weaken).leaves t h1.1
    cases h3 : releaseOnExit t with
    | ok _ u =>
      rw [show setFlashPin false t = _ from h3] at h2
      simp only [releaseAfter, hr, h3]
      exact h2
    | error e u =>
      rw [show setFlashPin false t = _ from h3] at h2
      simp only [releaseAfter, hr, h3]
      cases e <;> exact h2
  | error e t =>
    rw [hr] at h1
    cases e with
    | waiting =>
      simp only [releaseAfter, hr]
      obtain ⟨u, b, h2, h3⟩ := h1
      exact ⟨u, b, h2.1, h3⟩
    | raised =>
      have h2 := release_of_error he hp (s := t) (by rw [h1.2]; exact hv) h1.1
      cases h3 : releaseOnExit t with
      | ok _ u =>
        rw [h3] at h2
        simp only [releaseAfter, hr, h3]
        exact h2
      | error e u =>
        rw [h3] at h2
        simp only [releaseAfter, hr, h3]
        exact h2

theorem keeps_readBody (hw : W .caps) (hg : W .geom) (hp : W .flashPin) (hr : ResetOk I) (lo hi : Nat) (start : Bool) :
    Keeps I E (readBody lo hi start) :=
  keeps_get_bind fun _ => keeps_bind (keeps_ensureCapability hc hw hp hr ..) fun _ =>
    keeps_bind (keeps_readGeometry hc hg) fun _ => keeps_bind (keeps_validateRange hc ..) fun _ =>
    keeps_bind (keeps_addressedFrame hc ..) fun _ => keeps_bind (keeps_cmdScan hc _) fun _ =>
    keeps_bind (keeps_respScan hc _) fun _ => keeps_payloadBytes hc _

/-- `setFlashPin(1)` and then the `try`, on an identified session. -/
theorem leaves_pinned (he : Ending W E F) (hp : W .flashPin) {α : Type} {body : Op α} {s : State}
    (hb : Keeps (fun t => I t ∧ t.session = .identified) (fun t => E t ∧ t.session = .identified) body)
    (hs : s.session = .identified) (h : I s) : Leaves I F ((setFlashPin true >>= fun _ => releaseAfter body) s) := by
  have h1 := (keeps_setFlashPin (hc.session .identified) hp true).leaves s ⟨h, hs⟩
  cases hr : setFlashPin true s with
  | ok a t =>
    rw [hr] at h1
    rw [run_bind_ok hr]
    exact leaves_releaseAfter hc he hp (s := t) (by rw [h1.2]; exact hb) (.inl h1.2) h1.1
  | error e t =>
    rw [hr] at h1
    rw [run_bind_error hr]
    cases e with
    | waiting =>
      obtain ⟨u, b, h2, h3⟩ := h1
      exact ⟨u, b, h2.1, h3⟩
    | raised => exact he.weaken _ h1.1

theorem keeps_readFlash (he : Ending W E F) (hw : W .caps) (hg : W .geom) (hp : W .flashPin) (hr : ResetOk I)
    (lo hi : Nat) (start : Bool) : Keeps I F (readFlash lo hi start) := by
  refine ⟨fun s h => ?_⟩
  by_cases hs : s.session = .identified
  swap
  · rw [readFlash, gated_raises hs]
    exact he.weaken _ (hc.raise _ _ _ h)
  rw [readFlash, run_bind_ok (requireIdentified_ok hs)]
  split
  · exact he.weaken _ (hc.raise _ _ _ h)
  · exact leaves_pinned hc he hp (keeps_readBody (hc.session _) hw hg hp (hr.session _) ..) hs h

theorem keeps_writeChunks (hw : W .status) (l : List (Nat × Bytes)) (done : Nat) : Keeps I E (writeChunks done l) := by
  induction l generalizing done with
  | nil => exact keeps_pure _
  | cons c l ih =>
    exact keeps_bind (keeps_programChunk hc hw ..) fun _ => keeps_bind (keeps_record hc rfl rfl) fun _ => ih _

theorem keeps_writeChecks (hw : W .caps) (hg : W .geom) (hp : W .flashPin) (hr : ResetOk I) (a n : Nat) (start : Bool) :
    Keeps I E (writeChecks a n start) :=
  keeps_get_bind fun _ => keeps_bind (keeps_ensureCapability hc hw hp hr ..) fun _ =>
    keeps_bind (keeps_readGeometry hc hg) fun _ => keeps_bind (keeps_validateRange hc ..) fun _ => keeps_pure _

theorem keeps_writeBody (hw : W .caps) (hg : W .geom) (hu : W .status) (hp : W .flashPin) (hr : ResetOk I) (data : Bytes)
    (a : Nat) (start : Bool) : Keeps I E (writeBody data a start) := by
  refine keeps_bind (keeps_writeChecks hc hw hg hp hr ..) fun _ => ?_
  cases start
  · exact keeps_bind (keeps_pure _) fun _ => keeps_writeChunks hc hu ..
  · exact keeps_bind (keeps_eraseFlash hc hu _) fun _ => keeps_writeChunks hc hu ..

theorem keeps_writeFlash (he : Ending W E F) (hw : W .caps) (hg : W .geom) (hu : W .status) (hp : W .flashPin)
    (hr : ResetOk I) (data : Bytes) (a : Nat) (start : Bool) : Keeps I F (writeFlash data a start) := by
  refine ⟨fun s h => ?_⟩
  by_cases hs : s.session = .identified
  swap
  · rw [writeFlash, gated_raises hs]
    exact he.weaken _ (hc.raise _ _ _ h)
  rw [writeFlash, run_bind_ok (requireIdentified_ok hs)]
  exact leaves_pinned hc he hp (keeps_writeBody (hc.session _) hw hg hu hp (hr.session _) ..) hs h

theorem leaves_resumePoll (he : Ending W E F) (b : Busy) (hw : ∀ e ∈ resumeEffects b.rest, W e) {s : State}
    (hv : s.session = .identified ∨ Stray E F) (h : I s) : Leaves I F (resumePoll b s) := by
  obtain ⟨k, rest⟩ := b
  cases rest with
  | done => exact ((keeps_pollOnce hc (hw _ (by simp [resumeEffects])) ..).weaken he.weaken).leaves s h
  | erased plan =>
    have hu : W .status := hw _ (by simp [resumeEffects])
    exact leaves_releaseAfter hc he (hw _ (by simp [resumeEffects])) (keeps_bind (keeps_pollOnce (hc.session _) hu ..)
      fun _ => keeps_writeChunks (hc.session _) hu ..) hv h
  | chunks c more =>
    have hu : W .status := hw _ (by simp [resumeEffects])
    exact leaves_releaseAfter hc he (hw _ (by simp [resumeEffects])) (keeps_bind (keeps_pollOnce (hc.session _) hu ..)
      fun _ => keeps_bind (keeps_record (hc.session _) rfl rfl) fun _ => keeps_writeChunks (hc.session _) hu ..) hv h

end

/-! ### Instructions and steps -/

/-- The instructions that can run the middle step of `reset()`: itself, and those that can run a configuration
sequence. -/
def mayReset : Instr → Bool
  | .reset | .configureFpga _ | .ensureCapability _ _ | .readFlash _ _ _ | .writeFlash _ _ _ => true
  | _ => false

/-- How an instruction or a step ends: completed, waiting for a poll, or ended by an error. -/
def Settled (I E : State → Prop) (t : State) : Prop :=
  (∃ u v, I u ∧ t = u.completed v) ∨ (∃ u b, I u ∧ u.session = .identified ∧ t = { u with busy := some b })
    ∨ ∃ u, E u ∧ t = { u with result := .none, ended := true, busy := none }

theorem settled_of_leaves {α : Type} {value : α → Value} {op : Op α} {s t : State} (h : Leaves I E (op s))
    (ht : runOp value op s = .next t) : Settled I E t := by
  rw [runOp] at ht
  cases hr : op s with
  | ok a u =>
    rw [hr] at h ht
    cases ht
    exact .inl ⟨u, value a, h, rfl⟩
  | error e u =>
    rw [hr] at h ht
    cases ht
    cases e with
    | raised => exact .inr (.inr ⟨u, h, rfl⟩)
    | waiting =>
      obtain ⟨v, b, h2, h3, rfl⟩ := h
      exact .inr (.inl ⟨v, b, h2, h3, rfl⟩)

theorem runOp_settled {α : Type} {value : α → Value} {op : Op α} (hk : Keeps I E op) {s t : State} (h : I s)
    (ht : runOp value op s = .next t) : Settled I E t :=
  settled_of_leaves (hk.leaves s h) ht

/-- Every instruction keeps what every update keeps. -/
theorem exec_settled (hc : Closed W I E) (he : Ending W E F) (i : Instr) (hw : ∀ e ∈ effects i, W e)
    (hr : mayReset i = true → ResetOk I)
    (ho : (∃ c, i = .openSession c) → OpenOk I) (hi : i = .checkIdentity → IdentityOk I) {s t : State} (h : I s)
    (ht : exec i s = .next t) : Settled I F t := by
  cases i
  case usbReadVersion => cases ht
  case usbReadFlash => cases ht
  case usbWriteFlash => cases ht
  case usbEraseFlash => cases ht
  case usbReadEedata => cases ht
  case usbReadConfig => cases ht
  case usbWriteConfig => cases ht
  case usbIdBoard => cases ht
  case usbUpdateLed => cases ht
  case usbSenseInverters => cases ht
  case usbTdo => cases ht
  case usbRuntest => cases ht
  case usbNullTdi => cases ht
  case usbSingleTestVector => cases ht
  case usbGetTestVector => cases ht
  case usbSetOscFreq => cases ht
  case usbEnableReturn => cases ht
  case usbDisableReturn => cases ht
  case usbReset => cases ht
  case usbInfo p => exact runOp_settled ((keeps_info hc p).weaken he.weaken) h ht
  case usbFlashOnOff on => exact runOp_settled ((keeps_flashOnOff hc (hw _ (by simp [effects])) on).weaken he.weaken) h ht
  case usbWriteEedata a v => exact runOp_settled ((keeps_writeEedata hc a v).weaken he.weaken) h ht
  case usbTmsTdi a b => exact runOp_settled ((keeps_tmsTdi hc a b).weaken he.weaken) h ht
  case usbTmsTdiTdo a b => exact runOp_settled ((keeps_tmsTdiTdo hc a b).weaken he.weaken) h ht
  case usbTdiTdo b m => exact runOp_settled ((keeps_tdiTdo hc b m).weaken he.weaken) h ht
  case usbTdi b m => exact runOp_settled ((keeps_tdi hc b m).weaken he.weaken) h ht
  case usbTapSeq q => exact runOp_settled ((keeps_tapSeq hc q).weaken he.weaken) h ht
  case usbProg p => exact runOp_settled ((keeps_prog hc (hw _ (by simp [effects])) p).weaken he.weaken) h ht
  case irUser1 => exact runOp_settled ((keeps_shiftInstruction hc _).weaken he.weaken) h ht
  case irUser2 => exact runOp_settled ((keeps_shiftInstruction hc _).weaken he.weaken) h ht
  case irIdcode => exact runOp_settled ((keeps_shiftInstruction hc _).weaken he.weaken) h ht
  case irUsercode => exact runOp_settled ((keeps_shiftInstruction hc _).weaken he.weaken) h ht
  case irCfgIn => exact runOp_settled ((keeps_shiftInstruction hc _).weaken he.weaken) h ht
  case irJprogram => exact runOp_settled ((keeps_shiftInstruction hc _).weaken he.weaken) h ht
  case irJstart => exact runOp_settled ((keeps_shiftInstruction hc _).weaken he.weaken) h ht
  case irBypass => exact runOp_settled ((keeps_shiftInstruction hc _).weaken he.weaken) h ht
  case subCapabilities => exact runOp_settled ((keeps_cmdScan hc _).weaken he.weaken) h ht
  case subFlashSize => exact runOp_settled ((keeps_cmdScan hc _).weaken he.weaken) h ht
  case subFlashErase => exact runOp_settled ((keeps_cmdScan hc _).weaken he.weaken) h ht
  case subFlashPgm a n =>
    exact runOp_settled ((keeps_bind (keeps_addressedFrame hc ..) fun _ => keeps_cmdScan hc _).weaken he.weaken) h ht
  case subFlashRead a n =>
    exact runOp_settled ((keeps_bind (keeps_addressedFrame hc ..) fun _ => keeps_cmdScan hc _).weaken he.weaken) h ht
  case tick a b => exact runOp_settled ((keeps_tick hc a b).weaken he.weaken) h ht
  case goto a => exact runOp_settled ((keeps_goto hc a).weaken he.weaken) h ht
  case path a b => exact runOp_settled (keeps_pure _) h ht
  case gotoState a => exact runOp_settled ((keeps_gotoState hc a).weaken he.weaken) h ht
  case assertState a => exact runOp_settled ((keeps_assertState hc a).weaken he.weaken) h ht
  case shiftInstruction a => exact runOp_settled ((keeps_shiftInstruction hc a).weaken he.weaken) h ht
  case shiftData a b => exact runOp_settled ((keeps_shiftData hc a b).weaken he.weaken) h ht
  case reset => exact runOp_settled ((keeps_tapReset hc (hr rfl)).weaken he.weaken) h ht
  case loadInstructionThenData a b c => exact runOp_settled ((keeps_loadInstructionThenData hc a b c).weaken he.weaken) h ht
  case scanDR a b => exact runOp_settled ((keeps_scanDR hc a b).weaken he.weaken) h ht
  case makeBits a b => exact runOp_settled ((keeps_makeBits hc a b).weaken he.weaken) h ht
  case concat a b => exact runOp_settled (keeps_pure _) h ht
  case toInt a => exact runOp_settled (keeps_pure _) h ht
  case toBytes a => exact runOp_settled (keeps_pure _) h ht
  case fromBytes a b => exact runOp_settled ((keeps_fromBytes hc a b).weaken he.weaken) h ht
  case reverse a => exact runOp_settled (keeps_pure _) h ht
  case payloadBits a => exact runOp_settled (keeps_pure _) h ht
  case payloadBytes a => exact runOp_settled ((keeps_payloadBytes hc a).weaken he.weaken) h ht
  case le32 a => exact runOp_settled ((keeps_le32 hc a).weaken he.weaken) h ht
  case hasCap a b => exact runOp_settled (keeps_pure _) h ht
  case decodeStatus a => exact runOp_settled (keeps_pure _) h ht
  case command op p =>
    rw [exec, execCommand] at ht
    split at ht
    · cases ht
    · exact runOp_settled ((keeps_command hc (fun e => hw _ (by simp [effects, e])) p).weaken he.weaken) h ht
  case checkUser1 => exact runOp_settled ((keeps_checkUser1 hc).weaken he.weaken) h ht
  case probeCapabilities => exact runOp_settled ((keeps_probeCapabilities hc (hw _ (by simp [effects]))).weaken he.weaken) h ht
  case ensureCapability a b =>
    exact runOp_settled ((keeps_ensureCapability hc (hw _ (by simp [effects])) (hw _ (by simp [effects])) (hr rfl)
      a b).weaken he.weaken) h ht
  case readGeometry => exact runOp_settled ((keeps_readGeometry hc (hw _ (by simp [effects]))).weaken he.weaken) h ht
  case validateRange a b => exact runOp_settled ((keeps_validateRange hc a b).weaken he.weaken) h ht
  case eraseFlash => exact runOp_settled ((keeps_eraseFlash hc (hw _ (by simp [effects])) _).weaken he.weaken) h ht
  case pollUntilTerminal => exact runOp_settled ((keeps_pollUntilTerminal hc (hw _ (by simp [effects])) _).weaken he.weaken) h ht
  case programChunk a b => exact runOp_settled ((keeps_programChunk hc (hw _ (by simp [effects])) a b _).weaken he.weaken) h ht
  case setFlashPin a => exact runOp_settled ((keeps_setFlashPin hc (hw _ (by simp [effects])) a).weaken he.weaken) h ht
  case readFlash a b c =>
    exact runOp_settled (keeps_readFlash hc he (hw _ (by simp [effects])) (hw _ (by simp [effects]))
      (hw _ (by simp [effects])) (hr rfl) a b c) h ht
  case writeFlash a b c =>
    exact runOp_settled (keeps_writeFlash hc he (hw _ (by simp [effects])) (hw _ (by simp [effects]))
      (hw _ (by simp [effects])) (hw _ (by simp [effects])) (hr rfl) a b c) h ht
  case releaseOnExit => exact runOp_settled ((keeps_setFlashPin hc (hw _ (by simp [effects])) false).weaken he.weaken) h ht
  case openSession c =>
    rw [exec, execOpenSession] at ht
    split at ht
    · exact runOp_settled ((keeps_openSession hc (ho ⟨c, rfl⟩) c).weaken he.weaken) h ht
    · cases ht
  case readIdcode => exact runOp_settled ((keeps_readIdcode hc (hw _ (by simp [effects]))).weaken he.weaken) h ht
  case checkIdentity => exact runOp_settled ((keeps_checkIdentity hc (hi rfl)).weaken he.weaken) h ht
  case readUsercode => exact runOp_settled ((keeps_readUsercode hc).weaken he.weaken) h ht
  case toggleProgPin => exact runOp_settled ((keeps_toggleProgPin hc (hw _ (by simp [effects]))).weaken he.weaken) h ht
  case enableFlash a => exact runOp_settled ((keeps_enableFlash hc a).weaken he.weaken) h ht
  case configureFpga a =>
    exact runOp_settled ((keeps_configureFpga hc (hw _ (by simp [effects])) (hw _ (by simp [effects])) (hr rfl)
      a).weaken he.weaken) h ht
  case parseAddr a => exact runOp_settled ((keeps_parseAddr hc a).weaken he.weaken) h ht

/-- The three kinds of a step that has a next state (R21). -/
theorem step_cases {s t : State} (h : step s = .next t) :
    s.ended = false ∧ ((∃ b, s.busy = some b ∧ runUnit (resumePoll b) { s with busy := none } = .next t)
      ∨ s.busy = none ∧ ∃ c, s.fetch = some c ∧ stepCall c s = .next t) := by
  rw [step, stepRun] at h
  cases he : s.ended with
  | true => rw [he] at h; cases h
  | false =>
    refine ⟨rfl, ?_⟩
    rw [he] at h
    cases hb : s.busy with
    | some b => rw [hb] at h; exact .inl ⟨b, rfl, h⟩
    | none =>
      rw [hb] at h
      refine .inr ⟨rfl, ?_⟩
      cases hf : s.fetch with
      | some c => rw [hf] at h; exact ⟨c, rfl, h⟩
      | none => rw [hf] at h; cases h

/-- A call that has a next state is an instruction's, or the frame of an opcode outside the vocabulary. -/
theorem stepCall_cases {c : Call} {s t : State} (h : stepCall c s = .next t) :
    (∃ i, decode c = .ok i ∧ exec i s = .next t)
      ∨ ∃ op, decode c = .error (.unknownOpcode op) ∧ t = s.failedWith .invalidOperand (.operand op.toNat) := by
  rw [stepCall] at h
  cases hd : decode c with
  | ok i => rw [hd] at h; exact .inl ⟨i, rfl, h⟩
  | error e =>
    rw [hd] at h
    cases e <;> cases h
    exact .inr ⟨_, rfl, rfl⟩

/-- Every step keeps what every update keeps. -/
theorem step_settled (hc : Closed W I E) (he : Ending W E F) {s t : State} (hv : WaitsIdentified s ∨ Stray E F)
    (hw : ∀ e, s.MayWrite e → W e)
    (hr : ∀ c i, s.fetch = some c → decode c = .ok i → mayReset i = true → ResetOk I)
    (ho : ∀ c i, s.fetch = some c → decode c = .ok i → (∃ g, i = .openSession g) → OpenOk I)
    (hi : ∀ c i, s.fetch = some c → decode c = .ok i → i = .checkIdentity → IdentityOk I) (h : I s)
    (ht : step s = .next t) : Settled I F t := by
  obtain ⟨_, ⟨b, hb, h1⟩ | ⟨hb, c, hf, h1⟩⟩ := step_cases ht
  · refine settled_of_leaves (leaves_resumePoll hc he b (fun e h2 => hw e ?_) ?_ (hc.busy s none h)) h1
    · rw [State.MayWrite, hb]
      exact h2
    · exact hv.imp (fun h2 => h2 b hb) id
  · obtain ⟨i, hd, h2⟩ | ⟨op, hd, rfl⟩ := stepCall_cases h1
    · refine exec_settled hc he i (fun e h3 => hw e ?_) (hr c i hf hd) (ho c i hf hd) (hi c i hf hd) h h2
      rw [State.MayWrite, hb]
      exact ⟨c, i, hf, hd, h3⟩
    · exact .inr (.inr ⟨_, he.weaken _ (hc.raise s _ _ h), rfl⟩)

/-- An invariant that every update keeps, and that says nothing of a run's position, result and end, is kept by every
step. -/
theorem step_keeps (hc : Closed (fun _ => True) I I) (hr : ResetOk I) (ho : OpenOk I) (hi : IdentityOk I)
    (hrun : ∀ s r n e b, I s → I { s with result := r, pc := n, ended := e, busy := b }) {s t : State} (h : I s)
    (ht : step s = .next t) : I t := by
  rcases step_settled hc hc.ending (.inr hc.stray) (fun _ _ => trivial) (fun _ _ _ _ _ => hr)
      (fun _ _ _ _ _ => ho) (fun _ _ _ _ _ => hi) h ht with
    ⟨u, v, hu, rfl⟩ | ⟨u, b, hu, _, rfl⟩ | ⟨u, hu, rfl⟩
  · exact hrun u v (u.pc + 1) u.ended none hu
  · exact hrun u u.result u.pc u.ended (some b) hu
  · exact hrun u .none u.pc true none hu

/-- A property that only the writes of one of the fields in `Effect` could break is kept by every step that may not write
that field. -/
theorem step_leaves (e : Effect) (hc : Closed (fun e' => e' ≠ e) I I) (hr : ResetOk I) (ho : OpenOk I) (hi : IdentityOk I)
    (hrun : ∀ s r n d b, I s → I { s with result := r, pc := n, ended := d, busy := b }) {s t : State}
    (hn : ¬ s.MayWrite e) (h : I s) (ht : step s = .next t) : I t := by
  rcases step_settled hc hc.ending (.inr hc.stray) (fun e' h1 h2 => hn (h2 ▸ h1)) (fun _ _ _ _ _ => hr)
      (fun _ _ _ _ _ => ho) (fun _ _ _ _ _ => hi) h ht with
    ⟨u, v, hu, rfl⟩ | ⟨u, b, hu, _, rfl⟩ | ⟨u, hu, rfl⟩
  · exact hrun u v (u.pc + 1) u.ended none hu
  · exact hrun u u.result u.pc u.ended (some b) hu
  · exact hrun u .none u.pc true none hu

end Sys2Proof.Machine
end

