-- ==== Sys2Proof/Laws/Checks.lean ====
section
/-! SUPPORT. What `readFlash` and `writeFlash` check before they read, erase or program: the capability with its one
configuration, the geometry and the range (R213 to R215, R220, R221). -/

namespace Sys2Proof.Machine

variable {s : State}

/-- Every operation keeps the parameters (R39). -/
theorem closed_params (p : Params) : Closed (fun _ => True) (fun s => s.params = p) fun s => s.params = p where
  stable := ⟨fun _ _ h => h, fun _ _ h _ _ => h, fun _ _ _ h => h⟩
  raise := fun s code info h => (enterError_params s code info).trans h
  raisedPin := fun _ _ _ h => h
  tick := fun _ _ _ _ _ h => h
  pending := fun _ _ _ h _ _ => h
  forget := fun _ _ h => h
  caps := fun _ _ _ h => h
  status := fun _ _ _ h => h
  deviceId := fun _ _ _ h => h
  geom := fun _ _ _ h _ => h
  busy := fun _ _ h => h

theorem configureFpga_leaves (bitstream : Bytes) :
    Leaves (fun t => t.params = s.params ∧ t.session = s.session) (fun t => t.params = s.params ∧ t.session = s.session)
      (configureFpga bitstream s) :=
  (keeps_configureFpga ((closed_params s.params).session s.session) trivial trivial
    (ResetOk.session (fun _ h _ => h) s.session) bitstream).leaves s ⟨rfl, rfl⟩

/-- A configuration that completes has ended in Run-Test/Idle (R260). -/
theorem configureFpga_ok {bitstream : Bytes} {t : State} (h : configureFpga bitstream s = .ok () t) :
    t.tap = .known .runTestIdle ∧ t.params = s.params ∧ t.session = s.session := by
  have h1 := configureFpga_leaves (s := s) bitstream
  rw [h] at h1
  refine ⟨?_, h1⟩
  obtain ⟨_, _, _, h⟩ := bind_ok_inv h
  rw [run_get_bind] at h
  obtain ⟨_, _, _, h⟩ := bind_ok_inv h
  obtain ⟨_, u, _, h⟩ := bind_ok_inv h
  by_cases hu : u.tap = .known .runTestIdle
  · rw [assertState_ok hu] at h
    cases h
    exact hu
  · rw [assertState_raises hu] at h
    cases h

theorem configureFpga_raised {bitstream : Bytes} {t : State} (h : configureFpga bitstream s = .error .raised t) :
    t.session = s.session := by
  have h1 := configureFpga_leaves (s := s) bitstream
  rw [h] at h1
  exact h1.2

/-! ### The capability -/

/-- The state after the last probe of a capability check. -/
theorem lastProbe_state {bitpos : Nat} {start : Bool} {q : State} {w : Word32} (ht : s.tap = .known .runTestIdle)
    (h : s.LastProbe bitpos start q w) :
    q.tap = .known .runTestIdle ∧ q.params = s.params ∧ q.session = s.session := by
  rcases h with ⟨_, rfl, _⟩ | ⟨_, _, t, hc, _, rfl, _⟩
  · exact ⟨probed_tap ht, rfl, rfl⟩
  · obtain ⟨h1, h2, h3⟩ := configureFpga_ok hc
    exact ⟨probed_tap h1, h2, h3⟩

/-- A capability check answers by the word of its last probe (R213). -/
theorem ensureCapability_probed {bitpos : Nat} {start : Bool} {q : State} {w : Word32} (hs : s.session = .identified)
    (ht : s.tap = .known .runTestIdle) (ha : s.AnswersOk (2 * (16 + subWidth s.params.subCapabilities + 37)))
    (h : s.LastProbe bitpos start q w) :
    ensureCapability bitpos start s =
      if hasCap w bitpos then .ok () q
      else .error .raised (q.enterError .capabilityAbsentError (.capability bitpos w)) := by
  rw [ensureCapability, run_bind_ok (requireIdentified_ok hs), run_bind_ok (probeCapabilities_ok hs ht ha)]
  rcases h with ⟨h1, rfl, rfl⟩ | ⟨h1, rfl, t, hc, h2, rfl, rfl⟩
  · cases hw : hasCap s.probedWord bitpos with
    | true => rfl
    | false =>
      obtain rfl : start = false := h1.resolve_left (by simp [hw])
      rfl
  · obtain ⟨h3, _, h4⟩ := configureFpga_ok hc
    have hc' : configureFpga s.probed.params.flashInterfaceBitstream s.probed = .ok () t := hc
    rw [if_neg (by simp [h1]), if_neg (by decide), run_get_bind, run_bind_ok hc',
      run_bind_ok (probeCapabilities_ok (h4.trans hs) h3 h2), run_ite]
    rfl

/-- A capability check whose configuration raises (R213, R260). -/
theorem ensureCapability_unconfigured {bitpos : Nat} {t : State} (hs : s.session = .identified)
    (ht : s.tap = .known .runTestIdle) (ha : s.AnswersOk (2 * (16 + subWidth s.params.subCapabilities + 37)))
    (hw : hasCap s.probedWord bitpos = false)
    (h : configureFpga s.params.flashInterfaceBitstream s.probed = .error .raised t) :
    ensureCapability bitpos true s = .error .raised t := by
  have h' : configureFpga s.probed.params.flashInterfaceBitstream s.probed = .error .raised t := h
  rw [ensureCapability, run_bind_ok (requireIdentified_ok hs), run_bind_ok (probeCapabilities_ok hs ht ha),
    if_neg (by simp [hw]), if_neg (by decide), run_get_bind, run_bind_error h']

/-! ### A write before its first erase or program frame -/

/-- The checks of a write after its last probe, where all pass (R221). -/
theorem writeChecks_ok {q : State} {g : Geometry} {address length : Nat} {start : Bool}
    (hq : ensureCapability (capPosition s.params.capFlashWrite) start s = .ok () q)
    (hs : q.session = .identified) (ht : q.tap = .known .runTestIdle) (hg : g = q.scannedGeometry)
    (h : q.AnswersOk (2 * (16 + subWidth q.params.subFlashSize + 29))) (hv : validGeometry g = true)
    (hl : length % stride g = 0) (ha : belowStride address (stride g) = 0) :
    writeChecks address length start s = .ok g q.measured := by
  subst hg
  have g2 := readGeometry_ok hs ht h
  rw [if_pos hv] at g2
  rw [writeChecks, run_get_bind, run_bind_ok hq, run_bind_ok g2,
    run_bind_ok (validateRange_ok (s := q.measured) hs hl ha), run_pure]

end Sys2Proof.Machine
end

