-- ==== Sys2Proof/Machine/Assembly.lean ====
section
/-! DEFINITION. The assembly syntax of R84: one operation per line, assembled into a program entry. It is how the spec's
programs are written; loading one is the host's act, outside the machine. -/

namespace Sys2Proof.Machine

/-! ### Lines and their parts -/

/-- A blank of the syntax. -/
def isBlank (c : Char) : Bool :=
  c == ' ' || c == '\t'

/-- A text without the blanks around it. -/
def trim (t : Text) : Text :=
  ((t.dropWhile isBlank).reverse.dropWhile isBlank).reverse

/-- A line without its comment (`; text`) and the blanks around it. -/
def stripLine (line : Text) : Text :=
  trim (line.takeWhile (· != ';'))

/-- The parts of a text between the commas that stand outside brackets; `depth` counts the open brackets and `part` is
the part read so far, reversed. -/
def commaParts : Nat → Text → Text → List Text
  | _, part, [] => [trim part.reverse]
  | depth, part, c :: rest =>
    if c == ',' && depth == 0 then trim part.reverse :: commaParts 0 [] rest
    else if c == '[' || c == '(' then commaParts (depth + 1) (c :: part) rest
    else if c == ']' || c == ')' then commaParts (depth - 1) (c :: part) rest
    else commaParts depth (c :: part) rest

/-- The arguments of a text: none where it is empty. -/
def arguments (t : Text) : List Text :=
  if trim t = [] then [] else commaParts 0 [] t

/-- Every element of a list through a partial reading; none where one fails. -/
def readAll {α β : Type} (read : α → Option β) : List α → Option (List β)
  | [] => some []
  | a :: rest =>
    match read a, readAll read rest with
    | some b, some bs => some (b :: bs)
    | _, _ => none

/-- What stands between an opening and a closing character at a text's ends. -/
def between (o c : Char) (t : Text) : Option Text :=
  match t with
  | [] => none
  | x :: rest =>
    match rest.reverse with
    | [] => none
    | y :: inner => if x == o && y == c then some inner.reverse else none

/-! ### Operands -/

/-- A bit: `0` or `1`. -/
def readBit : Text → Option Bool
  | ['0'] => some false
  | ['1'] => some true
  | _ => none

/-- A byte, in the number syntax of R263. -/
def readByte (t : Text) : Option Byte :=
  match addrValue t with
  | some n => if n < 256 then some (BitVec.ofNat 8 n) else none
  | none => none

/-- A byte list `[b, b, ...]`. -/
def readBytes (t : Text) : Option Bytes :=
  match between '[' ']' t with
  | some inner => readAll readByte (arguments inner)
  | none => none

/-- A sized operand `N'hV`: its bit count and its value. -/
def readSized (t : Text) : Option (Nat × Nat) :=
  match numeral 10 decDigit (t.takeWhile (· != '\'')), t.dropWhile (· != '\'') with
  | some n, '\'' :: 'h' :: digits =>
    match numeral 16 hexDigit digits with
    | some v => some (n, v)
    | none => none
  | _, _ => none

/-- The value a name of a list of names stands for. -/
def named {α : Type} (names : List (String × α)) (t : Text) : Option α :=
  match names.find? (fun e => e.1.toList == t) with
  | some e => some e.2
  | none => none

/-- The state names of R24. -/
def stateNames : List (String × TapState) :=
  [("Test-Logic-Reset", .testLogicReset), ("Run-Test/Idle", .runTestIdle), ("Select-DR-Scan", .selectDrScan),
   ("Capture-DR", .captureDr), ("Shift-DR", .shiftDr), ("Exit1-DR", .exit1Dr), ("Pause-DR", .pauseDr),
   ("Exit2-DR", .exit2Dr), ("Update-DR", .updateDr), ("Select-IR-Scan", .selectIrScan), ("Capture-IR", .captureIr),
   ("Shift-IR", .shiftIr), ("Exit1-IR", .exit1Ir), ("Pause-IR", .pauseIr), ("Exit2-IR", .exit2Ir),
   ("Update-IR", .updateIr)]

/-- The IR instruction names of R75, with their values. -/
def irNames (p : Params) : List (String × BitVec 6) :=
  [("USER1", Config.instrUser1), ("USER2", p.instrUser2), ("IDCODE", p.instrIdcode), ("USERCODE", p.instrUsercode),
   ("CFG_IN", p.instrCfgIn), ("JPROGRAM", p.instrJprogram), ("JSTART", p.instrJstart), ("BYPASS", p.instrBypass)]

/-- The opcode names of R74. -/
def opcodeNames : List (String × Byte) :=
  [("READ_VERSION", 0x00), ("INFO", 0x40), ("READ_FLASH", 0x01), ("WRITE_FLASH", 0x02), ("ERASE_FLASH", 0x03),
   ("FLASH_ONOFF", 0x50), ("READ_EEDATA", 0x04), ("WRITE_EEDATA", 0x05), ("READ_CONFIG", 0x06), ("WRITE_CONFIG", 0x07),
   ("ID_BOARD", 0x31), ("UPDATE_LED", 0x32), ("SENSE_INVERTERS", 0x41), ("TMS_TDI", 0x42), ("TMS_TDI_TDO", 0x43),
   ("TDI_TDO", 0x44), ("TDO", 0x45), ("TDI", 0x46), ("RUNTEST", 0x47), ("NULL_TDI", 0x48), ("TAP_SEQ", 0x4f),
   ("PROG", 0x49), ("SINGLE_TEST_VECTOR", 0x4a), ("GET_TEST_VECTOR", 0x4b), ("SET_OSC_FREQ", 0x4c),
   ("ENABLE_RETURN", 0x4d), ("DISABLE_RETURN", 0x4e), ("RESET", 0xff)]

/-- The types of the arguments of the operations a `call` line can name. -/
inductive ArgType where
  | bit | nat | bytes | config | capability | text
  deriving DecidableEq, Repr

/-- The operations of files 43 and 44 by name, with the types of their arguments. -/
def callNames : List (String × Mnemonic × List ArgType) :=
  [("checkUser1", .checkUser1, []), ("probeCapabilities", .probeCapabilities, []),
   ("ensureCapability", .ensureCapability, [.capability, .bit]), ("readGeometry", .readGeometry, []),
   ("validateRange", .validateRange, [.nat, .nat]), ("eraseFlash", .eraseFlash, []),
   ("pollUntilTerminal", .pollUntilTerminal, []), ("programChunk", .programChunk, [.nat, .bytes]),
   ("setFlashPin", .setFlashPin, [.bit]), ("readFlash", .readFlash, [.nat, .nat, .bit]),
   ("writeFlash", .writeFlash, [.bytes, .nat, .bit]), ("releaseOnExit", .releaseOnExit, []),
   ("openSession", .openSession, [.config]), ("readIdcode", .readIdcode, []), ("checkIdentity", .checkIdentity, []),
   ("readUsercode", .readUsercode, []), ("toggleProgPin", .toggleProgPin, []), ("enableFlash", .enableFlash, [.bit]),
   ("configureFpga", .configureFpga, [.bytes]), ("parseAddr", .parseAddr, [.text])]

/-- A capability: one of the six names of R8, or a bit position. -/
def readCapability (p : Params) (t : Text) : Option Nat :=
  match named [("CAP_RAM_WRITE", p.capRamWrite), ("CAP_RAM_READ", p.capRamRead), ("CAP_FLASH_WRITE", p.capFlashWrite),
      ("CAP_FLASH_READ", p.capFlashRead), ("CAP_REG_WRITE", p.capRegWrite), ("CAP_REG_READ", p.capRegRead)] t with
  | some i => some (capPosition i)
  | none => addrValue t

/-- An argument of a `call`, read as its type says; `cfg` stands for the session configuration the program is run with. -/
def readArg (p : Params) (cfg : SessionConfig) (ty : ArgType) (t : Text) : Option Arg :=
  match ty with
  | .bit => (readBit t).map .bit
  | .nat => (addrValue t).map .nat
  | .bytes => (readBytes t).map .bytes
  | .config => if t = "cfg".toList then some (.config cfg) else none
  | .capability => (readCapability p t).map .nat
  | .text => (between '"' '"' t).map .text

/-- The arguments of a `call`, by their types. -/
def readArgs (p : Params) (cfg : SessionConfig) : List ArgType → List Text → Option (List Arg)
  | [], [] => some []
  | ty :: tys, t :: ts =>
    match readArg p cfg ty t, readArgs p cfg tys ts with
    | some a, some as => some (a :: as)
    | _, _ => none
  | _, _ => none

/-! ### Lines -/

/-- The program entry whose operand is `makeBits(N, V)` (R79, R84): where the value does not fit, the entry is that
`makeBits`, which raises. -/
def sizedCall (m : Mnemonic) (before : List Arg) (operand : Nat × Nat) (after : List Arg) : Call :=
  if operand.2 < 2 ^ operand.1 then .named m (before ++ .bits (bitsOf operand.1 operand.2) :: after)
  else .named .makeBits [.nat operand.1, .nat operand.2]

/-- The optional last argument `rx`. -/
def readRx : List Text → Option Bool
  | [] => some false
  | [t] => if t = "rx".toList then some true else none
  | _ => none

/-- A raw frame `usb OP, b, ...` (R70, R84): the opcode's own row where the bytes are its operands, and otherwise
`command(op, payload)`, which issues the same bytes. -/
def rawFrame (op : Byte) (payload : Bytes) : Call :=
  if op = 0x50 ∧ payload ∈ [[Config.flashOnOffAssert], [Config.flashOnOffRelease]] then
    .frame op (.onOff (payload.getD 0 0))
  else if op ∈ ([0x50, 0x05, 0x42, 0x43, 0x44, 0x45, 0x46, 0x4f] : List Byte) then
    .named .command [.byte op, .bytes payload]
  else .frame op (.raw payload)

/-- The entry of a `call f(a, ...)` line. -/
def callLine (p : Params) (cfg : SessionConfig) (t : Text) : Option Call :=
  match named callNames (trim (t.takeWhile (· != '('))), between '(' ')' (t.dropWhile (· != '(')) with
  | some (m, tys), some inner =>
    match readArgs p cfg tys (arguments inner) with
    | some as => some (.named m as)
    | none => none
  | _, _ => none

/-- The entry of a line's mnemonic and arguments. -/
def lineCall (p : Params) (cfg : SessionConfig) (word : Text) (rest : Text) : Option Call :=
  let args := arguments rest
  if word = "tick".toList then
    match readAll readBit args with
    | some [tms, tdi] => some (.named .tick [.bit tms, .bit tdi])
    | _ => none
  else if word = "goto".toList then (readAll readBit args).map fun seq => .named .goto [.bits seq]
  else if word = "gotostate".toList then
    match args with
    | [t] => (named stateNames t).map fun st => .named .gotoState [.tapState st]
    | _ => none
  else if word = "assert".toList then
    match args with
    | [t] => (named stateNames t).map fun st => .named .assertState [.tapState st]
    | _ => none
  else if word = "reset".toList then if args = [] then some (.named .reset []) else none
  else if word = "idle".toList then
    if args = [] then some (.named .gotoState [.tapState .runTestIdle]) else none
  else if word = "shir".toList then
    match args with
    | [t] => (readSized t).map fun o => sizedCall .shiftInstruction [] o []
    | _ => none
  else if word = "shdr".toList then
    match args with
    | t :: rx =>
      match readSized t, readRx rx with
      | some o, some r => some (sizedCall .shiftData [] o [.bit r])
      | _, _ => none
    | [] => none
  else if word = "scandr".toList then
    match args with
    | t :: rx =>
      match readSized t, readRx rx with
      | some o, some r => some (sizedCall .scanDR [] o [.bit r])
      | _, _ => none
    | [] => none
  else if word = "readdr".toList then
    match args with
    | [t] => (numeral 10 decDigit t).map fun n => .named .scanDR [.bits (bitsOf n 0), .bit true]
    | _ => none
  else if word = "lid".toList then
    match args with
    | i :: t :: rx =>
      match named (irNames p) i, readSized t, readRx rx with
      | some code, some o, some r => some (sizedCall .loadInstructionThenData [.bits (irBits code)] o [.bit r])
      | _, _, _ => none
    | _ => none
  else if word = "usb".toList then
    match args with
    | op :: bytes =>
      match named opcodeNames op, readAll readByte bytes with
      | some b, some payload => some (rawFrame b payload)
      | _, _ => none
    | [] => none
  else if word = "call".toList then callLine p cfg rest
  else none

/-- The entries of a line: none for a comment or a blank line, one for an operation; no reading for anything else. -/
def assembleLine (p : Params) (cfg : SessionConfig) (line : Text) : Option (List Call) :=
  let t := stripLine line
  if t = [] then some []
  else (lineCall p cfg (t.takeWhile (fun c => !isBlank c)) (trim (t.dropWhile (fun c => !isBlank c)))).map ([·])

/-- A program text, line by line (DEDUCED, log 25). -/
def assemble (p : Params) (cfg : SessionConfig) (lines : List Text) : Option (List Call) :=
  (readAll (assembleLine p cfg) lines).map List.flatten

end Sys2Proof.Machine
end

