-- ==== Sys2Proof/WellFormed.lean ====
section
/-! DEFINITION. The operand ranges the rules state for each instruction. They are what the syntax alone can show; a range
that depends on the state (an alignment, a field width learnt from the geometry) is checked by the operation itself. -/

namespace Sys2Proof

/-- An instruction whose operands are in the ranges its rule states. -/
def WellFormed : Instr → Bool
  | .usbTdiTdo bits _ => bits != []                                      -- R176: n ≥ 1
  | .usbTdi bits _ => bits != []                                         -- R177: n ≥ 1
  | .shiftInstruction instr => instr.length == Config.irWidth            -- R108
  | .shiftData bits _ => bits != []                                      -- R109: |bits| ≥ 1
  | .loadInstructionThenData instr _ _ => instr.length == Config.irWidth -- R112
  | .scanDR data _ => data != []                                         -- R113: |data| ≥ 1
  | .makeBits count value => decide (value < 2 ^ count)                  -- R140
  | .fromBytes bytes count => decide (count ≤ 8 * bytes.length)          -- R144
  | .payloadBytes bits => bits.length % 8 == 0                           -- R150
  | .le32 n => decide (n < 2 ^ 32)                                       -- R152
  | .command op _ => opcodeClass op != .unlisted                         -- R189
  | .hasCap _ bitpos => decide (8 ≤ bitpos) && decide (bitpos ≤ 23)      -- R8, R28
  | .ensureCapability bitpos _ => decide (8 ≤ bitpos) && decide (bitpos ≤ 23) -- R8, R213
  | .programChunk _ chunk => chunk != []                                 -- R218: a nonzero length
  | .readFlash loAddr hiAddr _ => decide (loAddr ≤ hiAddr)               -- R220
  | .usbReadVersion _ | .usbInfo _ | .usbReadFlash _ | .usbWriteFlash _ | .usbEraseFlash _ | .usbFlashOnOff _
  | .usbReadEedata _ | .usbWriteEedata _ _ | .usbReadConfig _ | .usbWriteConfig _ | .usbIdBoard _ | .usbUpdateLed _
  | .usbSenseInverters _ | .usbTmsTdi _ _ | .usbTmsTdiTdo _ _ | .usbTdo _ | .usbRuntest _ | .usbNullTdi _
  | .usbTapSeq _ | .usbProg _ | .usbSingleTestVector _ | .usbGetTestVector _ | .usbSetOscFreq _
  | .usbEnableReturn _ | .usbDisableReturn _ | .usbReset _
  | .irUser1 | .irUser2 | .irIdcode | .irUsercode | .irCfgIn | .irJprogram | .irJstart | .irBypass
  | .subCapabilities | .subFlashSize | .subFlashErase | .subFlashPgm _ _ | .subFlashRead _ _
  | .tick _ _ | .goto _ | .path _ _ | .gotoState _ | .assertState _ | .reset
  | .concat _ _ | .toInt _ | .toBytes _ | .reverse _ | .payloadBits _ | .decodeStatus _
  | .checkUser1 | .probeCapabilities | .readGeometry | .validateRange _ _ | .eraseFlash | .pollUntilTerminal
  | .setFlashPin _ | .writeFlash _ _ _ | .releaseOnExit
  | .openSession _ | .readIdcode | .checkIdentity | .readUsercode | .toggleProgPin | .enableFlash _
  | .configureFpga _ | .parseAddr _ => true

end Sys2Proof
end

