-- ==== Sys2Proof/Tests/Slice0.lean ====
section
/-! SUPPORT. Tests and witnesses. Expected values come from spec/95_test_vectors.md (its labels are given) or are worked
out by hand from the rule named. The OPEN parameters take the example values EX of that file, which claim nothing about
the board; EX gives no value to the rest, and those are chosen here. -/

namespace Sys2Proof.Tests
open Sys2Proof Sys2Proof.Machine

set_option Elab.async false

/-! ### The small states the tests start from -/

/-- The example instantiation EX (95, section 7). -/
def ex : Params where
  instrUser2 := 0b000011
  instrIdcode := 0b001001
  instrUsercode := 0b001000
  instrCfgIn := 0b000101
  instrJprogram := 0b001011
  instrJstart := 0b001100
  instrBypass := 0b111111
  subCapabilities := .w8 1
  subFlashSize := .w8 2
  subFlashErase := .w8 3
  subFlashPgm := .w8 4
  subFlashRead := .w8 5
  capRamWrite := 0
  capRamRead := 1
  capFlashWrite := 3
  capFlashRead := 2
  capRegWrite := 4
  capRegRead := 5
  statusPassed := 1
  statusFailed := 2
  eepromFlashFlagOff := 0
  bulkLenUnit := .bits
  responseLens := [(0x40, 4), (0x50, 0), (0x05, 0), (0x49, 0), (0x42, 0), (0x43, 1), (0x46, 0), (0x4f, 0)]
  bulkResponseLens := [(3, 4), (8, 4), (9, 1)]
  infoChecksums := [([1, 2], true), ([3], false)]
  configureSeqs := [([], []), ([1], [.tick true false]), ([2], [.reset]), ([3], [.assertState .shiftDr])]
  flashInterfaceBitstream := []

theorem test_ex_is_legal : ex.wf = true := by decide +kernel

/-- Bits given left to right, as the spec writes a TMS or TDI string. -/
def str (n v : Nat) : BitSeq :=
  (List.range n).reverse.map v.testBit

/-- `n` bits 0. -/
def z (n : Nat) : BitSeq :=
  List.replicate n false

/-- The geometry G1: 16, 22, 8 (95, section 5.2). -/
def g1 : Geometry :=
  ⟨16, 22, 8⟩

/-- An identified session in Run-Test/Idle with USER1 loaded and the geometry G1 read; the transport answers every call
without bytes, and the TDO draws are 0. -/
def ready : State :=
  { State.reset with
    params := ex
    session := .identified
    tap := .known .runTestIdle
    devTap := .runTestIdle
    lastIR := .instr user1
    pendingIR := .instr user1
    geom := some g1
    cfg := ⟨1, none, 1, 1, false⟩
    script := { answers := List.replicate 2000 (.ok []), tdo := z 1000, devTaps := [.pauseDr, .exit1Ir] } }

/-- `ready` in another TAP state. -/
def inTap (t : TapState) : State :=
  { ready with tap := .known t, devTap := t }

/-- `ready` with other TDO draws. -/
def withTdo (tdo : BitSeq) : State :=
  { ready with script := { ready.script with tdo := tdo } }

/-- `ready` with other transport answers. -/
def withAnswers (answers : List Answer) : State :=
  { ready with script := { ready.script with answers := answers } }

/-- `ready` about to run a program. -/
def running (program : List Call) : State :=
  { ready with program := program }

/-- `ready` about to run one call, with other TDO draws. -/
def calling (call : Call) (tdo : BitSeq) : State :=
  { withTdo tdo with program := [call] }

/-- `ready` after the first poll of an operation, with other TDO draws. -/
def waiting (rest : Rest) (tdo : BitSeq) : State :=
  { withTdo tdo with busy := some ⟨1, rest⟩ }

/-- A session that is not open yet. -/
def closed (answers : List Answer) : State :=
  { withAnswers answers with session := .closed, tap := .unknown, lastIR := .unknown, pendingIR := .unknown }

/-- The TDO draws of a capability probe (24 + 37 ticks) and of a geometry scan (24 + 29 ticks). -/
def capsTdo (caps : Nat) : BitSeq :=
  z 27 ++ bitsOf 32 caps ++ z 2

def geomTdo (g : Nat) : BitSeq :=
  z 27 ++ bitsOf 24 g ++ z 2

/-- A view of the next state of an outcome, and none where there is no next state. -/
def seen {α : Type} (view : State → α) : Host.Outcome State Fault Refusal → Option α
  | .next t => some (view t)
  | _ => none

theorem next_of_seen {α : Type} {view : State → α} {o : Host.Outcome State Fault Refusal} {v : α}
    (h : seen view o = some v) : ∃ t, o = .next t ∧ view t = v := by
  cases o with
  | next t => exact ⟨t, rfl, by simpa [seen] using h⟩
  | fault f => simp [seen] at h
  | refused r => simp [seen] at h

/-- The ticks of a history: TMS and TDI. -/
def ticksOf : List Event → List (Bool × Bool)
  | [] => []
  | .tick tms tdi _ _ :: rest => (tms, tdi) :: ticksOf rest
  | _ :: rest => ticksOf rest

/-- The events of a history that are no ticks. -/
def framesOf : List Event → List Event
  | [] => []
  | .tick _ _ _ _ :: rest => framesOf rest
  | e :: rest => e :: framesOf rest

/-- The TMS string, the TDI string and the tracked TAP state after. -/
def clocked (t : State) : BitSeq × BitSeq × Tracked :=
  ((ticksOf t.history).map Prod.fst, (ticksOf t.history).map Prod.snd, t.tap)

/-- What was raised, how many ticks were issued, and the tracked TAP state after. -/
def failure (t : State) : List ErrorEntry × Nat × Tracked :=
  (t.errors, (ticksOf t.history).length, t.tap)

theorem replicated_answers_ok {s : State} {m n : Nat} {b : Bytes} (h : s.script.answers = List.replicate m (.ok b))
    (hn : s.drawn.answers + n ≤ m) : s.AnswersOk n := by
  intro k hk
  have hlt : s.drawn.answers + k < m := by omega
  simp [State.answerAt, h, hlt, answered]

/-- A view of the state an operation completes in. -/
def done {α β : Type} (view : State → β) : EStateM.Result Exit State α → Option β
  | .ok _ t => some (view t)
  | .error _ _ => none

theorem ok_of_done {β : Type} {view : State → β} {r : EStateM.Result Exit State Unit} {v : β}
    (h : done view r = some v) : ∃ t, r = .ok () t ∧ view t = v := by
  cases r with
  | ok a t => exact ⟨t, rfl, by simpa [done] using h⟩
  | error e t => simp [done] at h

theorem ready_answers (n : Nat) (hn : n ≤ 2000) : ready.AnswersOk n :=
  replicated_answers_ok (m := 2000) rfl (show 0 + n ≤ 2000 by omega)

theorem withTdo_answers (tdo : BitSeq) (n : Nat) (hn : n ≤ 2000) : (withTdo tdo).AnswersOk n :=
  replicated_answers_ok (m := 2000) rfl (show 0 + n ≤ 2000 by omega)

/-- The state of the read and write witnesses: both capabilities present, the geometry G1, and every status Passed that
is read 92 ticks after the geometry scan (one chunk of one word). -/
def flashReady : State :=
  withTdo (capsTdo 0xA5000CA5 ++ geomTdo 0x081610 ++ z 92 ++ bitsOf 32 1)

/-- The same where an erase comes first: its poll is read 27 ticks after the geometry scan. -/
def eraseReady : State :=
  withTdo (capsTdo 0xA5000CA5 ++ geomTdo 0x081610 ++ z 27 ++ bitsOf 32 1 ++ z 94 ++ bitsOf 32 1)

/-- The capabilities are absent from the first probe, and present in the second, after the configuration. -/
def configuredReady : State :=
  withTdo (capsTdo 0 ++ capsTdo 0xA5000CA5 ++ geomTdo 0x081610)

/-- The state right after the one configuration of such a run, whose sequence is empty. -/
def configured (s : State) : State :=
  { (s.pinned true).probed with caps := none }

/-- `ready` whose configuration for the flash interface raises. -/
def unconfigurable : State :=
  { ready with params := { ex with flashInterfaceBitstream := [3] } }

/-- How a poll can go: it passes, it does not, and the ceiling is reached. -/
theorem passed_poll {s : State} {k : Nat} {after : State → Prop} (hc : s.atCeiling k = false) (h : s.AnswersOk (2 * 37))
    (hd : decodeStatus s.params s.pollWord = .passed) (ha : after s.polled) : s.PollAnswered k after := by
  refine ⟨fun h0 => absurd h0 (by simp [hc]), fun _ => ⟨h, fun _ => ha, fun h0 => absurd h0 (by simp [hd])⟩⟩

theorem other_poll {s : State} {k : Nat} {after : State → Prop} (hc : s.atCeiling k = false) (h : s.AnswersOk (74 + 2))
    (hd : decodeStatus s.params s.pollWord ≠ .passed) : s.PollAnswered k after :=
  ⟨fun h0 => absurd h0 (by simp [hc]), fun _ => ⟨fun j hj => h j (by omega), fun h0 => absurd h0 hd,
    fun _ => answersOk_polled h⟩⟩

theorem ceiling_poll {s : State} {k : Nat} {after : State → Prop} (hc : s.atCeiling k = true) (h : s.AnswersOk 2) :
    s.PollAnswered k after :=
  ⟨fun _ => h, fun h0 => absurd h0 (by simp [hc])⟩

theorem sent_chunk {s : State} {g : Geometry} {n address : Nat} {chunk : Bytes} {more : List (Nat × Bytes)}
    (hf : chunkFault g address chunk = none)
    (h : s.AnswersOk (2 * (16 + subWidth s.params.subFlashPgm + 2 * addrWidth g + (5 + 8 * chunk.length))))
    (hp : (s.sentChunk g address chunk).PollAnswered 0
      fun t => State.ChunksAnswered g (n + chunk.length) more (t.progressed (n + chunk.length))) :
    s.ChunksAnswered g n ((address, chunk) :: more) := by
  rw [State.ChunksAnswered, hf]
  exact ⟨h, hp⟩

theorem faulty_chunk {s : State} {g : Geometry} {n address : Nat} {chunk : Bytes} {more : List (Nat × Bytes)}
    {e : ErrorCode × ErrorInfo} (hf : chunkFault g address chunk = some e) (h : s.AnswersOk 2) :
    s.ChunksAnswered g n ((address, chunk) :: more) := by
  rw [State.ChunksAnswered, hf]
  exact h

/-- The first probe shows the capability; or it does not, and the second one does, after the configuration. -/
theorem probed_first (start : Bool) :
    (flashReady.pinned true).LastProbe (capPosition ex.capFlashRead) start (flashReady.pinned true).probed
      (flashReady.pinned true).probedWord :=
  .inl ⟨.inl (by decide +kernel), rfl, rfl⟩

theorem configured_ok {s : State} (hs : s.session = .identified) (ht : s.tap = .known .runTestIdle)
    (hp : s.params = ex) : configureFpga s.params.flashInterfaceBitstream (s.pinned true).probed = .ok () (configured s) := by
  have h : seqOps (configureSeq (s.pinned true).probed.params s.params.flashInterfaceBitstream) (s.pinned true).probed =
      .ok () (s.pinned true).probed := by
    change seqOps (configureSeq s.params s.params.flashInterfaceBitstream) _ = _
    rw [hp]
    rfl
  rw [configureFpga_eq (s := (s.pinned true).probed) hs h]
  exact assertState_ok (probed_tap ht)

theorem probed_again (bitpos : Nat) (h : bitpos = 10 ∨ bitpos = 11) :
    (configuredReady.pinned true).LastProbe bitpos true (configured configuredReady).probed
      (configured configuredReady).probedWord :=
  .inr ⟨by rcases h with rfl | rfl <;> decide +kernel, rfl, configured configuredReady,
    configured_ok (s := configuredReady) rfl rfl rfl,
    replicated_answers_ok rfl (by decide +kernel), rfl, rfl⟩

theorem decDigitChar_ne_upper_x : ∀ d : Fin 10, decDigitChar d ≠ 'X' := by decide +kernel

/-! ### Well-formedness: an ill-formed term for each check, and its well-formed neighbour -/

theorem test_wellformed_refuses :
    ∀ i ∈ ([.usbTdiTdo [] true, .usbTdi [] false, .shiftInstruction (z 5), .shiftInstruction (z 7), .shiftData [] true,
      .loadInstructionThenData (z 5) [true] false, .scanDR [] true, .makeBits 3 8, .fromBytes [5] 9,
      .payloadBytes [true, false, true], .le32 (2 ^ 32), .command 0x99 [], .hasCap 0 7, .hasCap 0 24,
      .ensureCapability 7 true, .ensureCapability 24 true, .programChunk 0 [], .readFlash 0x20 0x10 true] : List Instr),
      WellFormed i = false := by decide +kernel

theorem test_wellformed_accepts :
    ∀ i ∈ ([.usbTdiTdo [true] true, .usbTdi [false] false, .shiftInstruction (z 6), .shiftData [true] true,
      .loadInstructionThenData (z 6) [] false, .scanDR [true] true, .makeBits 3 7, .makeBits 0 0, .fromBytes [5] 8,
      .payloadBytes (z 8), .le32 (2 ^ 32 - 1), .command 0x47 [], .hasCap 0 8, .hasCap 0 23, .ensureCapability 8 true,
      .ensureCapability 23 true, .programChunk 0 [1], .readFlash 0x10 0x10 true, .tick true false] : List Instr),
      WellFormed i = true := by decide +kernel

/-! ### Decoding: words written out bit by bit from R74 and R75 -/

theorem test_decode_refused_usb_words :
    ([0b00000000, 0b00000001, 0b00000010, 0b00000011, 0b00000100, 0b00000110, 0b00000111, 0b00110001, 0b00110010,
      0b01000001, 0b01000101, 0b01000111, 0b01001000, 0b01001010, 0b01001011, 0b01001100, 0b01001101, 0b01001110,
      0b11111111] : List Nat).map (decodeTableWord 8) =
    ([.usbReadVersion [], .usbReadFlash [], .usbWriteFlash [], .usbEraseFlash [], .usbReadEedata [], .usbReadConfig [],
      .usbWriteConfig [], .usbIdBoard [], .usbUpdateLed [], .usbSenseInverters [], .usbTdo 0, .usbRuntest [],
      .usbNullTdi [], .usbSingleTestVector [], .usbGetTestVector [], .usbSetOscFreq [], .usbEnableReturn [],
      .usbDisableReturn [], .usbReset []] : List Instr).map some := by decide +kernel

theorem test_decode_admitted_usb_words :
    ([0b01000000, 0b01010000, 0b00000101, 0b01001001, 0b01000010, 0b01000011, 0b01000100, 0b01000110, 0b01001111]
      : List Nat).map (decodeTableWord 8) =
    ([.usbInfo [], .usbFlashOnOff false, .usbWriteEedata 0 0, .usbProg [], .usbTmsTdi false false,
      .usbTmsTdiTdo false false, .usbTdiTdo [] false, .usbTdi [] false, .usbTapSeq []] : List Instr).map some := by
  decide +kernel

/-- The operand bytes of a frame follow its opcode byte (R70). -/
theorem test_decode_usb_operands :
    decode (.frame 0x50 (.onOff 0x01)) = .ok (.usbFlashOnOff true)
    ∧ decode (.frame 0x50 (.onOff 0x00)) = .ok (.usbFlashOnOff false)
    ∧ decode (.frame 0x05 (.eeprom 0xFE 0xAC)) = .ok (.usbWriteEedata 0xFE 0xAC)
    ∧ decode (.frame 0x42 (.tick true false)) = .ok (.usbTmsTdi true false)
    ∧ decode (.frame 0x46 (.bulk [true, false] true)) = .ok (.usbTdi [true, false] true)
    ∧ decode (.frame 0x40 (.raw [7])) = .ok (.usbInfo [7]) := by decide +kernel

theorem test_decode_rejects_by_name :
    decode (.frame 0x99 (.raw [])) = .error (.unknownOpcode 0x99)
    ∧ decode (.frame 0x50 (.onOff 0x02)) = .error (.badOnOffByte 0x02)
    ∧ decode (.frame 0x44 (.raw [])) = .error (.badFrameOperand 0x44)
    ∧ decode (.named .tick [.bit true]) = .error (.badArguments .tick)
    ∧ decodeTableWord 8 0b10011001 = none := by decide +kernel

/-- USER1 is `0b000010` (R75); another 6-bit value is shifted as it is, bit 0 first (R83). -/
theorem test_decode_ir_words :
    decodeTableWord 6 0b000010 = some .irUser1
    ∧ decodeTableWord 6 0b000011 = some (.shiftInstruction [true, true, false, false, false, false])
    ∧ decode (.named .user2 []) = .ok .irUser2 ∧ decode (.named .idcode []) = .ok .irIdcode
    ∧ decode (.named .usercode []) = .ok .irUsercode ∧ decode (.named .cfgIn []) = .ok .irCfgIn
    ∧ decode (.named .jprogram []) = .ok .irJprogram ∧ decode (.named .jstart []) = .ok .irJstart
    ∧ decode (.named .bypass []) = .ok .irBypass := by decide +kernel

theorem test_decode_sub_instructions :
    decode (.named .subCapabilities []) = .ok .subCapabilities ∧ decode (.named .subFlashSize []) = .ok .subFlashSize
    ∧ decode (.named .subFlashErase []) = .ok .subFlashErase
    ∧ decode (.named .subFlashPgm [.nat 0x80, .nat 2]) = .ok (.subFlashPgm 0x80 2)
    ∧ decode (.named .subFlashRead [.nat 8, .nat 9]) = .ok (.subFlashRead 8 9) := by decide +kernel

theorem test_decode_tap_calls :
    decode (.named .tick [.bit true, .bit false]) = .ok (.tick true false)
    ∧ decode (.named .goto [.bits [true, false]]) = .ok (.goto [true, false])
    ∧ decode (.named .path [.tapState .shiftDr, .tapState .shiftIr]) = .ok (.path .shiftDr .shiftIr)
    ∧ decode (.named .gotoState [.tapState .shiftIr]) = .ok (.gotoState .shiftIr)
    ∧ decode (.named .assertState [.tapState .pauseDr]) = .ok (.assertState .pauseDr)
    ∧ decode (.named .shiftInstruction [.bits (z 6)]) = .ok (.shiftInstruction (z 6))
    ∧ decode (.named .shiftData [.bits [true], .bit false]) = .ok (.shiftData [true] false)
    ∧ decode (.named .reset []) = .ok .reset
    ∧ decode (.named .loadInstructionThenData [.bits (z 6), .bits [true], .bit true]) =
      .ok (.loadInstructionThenData (z 6) [true] true)
    ∧ decode (.named .scanDR [.bits [true], .bit false]) = .ok (.scanDR [true] false) := by decide +kernel

theorem test_decode_codec_calls :
    decode (.named .makeBits [.nat 6, .nat 2]) = .ok (.makeBits 6 2)
    ∧ decode (.named .concat [.bits [true], .bits [false]]) = .ok (.concat [true] [false])
    ∧ decode (.named .toInt [.bits [true]]) = .ok (.toInt [true])
    ∧ decode (.named .toBytes [.bits [true]]) = .ok (.toBytes [true])
    ∧ decode (.named .fromBytes [.bytes [5], .nat 3]) = .ok (.fromBytes [5] 3)
    ∧ decode (.named .reverse [.byte 1]) = .ok (.reverse 1)
    ∧ decode (.named .payloadBits [.bytes [1]]) = .ok (.payloadBits [1])
    ∧ decode (.named .payloadBytes [.bits []]) = .ok (.payloadBytes [])
    ∧ decode (.named .le32 [.nat 300]) = .ok (.le32 300)
    ∧ decode (.named .command [.byte 0x40, .bytes [7]]) = .ok (.command 0x40 [7])
    ∧ decode (.named .hasCap [.word 5, .nat 10]) = .ok (.hasCap 5 10)
    ∧ decode (.named .decodeStatus [.word 1]) = .ok (.decodeStatus 1) := by decide +kernel

theorem test_decode_flash_calls :
    decode (.named .checkUser1 []) = .ok .checkUser1
    ∧ decode (.named .probeCapabilities []) = .ok .probeCapabilities
    ∧ decode (.named .ensureCapability [.nat 10, .bit true]) = .ok (.ensureCapability 10 true)
    ∧ decode (.named .readGeometry []) = .ok .readGeometry
    ∧ decode (.named .validateRange [.nat 16, .nat 4]) = .ok (.validateRange 16 4)
    ∧ decode (.named .eraseFlash []) = .ok .eraseFlash
    ∧ decode (.named .pollUntilTerminal []) = .ok .pollUntilTerminal
    ∧ decode (.named .programChunk [.nat 16, .bytes [1, 2]]) = .ok (.programChunk 16 [1, 2])
    ∧ decode (.named .setFlashPin [.bit true]) = .ok (.setFlashPin true)
    ∧ decode (.named .readFlash [.nat 16, .nat 31, .bit true]) = .ok (.readFlash 16 31 true)
    ∧ decode (.named .writeFlash [.bytes [1], .nat 16, .bit false]) = .ok (.writeFlash [1] 16 false)
    ∧ decode (.named .releaseOnExit []) = .ok .releaseOnExit := by decide +kernel

theorem test_decode_session_calls :
    decode (.named .openSession [.config ready.cfg]) = .ok (.openSession ready.cfg)
    ∧ decode (.named .readIdcode []) = .ok .readIdcode ∧ decode (.named .checkIdentity []) = .ok .checkIdentity
    ∧ decode (.named .readUsercode []) = .ok .readUsercode
    ∧ decode (.named .toggleProgPin []) = .ok .toggleProgPin
    ∧ decode (.named .enableFlash [.bit true]) = .ok (.enableFlash true)
    ∧ decode (.named .configureFpga [.bytes [1]]) = .ok (.configureFpga [1])
    ∧ decode (.named .parseAddr [.text ['1', '6']]) = .ok (.parseAddr ['1', '6']) := by decide +kernel

/-! ### TAP operations -/

/-- T1, T2, T3. -/
theorem test_tick :
    seen clocked (exec (.tick true false) ready) = some ([true], [false], .known .selectDrScan)
    ∧ seen clocked (exec (.tick true false) (inTap .testLogicReset)) = some ([true], [false], .known .testLogicReset)
    ∧ seen (fun t => (t.tap, t.devTap)) (exec (.tick true false) { inTap .shiftDr with tap := .unknown }) =
      some (.unknown, .exit1Dr) := by decide +kernel

/-- A tick returns its TDO, and records its pre-state (R10, R101). -/
theorem test_tick_returns_tdo :
    seen (fun t => (t.result, t.history)) (exec (.tick false true) (withTdo [true])) =
      some (.bit true, [.tick false true true (.known .runTestIdle)]) := by decide +kernel

/-- T5, T6. -/
theorem test_goto :
    seen clocked (exec (.goto [true, false, false, true, true, false]) ready) =
      some (str 6 0b100110, z 6, .known .runTestIdle)
    ∧ seen clocked (exec (.goto [false, true, false]) (inTap .exit1Ir)) =
      some (str 3 0b010, z 3, .known .shiftIr) := by decide +kernel

/-- The entries of R106 that T7, T8, T9 and T10 walk, as bits. -/
theorem test_path :
    seen State.result (exec (.path .runTestIdle .shiftIr) ready) = some (.bits (str 4 0b1100))
    ∧ seen State.result (exec (.path .updateDr .shiftDr) ready) = some (.bits (str 3 0b100))
    ∧ seen clocked (exec (.path .shiftDr .shiftIr) ready) = some ([], [], .known .runTestIdle) := by decide +kernel

/-- T9, T10, T11. -/
theorem test_gotoState :
    seen clocked (exec (.gotoState .shiftIr) (inTap .shiftDr)) = some (str 6 0b111100, z 6, .known .shiftIr)
    ∧ seen clocked (exec (.gotoState .pauseIr) (inTap .pauseIr)) = some ([], [], .known .pauseIr)
    ∧ seen failure (exec (.gotoState .runTestIdle) { ready with tap := .unknown }) =
      some ([⟨.protocolDesyncError, .tapMismatch .runTestIdle .unknown⟩], 0, .unknown) := by decide +kernel

/-- T12, T13. -/
theorem test_assertState :
    seen failure (exec (.assertState .runTestIdle) ready) = some ([], 0, .known .runTestIdle)
    ∧ seen failure (exec (.assertState .shiftDr) ready) =
      some ([⟨.protocolDesyncError, .tapMismatch .shiftDr (.known .runTestIdle)⟩], 0, .unknown) := by decide +kernel

/-- T20. -/
theorem test_shiftInstruction :
    seen (fun t => (clocked t, t.pendingIR))
        (exec (.shiftInstruction [false, true, false, false, false, false]) { inTap .shiftIr with pendingIR := .clean }) =
      some ((str 6 0b000001, str 6 0b010000, .known .exit1Ir), .instr [false, true, false, false, false, false]) := by
  decide +kernel

/-- T21, T22, T23. -/
theorem test_shiftInstruction_raises :
    seen failure (exec (.shiftInstruction (z 6)) ready) =
      some ([⟨.protocolDesyncError, .tapMismatch .shiftIr (.known .runTestIdle)⟩], 0, .unknown)
    ∧ seen failure (exec (.shiftInstruction (z 5)) (inTap .shiftIr)) =
      some ([⟨.invalidOperand, .operand 5⟩], 0, .known .shiftIr)
    ∧ seen failure (exec (.shiftInstruction []) (inTap .shiftIr)) =
      some ([⟨.invalidOperand, .operand 0⟩], 0, .known .shiftIr) := by decide +kernel

/-- T24, T25. -/
theorem test_shiftData :
    seen (fun t => (clocked t, t.result))
        (exec (.shiftData [true, false, true] true)
          { withTdo [true, true, false] with tap := .known .shiftDr, devTap := .shiftDr }) =
      some ((str 3 0b001, str 3 0b101, .known .exit1Dr), .bits [true, true, false])
    ∧ seen (fun t => (clocked t, t.result)) (exec (.shiftData [true] false) (inTap .shiftDr)) =
      some (([true], [true], .known .exit1Dr), .bits []) := by decide +kernel

/-- T26, T27. -/
theorem test_shiftData_raises :
    seen failure (exec (.shiftData [] true) (inTap .shiftDr)) =
      some ([⟨.invalidOperand, .operand 0⟩], 0, .known .shiftDr)
    ∧ seen failure (exec (.shiftData [true] false) (inTap .exit1Dr)) =
      some ([⟨.protocolDesyncError, .tapMismatch .shiftDr (.known .exit1Dr)⟩], 0, .unknown) := by decide +kernel

/-- T40. -/
theorem test_reset :
    seen (fun t => (clocked t, t.devTap, t.lastIR))
        (exec .reset { ready with tap := .unknown, devTap := .updateIr }) =
      some ((str 6 0b111110, z 6, .known .runTestIdle), .runTestIdle, .unknown) := by decide +kernel

/-- T41. -/
theorem test_loadInstructionThenData :
    seen (fun t => (clocked t, t.lastIR))
        (exec (.loadInstructionThenData [false, true, false, false, false, false] (bitsOf 8 0xA5) false)
          { ready with lastIR := .unknown }) =
      some ((str 24 0b110000000111000000000110, str 24 0b000001000000001010010100, .known .runTestIdle),
        .instr [false, true, false, false, false, false]) := by decide +kernel

/-- T42, T43. -/
theorem test_loadInstructionThenData_edges :
    seen clocked (exec (.loadInstructionThenData user1 [] false) ready) =
      some (str 17 0b11000000011100110, str 17 0b00000100000000000, .known .runTestIdle)
    ∧ seen failure (exec (.loadInstructionThenData user1 [true] false) (inTap .shiftDr)) =
      some ([⟨.protocolDesyncError, .tapMismatch .runTestIdle (.known .shiftDr)⟩], 0, .unknown) := by decide +kernel

/-- T44, and the data bits of a scan of four. -/
theorem test_scanDR :
    seen clocked (exec (.scanDR [true] false) ready) = some (str 6 0b100110, str 6 0b000100, .known .runTestIdle)
    ∧ seen (fun t => (t.result, t.lastIR)) (exec (.scanDR (z 4) true) (withTdo (z 3 ++ [true, false, true, true]))) =
      some (.bits [true, false, true, true], .instr user1) := by decide +kernel

/-- T31, T34: raw ticks in Shift-IR leave `lastIR` Unknown after Update-IR. -/
theorem test_raw_ticks_in_shift_ir :
    seen State.lastIR (exec (.goto (str 12 0b110000000110)) ready) = some .unknown
    ∧ seen State.lastIR (exec (.goto (str 6 0b010110)) { inTap .exit1Ir with pendingIR := .instr user1 }) =
      some .unknown := by decide +kernel

/-- R75: the IR rows shift their own value, bit 0 first. -/
theorem test_ir_rows :
    ([.irUser1, .irUser2, .irIdcode, .irUsercode, .irCfgIn, .irJprogram, .irJstart, .irBypass] : List Instr).map
        (fun i => seen clocked (exec i (inTap .shiftIr))) =
      ([0b010000, 0b110000, 0b100100, 0b000100, 0b101000, 0b110100, 0b001100, 0b111111] : List Nat).map
        (fun v => some (str 6 0b000001, str 6 v, .known .exit1Ir)) := by decide +kernel

/-! ### The codec, the capability test and the status words -/

/-- B1, B2, B3, B4. -/
theorem test_makeBits :
    seen State.result (exec (.makeBits 6 0b000010) ready) = some (.bits [false, true, false, false, false, false])
    ∧ seen State.result (exec (.makeBits 0 0) ready) = some (.bits [])
    ∧ seen State.errors (exec (.makeBits 0 1) ready) = some [⟨.invalidOperand, .operands 0 1⟩]
    ∧ seen State.errors (exec (.makeBits 3 8) ready) = some [⟨.invalidOperand, .operands 3 8⟩] := by decide +kernel

/-- B6, B7. -/
theorem test_concat :
    seen State.result (exec (.concat [true, false] [true]) ready) = some (.bits [true, false, true])
    ∧ seen State.result (exec (.concat [] [true, false]) ready) = some (.bits [true, false]) := by decide +kernel

/-- B8, B9, B28. -/
theorem test_toInt :
    seen State.result (exec (.toInt [true, true, false, false, false, false, false, true]) ready) = some (.nat 0x83)
    ∧ seen State.result (exec (.toInt []) ready) = some (.nat 0)
    ∧ toInt (payloadBits [0x01, 0x02, 0x80, 0xFF]) = 0xFF014080 := by decide +kernel

/-- B11, B12, B13, B14. -/
theorem test_toBytes :
    seen State.result (exec (.toBytes [true, false, true]) ready) = some (.bytes [0x05])
    ∧ seen State.result (exec (.toBytes []) ready) = some (.bytes [])
    ∧ toBytes (bitsOf 9 0x1FF) = [0xFF, 0x01] ∧ toBytes (bitsOf 12 0xABC) = [0xBC, 0x0A] := by decide +kernel

/-- B15, B17, B18, B19. -/
theorem test_fromBytes :
    seen State.result (exec (.fromBytes [0x05] 3) ready) = some (.bits [true, false, true])
    ∧ seen State.result (exec (.fromBytes [0x34, 0x12] 12) ready) = some (.bits (bitsOf 12 0x234))
    ∧ seen State.errors (exec (.fromBytes [0x05] 9) ready) = some [⟨.invalidOperand, .operands 9 1⟩]
    ∧ seen State.result (exec (.fromBytes [] 0) ready) = some (.bits []) := by decide +kernel

/-- B20, and S6 through the row. -/
theorem test_reverse :
    seen State.result (exec (.reverse 0x01) ready) = some (.byte 0x80)
    ∧ ([0x12, 0xF0, 0x80, 0xC3, 0xA5] : List Byte).map reverse = [0x48, 0x0F, 0x01, 0xC3, 0xA5] := by decide +kernel

/-- B21, B23. -/
theorem test_payloadBits :
    seen State.result (exec (.payloadBits [0x01, 0xC0]) ready) = some (.bits (str 16 0b0000000111000000))
    ∧ seen State.result (exec (.payloadBits []) ready) = some (.bits []) := by decide +kernel

/-- B24, B25, B26. -/
theorem test_payloadBytes :
    seen State.result (exec (.payloadBytes (str 8 0b10000000)) ready) = some (.bytes [0x80])
    ∧ seen State.result (exec (.payloadBytes (str 8 0b00001111)) ready) = some (.bytes [0x0F])
    ∧ seen State.errors (exec (.payloadBytes [true, false, true]) ready) = some [⟨.invalidOperand, .operand 3⟩] := by
  decide +kernel

/-- B29, B30, B31. -/
theorem test_le32 :
    seen State.result (exec (.le32 300) ready) = some (.bytes [0x2C, 0x01, 0x00, 0x00])
    ∧ seen State.result (exec (.le32 0xFFFFFFFF) ready) = some (.bytes [0xFF, 0xFF, 0xFF, 0xFF])
    ∧ seen State.errors (exec (.le32 (2 ^ 32)) ready) = some [⟨.invalidOperand, .operand (2 ^ 32)⟩] := by
  decide +kernel

/-- K1 to K8, with bit 23 for 'any'. -/
theorem test_hasCap :
    ([(0xA5000CA5, 10), (0xA5000CA5, 12), (0xA50004A5, 10), (0xA50004A5, 11), (0xA40004A5, 10), (0xA50004A4, 10),
      (0x12345678, 23), (0xFFFFFFFF, 23)] : List (Word32 × Nat)).map
        (fun v => seen State.result (exec (.hasCap v.1 v.2) ready)) =
      [true, false, true, false, false, false, false, false].map (fun b => some (.bit b)) := by decide +kernel

/-- R30, under EX: Passed is 1, Failed is 2, and everything else is in progress. -/
theorem test_decodeStatus :
    ([1, 2, 0, 0xFFFFFFFF] : List Word32).map (fun w => seen State.result (exec (.decodeStatus w) ready)) =
      [OperationStatus.passed, .failed, .inProgress, .inProgress].map (fun st => some (.status st)) := by
  decide +kernel

/-! ### Frames -/

/-- R161, R189: the frame, one write and one read, and the response cut to its length. -/
theorem test_usbInfo :
    seen (fun t => (t.result, t.history)) (exec (.usbInfo [7]) (withAnswers [.ok [], .ok [1, 2, 3, 4, 5]])) =
      some (.bytes [1, 2, 3, 4], [.write [0x40, 7], .read [1, 2, 3, 4]]) := by decide +kernel

/-- F1, F2. -/
theorem test_flash_pin :
    seen (fun t => (t.history, t.flashPin)) (exec (.usbFlashOnOff true) ready) =
      some ([.write [0x50, 0x01], .read []], .asserted)
    ∧ seen (fun t => (t.history, t.flashPin)) (exec (.setFlashPin false) ready) =
      some ([.write [0x50, 0x00], .read []], .released)
    ∧ seen (fun t => (t.history, t.flashPin)) (exec .releaseOnExit { ready with flashPin := .asserted }) =
      some ([.write [0x50, 0x00], .read []], .released) := by decide +kernel

/-- F3: the write fails; the device's TAP state is a draw (R23). -/
theorem test_flash_pin_write_fails :
    seen (fun t => (t.errors, t.flashPin, t.tap, t.devTap, t.ended)) (exec (.setFlashPin true) (withAnswers [.fail .write])) =
      some ([⟨.transportError, .transport .write⟩], .unknown, .unknown, .pauseDr, true) := by decide +kernel

/-- F4, F5, F6. -/
theorem test_command :
    seen (fun t => (t.errors, t.history)) (exec (.command 0x99 []) ready) =
      some ([⟨.invalidOperand, .operand 0x99⟩], [.error .invalidOperand])
    ∧ exec (.command 0x47 []) ready = .refused (.refusedOpcode 0x47)
    ∧ exec (.command 0xff []) ready = .refused (.refusedOpcode 0xff) := ⟨by decide +kernel, rfl, rfl⟩

/-- F7 (S16), F8: the value byte is `0xAC`, and the disable value. -/
theorem test_enableFlash :
    seen State.history (exec (.enableFlash true) ready) = some [.write (0x05 :: Config.encodeEeWrite 0xFE 0xAC), .read []]
    ∧ seen State.history (exec (.enableFlash false) ready) =
      some [.write (0x05 :: Config.encodeEeWrite 0xFE 0x00), .read []] := ⟨rfl, rfl⟩

theorem test_usbWriteEedata :
    seen State.history (exec (.usbWriteEedata 0x12 0x34) ready) =
      some [.write (0x05 :: Config.encodeEeWrite 0x12 0x34), .read []] := rfl

/-- F9, F10. -/
theorem test_usbTdi :
    seen (fun t => framesOf t.history) (exec (.usbTdi (bitsOf 12 0xABC) true) (inTap .shiftDr)) =
      some [.write [0x46, 0x0C, 0, 0, 0, 0xBC, 0x0A], .read []]
    ∧ seen (fun t => (framesOf t.history, clocked t))
        (exec (.usbTdi (bitsOf 12 0xABC) true) { inTap .shiftDr with params := { ex with bulkLenUnit := .bytes } }) =
      some ([.write [0x46, 0x02, 0, 0, 0, 0xBC, 0x0A], .read []],
        (str 12 0b000000000001, bitsOf 12 0xABC, .known .exit1Dr)) := by decide +kernel

/-- R176: the response's bits are the ticks' TDO and the result; a short response raises after the ticks. -/
theorem test_usbTdiTdo :
    seen (fun t => (t.result, clocked t))
        (exec (.usbTdiTdo [true, false, true] false)
          { withAnswers [.ok [], .ok [0x05]] with tap := .known .shiftDr, devTap := .shiftDr }) =
      some (.bits [true, false, true], (z 3, [true, false, true], .known .shiftDr))
    ∧ seen failure (exec (.usbTdiTdo [true, false, true] false) (inTap .shiftDr)) =
      some ([⟨.invalidOperand, .operands 3 0⟩], 3, .known .shiftDr) := by decide +kernel

/-- R72: the size of the response of `TDI_TDO` follows from the `len` field alone. -/
theorem test_bulk_response_size :
    ([z 8, str 8 0xFF, z 9] : List BitSeq).map (fun b => responseLen ex 0x44 (bulkBytes ex b)) = [4, 4, 1]
    ∧ lenField [0x2C, 0x01, 0x00, 0x00, 0xFF] = 300 := by decide +kernel

/-- R173, R176, R181: raw frames of the primitives tick as their rows do; three bits in one byte. -/
theorem test_raw_frame_ticks :
    frameTicks ex 0x4f (encodeTmsSeq (str 4 0b1100)) = [(true, false), (true, false), (false, false), (false, false)]
    ∧ frameTicks ex 0x46 [3, 0, 0, 0, 0x05] = bulkTicks [true, false, true] (Config.bulkMark 0x46 [3, 0, 0, 0, 0x05]) :=
  ⟨by rw [frameTicks, if_neg (by decide), if_pos rfl, decodeTmsSeq_encodeTmsSeq]; rfl, rfl⟩

/-- R174, R175: one tick at the port. -/
theorem test_usb_ticks :
    seen clocked (exec (.usbTmsTdi true true) ready) = some ([true], [true], .known .selectDrScan)
    ∧ seen (fun t => (t.tap, t.devTap)) (exec (.usbTmsTdiTdo true false) ready) =
      some (.known .selectDrScan, .selectDrScan) := by decide +kernel

/-- R181: the ticks of a TMS sequence carry TDI 0. -/
theorem test_usbTapSeq :
    seen clocked (exec (.usbTapSeq (str 4 0b1100)) ready) = some (str 4 0b1100, z 4, .known .shiftIr)
    ∧ seen State.history (exec (.usbTapSeq []) ready) = some [] := by decide +kernel

/-- R182. -/
theorem test_usbProg :
    seen (fun t => (t.history, t.caps, t.tap, t.devTap)) (exec (.usbProg [9]) { ready with caps := some 5 }) =
      some ([.write [0x49, 9], .read []], none, .unknown, .runTestIdle) := by decide +kernel

/-! ### The flash protocol -/

/-- R76, R77, P-4: the command scans; the read frame is the 68-tick row of P3. -/
theorem test_sub_rows :
    ([.subCapabilities, .subFlashSize, .subFlashErase] : List Instr).map (fun i => seen clocked (exec i ready)) =
      ([0b000001000000001000000000, 0b000001000000000100000000, 0b000001000000001100000000] : List Nat).map
        (fun v => some (str 24 0b110000000111000000000110, str 24 v, .known .runTestIdle)) := by decide +kernel

theorem test_sub_rows_with_operands :
    seen clocked (exec (.subFlashRead 8 8) ready) =
      some (str 68 0b11000000011100000000000000000000000000000000000000000000000000000110,
        str 68 0b00000100000000101000000001000000000000000000000100000000000000000000, .known .runTestIdle)
    ∧ seen (fun t => (clocked t).2.1) (exec (.subFlashPgm 0x80 2) ready) =
      some (str 68 0b00000100000000001000000000000100000000000000010000000000000000000000)
    ∧ seen failure (exec (.subFlashPgm 0x400000 1) ready) =
      some ([⟨.invalidOperand, .operands 22 0x400000⟩], 0, .known .runTestIdle) := by decide +kernel

/-- R211. -/
theorem test_checkUser1 :
    seen failure (exec .checkUser1 ready) = some ([], 0, .known .runTestIdle)
    ∧ seen failure (exec .checkUser1 { ready with lastIR := .unknown }) =
      some ([⟨.protocolDesyncError, .irMismatch user1 .unknown⟩], 0, .unknown) := by decide +kernel

/-- R212, with the draws of P3. -/
theorem test_probeCapabilities :
    seen (fun t => (t.caps, t.result, (ticksOf t.history).length)) (exec .probeCapabilities (withTdo (capsTdo 0xA5000CA5))) =
      some (some 0xA5000CA5, .word 0xA5000CA5, 61) := by decide +kernel

/-- R213: bit 10 present; bit 12 absent, with and without `start`. -/
theorem test_ensureCapability :
    seen failure (exec (.ensureCapability 10 false) (withTdo (capsTdo 0xA5000CA5))) =
      some ([], 61, .known .runTestIdle)
    ∧ seen failure (exec (.ensureCapability 12 false) (withTdo (capsTdo 0xA5000CA5))) =
      some ([⟨.capabilityAbsentError, .capability 12 0xA5000CA5⟩], 61, .known .runTestIdle)
    ∧ seen failure (exec (.ensureCapability 12 true) (withTdo (capsTdo 0xA5000CA5 ++ capsTdo 0xA50010A5))) =
      some ([], 122, .known .runTestIdle) := by decide +kernel

/-- G1 and G3 valid, G4 to G8 invalid. -/
theorem test_readGeometry :
    ([0x081610, 0x021620] : List Nat).map
        (fun g => seen (fun t => (t.geom, t.errors)) (exec .readGeometry { withTdo (geomTdo g) with geom := none })) =
      [some (some ⟨16, 22, 8⟩, []), some (some ⟨32, 22, 2⟩, [])]
    ∧ ([0x081600, 0x08160C, 0x081618, 0x080010, 0x001620] : List Nat).map
        (fun g => seen (fun t => (t.geom, t.errors)) (exec .readGeometry { withTdo (geomTdo g) with geom := none })) =
      ([(0, 22, 8), (12, 22, 8), (24, 22, 8), (16, 0, 8), (32, 22, 0)] : List (Nat × Nat × Nat)).map
        (fun v => some (none, [⟨.geometryInvalid, .geometry v.1 v.2.1 v.2.2⟩])) := by decide +kernel

/-- G2, G9, and the strides and block sizes of G1 and G3. -/
theorem test_geometry_values :
    validGeometry (geometryOf 0x000108) = true ∧ validGeometry (geometryOf 0xFFFF08) = true
    ∧ stride g1 = 2 ∧ blockSizeBytes g1 = 256 ∧ stride ⟨32, 22, 2⟩ = 4 ∧ blockSizeBytes ⟨32, 22, 2⟩ = 4
    ∧ blockSizeBytes (geometryOf 0xFFFF08) = 2 ^ 255 := by decide +kernel

/-- V1 to V5. -/
theorem test_validateRange :
    ([(0x10, 16), (0x11, 16), (0x10, 15), (0x11, 15), (0x00, 0)] : List (Nat × Nat)).map
        (fun v => seen State.errors (exec (.validateRange v.1 v.2) ready)) =
      [some [], some [⟨.alignmentError, .alignment 0x11 2⟩], some [⟨.alignmentError, .alignment 15 2⟩],
        some [⟨.alignmentError, .alignment 15 2⟩], some []] := by decide +kernel

/-- R216: the erase frame, then one poll, which passes. -/
theorem test_eraseFlash :
    seen (fun t => ((clocked t).2.1.take 24, (ticksOf t.history).length, t.status, t.busy, t.pc))
        (exec .eraseFlash (withTdo (z 27 ++ bitsOf 32 1))) =
      some (str 24 0b000001000000001100000000, 61, some 1, none, 1) := by decide +kernel

/-- Q1, Q5, and the first poll of Q3: the operation waits. -/
theorem test_pollUntilTerminal :
    seen (fun t => (t.status, t.errors, t.busy)) (exec .pollUntilTerminal (withTdo (z 3 ++ bitsOf 32 1))) =
      some (some 1, [], none)
    ∧ seen failure (exec .pollUntilTerminal { ready with cfg := ⟨1, some 0, 1, 1, false⟩ }) =
      some ([⟨.pollLimitExceeded, .pollCount 0⟩], 0, .known .runTestIdle)
    ∧ seen (fun t => (t.errors, t.busy, t.pc, t.ended)) (exec .pollUntilTerminal ready) =
      some ([], some ⟨1, .done⟩, 0, false) := by decide +kernel

/-- The second poll of Q3 and of Q4. -/
theorem test_poll_goes_on :
    seen (fun t => (t.errors, t.ended, t.pc)) (step { withTdo (z 3 ++ bitsOf 32 2) with busy := some ⟨1, .done⟩ }) =
      some ([⟨.flashOperationFailed, .statusWord 2⟩], true, 0)
    ∧ seen failure (step { ready with busy := some ⟨2, .done⟩, cfg := ⟨1, some 2, 1, 1, false⟩ }) =
      some ([⟨.pollLimitExceeded, .pollCount 2⟩], 0, .known .runTestIdle) := by decide +kernel

/-- P4's chunk: the frame and the payload bits; then one poll. -/
theorem test_programChunk :
    seen (fun t => ((clocked t).2.1.take 105, t.result, t.status))
        (exec (.programChunk 0x100 [0x01, 0x02, 0x80, 0xFF]) (withTdo (z 108 ++ bitsOf 32 1))) =
      some (str 68 0b00000100000000001000000000000100000000000000010000000000000000000000
        ++ str 37 0b0000000000100000010100000001111111100, .none, some 1) := by decide +kernel

/-- R57, R218: a chunk is not empty and not longer than a block, here of 256 bytes. -/
theorem test_programChunk_sizes :
    ([0, 257, 258] : List Nat).map
        (fun n => seen failure (exec (.programChunk 0 (List.replicate n 0)) ready)) =
      ([0, 257, 258] : List Nat).map
        (fun n => some ([⟨.invalidOperand, .operand n⟩], 0, .known .runTestIdle)) := by decide +kernel

/-- P-3, and a misaligned chunk (R55). -/
theorem test_programChunk_raises :
    seen failure (exec (.programChunk 0x800000 [1, 2]) ready) =
      some ([⟨.invalidOperand, .operands 22 0x400000⟩], 0, .known .runTestIdle)
    ∧ seen failure (exec (.programChunk 0x11 [1, 2]) ready) =
      some ([⟨.alignmentError, .alignment 0x11 2⟩], 0, .known .runTestIdle) := by decide +kernel

/-- V6, V7. -/
theorem test_readFlash_raises :
    seen (fun t => (t.errors, t.history)) (exec (.readFlash 0x20 0x10 true) ready) =
      some ([⟨.invalidArgument, .range 0x20 0x10⟩], [.error .invalidArgument])
    ∧ seen (fun t => (failure t, t.flashPin))
        (exec (.readFlash 0x10 0x10 true) (withTdo (capsTdo 0xA5000CA5 ++ geomTdo 0x081610))) =
      some (([⟨.alignmentError, .alignment 1 2⟩], 114, .known .runTestIdle), .released) := by decide +kernel

/-- The first two bytes of P3. -/
theorem test_readFlash :
    seen (fun t => (t.result, t.flashPin, framesOf t.history))
        (exec (.readFlash 0x10 0x11 true)
          (withTdo (capsTdo 0xA5000CA5 ++ geomTdo 0x081610 ++ z 71 ++ payloadBits [0x00, 0x01]))) =
      some (.bytes [0x00, 0x01], .released, [.write [0x50, 0x01], .read [], .write [0x50, 0x00], .read []]) := by
  decide +kernel

/-- P4 with one word whose first status is Passed. -/
theorem test_writeFlash :
    seen (fun t => (t.status, t.flashPin, t.errors, framesOf t.history))
        (exec (.writeFlash [0x80, 0xFF] 0x100 false)
          (withTdo (capsTdo 0xA5000CA5 ++ geomTdo 0x081610 ++ z 92 ++ bitsOf 32 1))) =
      some (some 1, .released, [],
        [.write [0x50, 0x01], .read [], .progress 2, .write [0x50, 0x00], .read []]) := by decide +kernel

/-- E7. -/
theorem test_writeFlash_needs_identity :
    seen (fun t => (t.errors, t.history)) (exec (.writeFlash [1, 2] 0 true) { ready with session := .opened }) =
      some ([⟨.deviceIdentityError, .session .opened⟩], [.error .deviceIdentityError]) := by decide +kernel

/-- H1 to H7, by their address ranges. -/
theorem test_chunks :
    ([(300, 8), (512, 8), (0, 8), (1, 8), (256, 8), (4, 2), (10, 2)] : List (Nat × Nat)).map
        (fun v => (chunkPlan ⟨8, 22, BitVec.ofNat 8 v.2⟩ 0 (List.replicate v.1 0)).map fun c => (c.1, c.1 + c.2.length)) =
      [[(0, 256), (256, 300)], [(0, 256), (256, 512)], [], [(0, 1)], [(0, 256)], [(0, 4)], [(0, 4), (4, 8), (8, 10)]] := by
  decide +kernel

/-! ### The session -/

/-- R250's example: the first read times out, the second passes the checksum. -/
theorem test_openSession_history :
    seen State.history (exec (.openSession ready.cfg) (closed [.ok [], .ok [], .fail .timeout, .ok [1, 2]])) =
      some [.write (0x40 :: Config.encodeInfo), .fail .read, .read [1, 2]] := rfl

/-- E1, E2, E3. -/
theorem test_openSession :
    seen (fun t => (t.session, t.errors, t.drawn.answers))
        (exec (.openSession ready.cfg) (closed [.ok [], .ok [], .fail .timeout, .ok [1, 2]])) = some (.opened, [], 4)
    ∧ seen (fun t => (t.session, t.errors))
        (exec (.openSession ready.cfg) (closed [.ok [], .ok [], .fail .timeout, .fail .read])) =
      some (.closed, [⟨.transportError, .transport .read⟩])
    ∧ seen (fun t => (t.session, t.errors)) (exec (.openSession ready.cfg) (closed [.ok [], .ok [], .ok [3]])) =
      some (.closed, [⟨.deviceIdentityError, .checksum [3]⟩]) := by decide +kernel

/-- R23, R305: the failed read that the handshake catches loses the TAP, and its device state is a draw. -/
theorem test_openSession_retry_loses_the_tap :
    seen (fun t => ((t.session, t.errors), (t.tap, t.devTap, t.lastIR), t.drawn.devTaps))
        (exec (.openSession ready.cfg)
          { ready with session := .closed, script := { ready.script with answers := [.ok [], .ok [], .fail .read, .ok [3]] } }) =
      some ((.closed, [⟨.deviceIdentityError, .checksum [3]⟩]), (.unknown, .pauseDr, .unknown), 1) := by decide +kernel

/-- R42, R261, R330: after a close the device's TAP state is the next draw, the rest as at session open. -/
theorem test_closeSession :
    (ready.closeSession.session, ready.closeSession.tap, ready.closeSession.devTap, ready.closeSession.geom,
      ready.closeSession.drawn.devTaps) = (.closed, .unknown, .pauseDr, none, 1) := by decide +kernel

/-- P2's IDCODE read, and E4. -/
theorem test_readIdcode :
    seen (fun t => (t.deviceId, t.result, t.lastIR)) (exec .readIdcode (withTdo (z 14 ++ bitsOf 32 0x02218093))) =
      some (some 0x02218093, .word 0x02218093, .instr (bitsOf 6 0b001001))
    ∧ seen failure (exec .readIdcode { ready with tap := .unknown }) =
      some ([⟨.protocolDesyncError, .tapMismatch .runTestIdle .unknown⟩], 0, .unknown) := by decide +kernel

/-- E5, E6. -/
theorem test_checkIdentity :
    seen State.session (exec .checkIdentity { ready with session := .opened, deviceId := some 0x02218093 }) =
      some .identified
    ∧ seen (fun t => (t.session, t.errors))
        (exec .checkIdentity { ready with session := .opened, deviceId := some 0x02218092 }) =
      some (.opened, [⟨.deviceIdentityError, .idcode ['0', 'x', '0', '2', '2', '1', '8', '0', '9', '2']⟩]) := by
  decide +kernel

/-- R254. -/
theorem test_readUsercode :
    seen (fun t => (t.deviceId, t.result, t.lastIR)) (exec .readUsercode (withTdo (z 14 ++ bitsOf 32 0x12345678))) =
      some (none, .word 0x12345678, .instr (bitsOf 6 0b001000)) := by decide +kernel

/-- E8, E9. -/
theorem test_toggleProgPin :
    seen (fun t => (t.tap, t.caps, t.lastIR, t.devTap)) (exec .toggleProgPin { ready with caps := some 5 }) =
      some (.unknown, none, .unknown, .runTestIdle) := by decide +kernel

/-- R260: an empty sequence, and one that does not end in Run-Test/Idle. -/
theorem test_configureFpga :
    seen (fun t => (t.caps, failure t)) (exec (.configureFpga []) { ready with caps := some 5 }) =
      some (none, [], 0, .known .runTestIdle)
    ∧ seen (fun t => (t.caps, failure t)) (exec (.configureFpga [1]) { ready with caps := some 5 }) =
      some (none, [⟨.protocolDesyncError, .tapMismatch .runTestIdle (.known .selectDrScan)⟩], 1, .unknown) := by
  decide +kernel

/-- E10. -/
theorem test_parseAddr :
    ([['0', 'x', '1', '0'], ['0', 'x', '1', 'f'], ['1', '6']] : List Text).map
        (fun s => seen State.result (exec (.parseAddr s) ready)) =
      [some (.nat 16), some (.nat 31), some (.nat 16)] := by decide +kernel

/-- E10, E11. -/
theorem test_parseAddr_raises :
    ([['0', 'X', '1', '0'], ['0', 'x'], ['1', 'O'], ['-', '1'], []] : List Text).all
        (fun s => seen State.errors (exec (.parseAddr s) ready) == some [⟨.invalidArgument, .argumentText s⟩]) = true := by
  decide +kernel

/-! ### Steps, and the lines of R84 -/

/-- A table word is placed where the next step reads its call. -/
theorem test_step_runs_the_word :
    seen clocked (step ({ inTap .shiftIr with pc := 2 }.withFetchWord 6 0b000010)) =
      some (str 6 0b000001, str 6 0b010000, .known .exit1Ir)
    ∧ step (ready.withFetchWord 8 0b01000111) = .refused (.refusedOpcode 0x47) := ⟨by decide +kernel, rfl⟩

/-- R21: a program runs in order and stops at its end. -/
theorem test_step_program :
    seen (fun t => (t.pc, t.result)) (step (running [.named .le32 [.nat 1]])) = some (1, .bytes [1, 0, 0, 0])
    ∧ step ready = .fault .programComplete
    ∧ step { ready with ended := true } = .fault .runEnded
    ∧ step (running [.named .tick []]) = .refused .illTypedCall := ⟨by decide +kernel, rfl, rfl, rfl⟩

/-- Lines of P1, P3 and P4. -/
theorem test_assemble :
    assemble ex ready.cfg ["reset    ; 6 ticks".toList, "".toList, "lid USER1, 8'hA5".toList,
        "assert Run-Test/Idle".toList, "usb FLASH_ONOFF, 0x01".toList, "scandr 32'hFF014080".toList,
        "call readFlash(0x10, 0x1F, 1)".toList] =
      some [.named .reset [], .named .loadInstructionThenData [.bits user1, .bits (bitsOf 8 0xA5), .bit false],
        .named .assertState [.tapState .runTestIdle], .frame 0x50 (.onOff 0x01),
        .named .scanDR [.bits (bitsOf 32 0xFF014080), .bit false],
        .named .readFlash [.nat 0x10, .nat 0x1F, .bit true]] := by decide +kernel

/-! ### Witnesses: concrete states and operands that meet the hypotheses of the statements, clause by clause -/

theorem witness_PathIsTheUniqueShortestSequence :
    walk .runTestIdle (str 4 0b1100) = .shiftIr ∧ walk .runTestIdle (str 5 0b01100) = .shiftIr
    ∧ walk .pauseIr [] = .pauseIr := by decide +kernel

theorem witness_TickAdvancesBothStatesOrFails :
    ready.AnswersOk 2
    ∧ (withAnswers [.fail .timeout]).answerAt (withAnswers [.fail .timeout]).drawn.answers = .fail .timeout
    ∧ answered ((withAnswers [.ok [], .fail .read]).answerAt 0) = true
    ∧ (withAnswers [.ok [], .fail .read]).answerAt (0 + 1) = .fail .read := by decide +kernel

/-- One (pre, post) for each case of R104; the fourth case with each way its second premise can hold. -/
theorem witness_RawShiftsForgetTheInstruction :
    next .selectIrScan true = .testLogicReset ∧ nextTracked .unknown true = .unknown
    ∧ next .selectIrScan false = .captureIr
    ∧ (next .shiftIr true = .exit1Ir ∧ Tracked.known .exit1Ir ≠ .known .testLogicReset
        ∧ Tracked.known .exit1Ir ≠ .unknown ∧ Tracked.known .exit1Ir ≠ .known .captureIr)
    ∧ (next .exit1Ir true = .updateIr ∧ Tracked.known .exit1Ir ≠ .known .shiftIr)
    ∧ (∀ x, PendingIr.clean ≠ .instr x)
    ∧ (next .shiftIr false = .shiftIr ∧ Tracked.known .shiftIr ≠ .known .testLogicReset
        ∧ Tracked.known .shiftIr ≠ .known .captureIr ∧ Tracked.known .shiftIr ≠ .known .updateIr)
    ∧ (inTap .shiftIr).tap = .known .shiftIr ∧ (inTap .shiftIr).AnswersOk 6 := by
  refine ⟨rfl, rfl, rfl, by decide +kernel, by decide +kernel, ?_, by decide +kernel, rfl, by decide +kernel⟩
  intro x h
  cases h

theorem witness_MovesAreTheirTicks :
    ready.AnswersOk (2 * (str 6 0b100110).length) ∧ ready.AnswersOk (2 * ([] : BitSeq).length)
    ∧ (inTap .shiftDr).tap = .known .shiftDr ∧ (inTap .shiftDr).AnswersOk (2 * (path .shiftDr .shiftIr).length)
    ∧ (inTap .pauseIr).tap = .known .pauseIr ∧ (inTap .pauseIr).AnswersOk (2 * (path .pauseIr .pauseIr).length) := by
  decide +kernel

theorem witness_ConsistencyChecksPassOrRaise :
    ready.tap = .known .runTestIdle ∧ ready.tap ≠ .known .shiftDr
    ∧ ready.session = .identified ∧ ready.lastIR = .instr (bitsOf 6 0b000010)
    ∧ (State.session { ready with lastIR := .unknown } = .identified
      ∧ State.lastIR { ready with lastIR := .unknown } ≠ .instr (bitsOf 6 0b000010)) := by decide +kernel

theorem witness_InstructionShiftsAreSixTicks :
    (Instr.irUser2, bitsOf 6 0b000011) ∈ [(Instr.shiftInstruction (z 6), z 6), (.irUser1, bitsOf 6 0b000010),
      (.irUser2, bitsOf 6 (inTap .shiftIr).params.instrUser2.toNat)]
    ∧ (bitsOf 6 0b000011).length = 6 ∧ (z 6).length = 6 ∧ (inTap .shiftIr).tap = .known .shiftIr
    ∧ (inTap .shiftIr).AnswersOk 12 := by decide +kernel

theorem witness_DataShiftsReturnTheirTdoBits :
    (inTap .shiftDr).tap = .known .shiftDr ∧ [true] ≠ ([] : BitSeq) ∧ (inTap .shiftDr).AnswersOk (2 * [true].length)
    ∧ str 3 0b101 ≠ [] ∧ (inTap .shiftDr).AnswersOk (2 * (str 3 0b101).length) := by decide +kernel

theorem witness_TapPreconditionsAreCheckedBeforeAnyTick :
    (ready.tap ≠ .known .shiftIr ∧ ready.tap ≠ .known .shiftDr)
    ∧ State.tap { ready with tap := .unknown } ≠ .known .runTestIdle ∧ (inTap .shiftDr).tap ≠ .known .runTestIdle
    ∧ State.tap { ready with tap := .unknown } = .unknown
    ∧ ((inTap .shiftIr).tap = .known .shiftIr ∧ (z 5).length ≠ 6 ∧ (z 7).length ≠ 6)
    ∧ (inTap .shiftDr).tap = .known .shiftDr
    ∧ ((inTap .shiftDr).geom = some g1 ∧ 0 < 2 ^ addrWidth g1 ∧ 0x3FFFFF < 2 ^ addrWidth g1)
    ∧ (ready.tap = .known .runTestIdle ∧ ready.AnswersOk 6 ∧ ready.AnswersOk 8) := by decide +kernel

theorem witness_TapResetResynchronisesEveryState : ready.AnswersOk 12 := by decide +kernel

theorem witness_LoadInstructionThenDataIsItsTicks :
    ready.tap = .known .runTestIdle ∧ user1.length = 6
    ∧ ready.AnswersOk (2 * (4 + 6 + 4 + max (bitsOf 8 0xA5).length 1 + 2))
    ∧ ready.AnswersOk (2 * (4 + 6 + 4 + max ([] : BitSeq).length 1 + 2)) := by decide +kernel

theorem witness_ScanDRKeepsTheInstruction :
    ready.tap = .known .runTestIdle ∧ z 32 ≠ [] ∧ ready.AnswersOk (2 * (3 + (z 32).length + 2)) := by decide +kernel

theorem witness_OnlyResetMakesTheTapStateKnown :
    (∃ s t : State, step s = .next t ∧ s.tap = .unknown ∧ t.tap ≠ .unknown ∧ s.fetch = some (.named .reset []))
    ∧ ∃ s t : State, step s = .next t ∧ s.tap = .unknown ∧ t.tap ≠ .unknown
      ∧ s.fetch = some (.named .configureFpga [.bytes [2]]) := by
  obtain ⟨t, h, hv⟩ := next_of_seen (view := State.tap) (v := .known .runTestIdle)
    (o := step { running [.named .reset []] with tap := .unknown }) (by decide +kernel)
  obtain ⟨t', h', hv'⟩ := next_of_seen (view := State.tap) (v := .known .runTestIdle)
    (o := step { running [.named .configureFpga [.bytes [2]]] with tap := .unknown }) (by decide +kernel)
  exact ⟨⟨_, t, h, rfl, by simp [hv], rfl⟩, ⟨_, t', h', rfl, by simp [hv'], rfl⟩⟩

theorem witness_SubInstructionsAreCommandScans :
    ready.tap = .known .runTestIdle ∧ ready.AnswersOk (2 * (16 + subWidth ready.params.subCapabilities))
    ∧ ready.AnswersOk (2 * (16 + subWidth ready.params.subFlashPgm + 2 * addrWidth ready.geometry))
    ∧ 0x3FFFFF < 2 ^ addrWidth ready.geometry ∧ 2 ^ addrWidth ready.geometry ≤ 0x400000 := by decide +kernel

/-- For MakeBitsIsLeastSignificantFirst, ToIntIsTheInverseOfMakeBits, UnpackingReadsBitsInOrder, PackingRoundTrips,
PayloadsAreMostSignificantBitFirst and LengthFieldIsLittleEndian, each range at its boundary. -/
theorem witness_codec_statements :
    (7 < 2 ^ 3 ∧ 2 ^ 3 ≤ 8 ∧ 0 < 2 ^ 0 ∧ 2 ^ 0 ≤ 1)
    ∧ (8 ≤ 8 * ([5] : Bytes).length ∧ 8 * ([5] : Bytes).length < 9)
    ∧ ((z 12).length % 8 ≠ 0 ∧ (z 12).length % 8 ≤ 4)
    ∧ ((z 8).length % 8 = 0 ∧ (z 3).length % 8 ≠ 0)
    ∧ (2 ^ 32 - 1 < 2 ^ 32) := by decide +kernel

theorem witness_StatusDecodingIsTotal :
    (1 : Word32) = ready.params.statusPassed
    ∧ ((2 : Word32) ≠ ready.params.statusPassed ∧ (2 : Word32) = ready.params.statusFailed)
    ∧ (0 : Word32) ≠ ready.params.statusPassed ∧ (0 : Word32) ≠ ready.params.statusFailed := by decide +kernel

theorem witness_AddressTextsAreHexOrDecimal :
    [((15 : Fin 16), true)] ≠ [] ∧ [(7 : Fin 10)] ≠ []
    ∧ (∀ ds : List (Fin 16 × Bool), ds ≠ [] → ['0', 'X', '1'] ≠ '0' :: 'x' :: ds.map hexDigitChar)
    ∧ (∀ ds : List (Fin 10), ds ≠ [] → ['0', 'X', '1'] ≠ ds.map decDigitChar)
    ∧ (∀ ds : List (Fin 16 × Bool), ds ≠ [] → ['0', 'x'] ≠ '0' :: 'x' :: ds.map hexDigitChar) := by
  refine ⟨by decide, by decide, fun ds _ h => by simp at h, fun ds _ h => ?_, fun ds hd h => ?_⟩
  · have hx : 'X' ∈ ds.map decDigitChar := h ▸ (by simp)
    obtain ⟨d, _, hd⟩ := List.mem_map.mp hx
    exact decDigitChar_ne_upper_x d hd
  · simp at h
    exact hd h

/-- For PlainFramesAreOneExchange, FlashPinFollowsItsFrame, ProgForgetsTheFpga, TickFramesTickOnce and
CommandIsOneHalfDuplexExchange: a transport that answers, one whose write fails, and one whose read fails. -/
theorem witness_frame_statements :
    ready.AnswersOk 2 ∧ ready.session = .identified
    ∧ (withAnswers [.fail .write]).answerAt (withAnswers [.fail .write]).drawn.answers = .fail .write
    ∧ answered ((withAnswers [.ok [], .fail .timeout]).answerAt 0) = true
    ∧ (withAnswers [.ok [], .fail .timeout]).answerAt (0 + 1) = .fail .timeout := by decide +kernel

/-- The payload of one bit under each unit; a response that goes as far as the ticks, and one that does not. -/
theorem witness_CommandIsOneHalfDuplexExchange :
    ([true] ≠ ([] : BitSeq) ∧ [true].length < 2 ^ 32 ∧ ex.bulkLenUnit = .bits)
    ∧ ([true] : BitSeq) ≠ [] ∧ Params.bulkLenUnit { ex with bulkLenUnit := .bytes } = .bytes
    ∧ 8 ≤ 8 * ([5] : Bytes).length ∧ 8 * ([5] : Bytes).length < 9 := by decide +kernel

theorem witness_BulkFramesTickOncePerBit :
    z 8 ≠ [] ∧ (z 8).length < 2 ^ 32 ∧ (withAnswers [.ok [], .ok [5]]).AnswersOk 2
    ∧ (z 8).length ≤ 8 * ((withAnswers [.ok [], .ok [5]]).responseAt 0 0x44
        (bulkBytes (withAnswers [.ok [], .ok [5]]).params (z 8))).length
    ∧ 8 * ((withAnswers [.ok [], .ok [5]]).responseAt 0 0x44
        (bulkBytes (withAnswers [.ok [], .ok [5]]).params (z 9))).length < (z 9).length := by decide +kernel

theorem witness_UnlistedOpcodesRaiseAndSendNothing :
    (0x99 : Byte) ∉ admittedOpcodes ++ refusedOpcodes ∧ (running [.frame 0x99 (.raw [])]).ended = false
    ∧ (running [.frame 0x99 (.raw [])]).busy = none
    ∧ (running [.frame 0x99 (.raw [])]).fetch = some (.frame 0x99 (.raw [])) := by decide +kernel

theorem witness_OpenSessionHandshakes :
    (closed [.ok [], .ok [], .ok [1, 2]]).session = .closed
    ∧ ((closed [.ok [], .ok [], .ok [1, 2]]).AnswersOk 3
      ∧ infoChecksumOk ex ((closed [.ok [], .ok [], .ok [1, 2]]).infoResponse 2) = true)
    ∧ ((closed [.ok [], .ok [], .ok [3]]).AnswersOk 3
      ∧ infoChecksumOk ex ((closed [.ok [], .ok [], .ok [3]]).infoResponse 2) = false)
    ∧ ((closed [.ok [], .ok [], .fail .read, .ok [1, 2]]).AnswersOk 2
      ∧ (closed [.ok [], .ok [], .fail .read, .ok [1, 2]]).answerAt (0 + 2) = .fail .read
      ∧ answered ((closed [.ok [], .ok [], .fail .read, .ok [1, 2]]).answerAt (0 + 3)) = true
      ∧ infoChecksumOk ex ((closed [.ok [], .ok [], .fail .read, .ok [1, 2]]).infoResponse 3) = true)
    ∧ infoChecksumOk ex ((closed [.ok [], .ok [], .fail .read, .ok [3]]).infoResponse 3) = false := by decide +kernel

theorem witness_OpenSessionFailuresLeaveItClosed :
    ready.session ≠ .closed
    ∧ ((closed [.fail .claim]).session = .closed ∧ (closed [.fail .claim]).answerAt 0 = .fail .claim)
    ∧ ((closed [.ok [], .fail .write]).AnswersOk 1 ∧ (closed [.ok [], .fail .write]).answerAt (0 + 1) = .fail .write)
    ∧ ((closed [.ok [], .ok [], .fail .read, .fail .timeout]).AnswersOk 2
      ∧ (closed [.ok [], .ok [], .fail .read, .fail .timeout]).answerAt (0 + 2) = .fail .read
      ∧ (closed [.ok [], .ok [], .fail .read, .fail .timeout]).answerAt (0 + 3) = .fail .timeout) := by decide +kernel

theorem witness_IdentificationReadsReturnTheirWord :
    ready.session ≠ .closed ∧ ready.session = .identified ∧ ready.tap = .known .runTestIdle ∧ ready.AnswersOk 96
    ∧ (closed []).session = .closed := by decide +kernel

theorem witness_IdentityGateComparesTheWholeWord :
    State.deviceId { ready with deviceId := some 0x02218093 } = some 0x02218093
    ∧ State.deviceId { ready with deviceId := some 0x12218093 } = some 0x12218093
    ∧ (0x12218093 : Word32) ≠ 0x02218093 := by decide +kernel

/-- A sequence that ends in Run-Test/Idle, one that ends elsewhere, an empty one, and one that raises. -/
theorem witness_ConfigurationForgetsTheCapabilities :
    ready.session = .identified
    ∧ (∃ t, seqOps (configureSeq ready.params [2]) ready = .ok () t ∧ t.tap = .known .runTestIdle)
    ∧ (∃ t, seqOps (configureSeq ready.params [1]) ready = .ok () t ∧ t.tap ≠ .known .runTestIdle)
    ∧ (configureSeq ready.params [] = [] ∧ ready.tap = .known .runTestIdle)
    ∧ (∃ t, seqOps (configureSeq ready.params [3]) ready = .error .raised t)
    ∧ (∃ t, seqOp (.tick true false) ready = .ok () t)
    ∧ ∃ t, seqOp (.assertState .shiftDr) ready = .error .raised t := by
  obtain ⟨t, h, hv⟩ := ok_of_done (view := State.tap) (v := .known .runTestIdle)
    (r := seqOps (configureSeq ready.params [2]) ready) (by decide +kernel)
  obtain ⟨t', h', hv'⟩ := ok_of_done (view := State.tap) (v := .known .selectDrScan)
    (r := seqOps (configureSeq ready.params [1]) ready) (by decide +kernel)
  exact ⟨rfl, ⟨t, h, hv⟩, ⟨t', h', by simp [hv']⟩, ⟨rfl, rfl⟩, ⟨_, rfl⟩, ⟨_, rfl⟩, ⟨_, rfl⟩⟩

theorem witness_FlashOperationsNeedAnIdentifiedSession :
    (closed []).session ≠ .identified ∧ State.session { ready with session := .opened } ≠ .identified := by
  decide +kernel

theorem witness_CapabilityChecksProbeTheBoard :
    (withTdo (capsTdo 0xA5000CA5)).session = .identified ∧ (withTdo (capsTdo 0xA5000CA5)).tap = .known .runTestIdle
    ∧ (withTdo (capsTdo 0xA5000CA5)).AnswersOk (2 * (16 + subWidth ex.subCapabilities + 37))
    ∧ hasCap (withTdo (capsTdo 0xA5000CA5)).probedWord 10 = true
    ∧ hasCap (withTdo (capsTdo 0xA5000CA5)).probedWord 12 = false
    ∧ ∀ second ∈ ([(0xA50010A5, true), (0xA5000CA5, false)] : List (Nat × Bool)), ∃ t,
      configureFpga ex.flashInterfaceBitstream (withTdo (capsTdo 0xA5000CA5 ++ capsTdo second.1)).probed = .ok () t
        ∧ t.AnswersOk (2 * (16 + subWidth t.params.subCapabilities + 37)) ∧ hasCap t.probedWord 12 = second.2 := by
  refine ⟨rfl, rfl, withTdo_answers _ _ (by decide), by decide +kernel, by decide +kernel, ?_⟩
  intro second hs
  have hv : done (fun t => (t.script.answers, t.drawn.answers, t.params, hasCap t.probedWord 12))
      (configureFpga ex.flashInterfaceBitstream (withTdo (capsTdo 0xA5000CA5 ++ capsTdo second.1)).probed) =
      some (List.replicate 2000 (.ok []), 122, ex, second.2) := by
    revert second
    decide +kernel
  obtain ⟨t, h, hv⟩ := ok_of_done hv
  simp only [Prod.mk.injEq] at hv
  obtain ⟨ha, hd, hp, hc⟩ := hv
  exact ⟨t, h, replicated_answers_ok ha (by rw [hd, hp]; decide), hc⟩

/-- A configuration that raises after a probe without the capability. -/
theorem witness_CapabilityChecksProbeTheBoard_raised :
    unconfigurable.session = .identified ∧ unconfigurable.tap = .known .runTestIdle
    ∧ unconfigurable.AnswersOk (2 * (16 + subWidth ex.subCapabilities + 37))
    ∧ hasCap unconfigurable.probedWord 12 = false
    ∧ ∃ t, configureFpga unconfigurable.params.flashInterfaceBitstream unconfigurable.probed = .error .raised t :=
  ⟨rfl, rfl, replicated_answers_ok rfl (by decide), by decide +kernel, _, rfl⟩

/-- G1, and G3 where the stride is the block size; then one geometry for each failing check. -/
theorem witness_GeometryIsReadAndChecked :
    (withTdo (geomTdo 0x081610)).session = .identified ∧ (withTdo (geomTdo 0x081610)).tap = .known .runTestIdle
    ∧ (withTdo (geomTdo 0x081610)).AnswersOk (2 * (16 + subWidth ex.subFlashSize + 29))
    ∧ (∀ g ∈ ([0x081610, 0x021620, 0x081600, 0x08160C, 0x081618, 0x080010, 0x001620] : List Nat),
        ((withTdo (geomTdo g)).commanded (subBits ex.subFlashSize)).responseNumber 24 = g)
    ∧ ((32 : Nat) ≠ 0 ∧ 32 % 8 = 0 ∧ (∃ k, 32 / 8 = 2 ^ k) ∧ 22 ≠ 0 ∧ 32 / 8 ≤ 2 ^ 2)
    ∧ (¬ (32 : Nat) / 8 ≤ 2 ^ 0 ∧ ¬ (0 : Nat) ≠ 0 ∧ ¬ (12 : Nat) % 8 = 0) :=
  ⟨rfl, rfl, withTdo_answers _ _ (by decide), by decide +kernel, ⟨by decide, by decide, ⟨2, rfl⟩, by decide, by decide⟩,
    by decide⟩

theorem witness_AlignmentIsCheckedLengthFirst :
    ready.session = .identified ∧ ready.geom = some g1 ∧ validGeometry g1 = true
    ∧ (16 % stride g1 = 0 ∧ 0x10 % stride g1 = 0) ∧ 15 % stride g1 ≠ 0 ∧ 0x11 % stride g1 ≠ 0
    ∧ 0 % stride g1 = 0 := by decide +kernel

theorem witness_ErasesAndPollsEndByTheirStatus :
    State.session { ready with cfg := ⟨1, some 0, 1, 1, false⟩ } = .identified
    ∧ (⟨1, some 0, 1, 1, false⟩ : SessionConfig).maxPolls = some 0
    ∧ State.AnswersOk { ready with cfg := ⟨1, some 0, 1, 1, false⟩ }
        (2 * (16 + subWidth ready.params.subFlashErase))
    ∧ ready.cfg.maxPolls ≠ some 0 ∧ ready.tap = .known .runTestIdle ∧ ready.lastIR = .instr (bitsOf 6 0b000010)
    ∧ ready.AnswersOk (2 * 37) ∧ ready.AnswersOk (2 * (16 + subWidth ready.params.subFlashErase + 37)) := by
  decide +kernel

/-- Two polls that answer InProgress, without a ceiling and with the ceiling 2, whatever follows; and no poll at all. -/
theorem witness_PollLoopsGoOnWhileInProgress :
    ∀ rest ∈ ([.done, .erased [], .chunks 2 []] : List Rest), ∀ cfg ∈ [ready.cfg, ⟨1, some 2, 1, 1, false⟩],
      ∀ s : State, s = { ready with busy := some ⟨0, rest⟩, cfg := cfg } →
      s.ended = false ∧ s.busy = some ⟨0, rest⟩ ∧ s.session = .identified ∧ s.tap = .known .runTestIdle
      ∧ s.lastIR = .instr (bitsOf 6 0b000010) ∧ s.AnswersOk (2 * 37 * 2) ∧ s.AnswersOk (2 * 37 * 0)
      ∧ (∀ j < 2, decodeStatus s.params (BitVec.ofNat 32 (toInt (s.tdos (37 * j + 3) 32))) = .inProgress)
      ∧ ∀ m, s.cfg.maxPolls = some m → 0 + 2 ≤ m := by
  rintro rest - cfg hc s rfl
  refine ⟨rfl, rfl, rfl, rfl, rfl, replicated_answers_ok rfl (show 0 + 2 * 37 * 2 ≤ 2000 by decide),
    replicated_answers_ok rfl (show 0 + 2 * 37 * 0 ≤ 2000 by decide), ?_, ?_⟩
  · exact show ∀ j < 2, decodeStatus ex (BitVec.ofNat 32 (toInt (ready.tdos (37 * j + 3) 32))) = .inProgress by
      decide +kernel
  · simp only [List.mem_cons, List.not_mem_nil, or_false] at hc
    rcases hc with rfl | rfl <;> intro m h <;> cases h
    decide

/-- A resumed poll: one that ends an instruction, by each answer and at the ceiling. -/
theorem witness_PollLoopsGoOnWhileInProgress_done :
    (∀ w ∈ ([0, 1, 2] : List Nat), (waiting .done (z 3 ++ bitsOf 32 w)).AnswersOk (2 * 37))
    ∧ ([0, 1, 2] : List Nat).map (fun w => decodeStatus ex (waiting .done (z 3 ++ bitsOf 32 w)).pollWord) =
      [.inProgress, .passed, .failed]
    ∧ State.atCeiling { waiting .done [] with cfg := ⟨1, some 1, 1, 1, false⟩ } 1 = true :=
  ⟨fun _ _ => withTdo_answers _ _ (by decide), by decide +kernel, by decide +kernel⟩

/-- A resumed poll of a write: after the erase with one chunk to program, and after the last chunk; by each answer and at
the ceiling. -/
theorem witness_PollLoopsGoOnWhileInProgress_write :
    (State.PollAnswered { waiting (.erased [(0x100, [0x80, 0xFF])]) (z 3 ++ bitsOf 32 1 ++ z 94 ++ bitsOf 32 1) with
        busy := none } 1 (State.ChunksAnswered g1 0 [(0x100, [0x80, 0xFF])]))
    ∧ (State.PollAnswered { waiting (.chunks 2 []) (z 3 ++ bitsOf 32 1) with busy := none } 1
        fun t => State.ChunksAnswered g1 2 [] (t.progressed 2))
    ∧ (∀ w ∈ ([0, 2] : List Nat), ∀ plan, State.PollAnswered
        { waiting (.erased plan) (z 3 ++ bitsOf 32 w) with busy := none } 1 (State.ChunksAnswered g1 0 plan))
    ∧ ∀ plan, State.PollAnswered { waiting (.erased plan) [] with busy := none, cfg := ⟨1, some 1, 1, 1, false⟩ } 1
        (State.ChunksAnswered g1 0 plan) := by
  refine ⟨passed_poll (by decide +kernel) (replicated_answers_ok rfl (by decide)) (by decide +kernel) ?_,
    passed_poll (by decide +kernel) (replicated_answers_ok rfl (by decide)) (by decide +kernel)
      (replicated_answers_ok rfl (by decide +kernel)), fun w hw plan => ?_,
    fun plan => ceiling_poll rfl (replicated_answers_ok rfl (show 0 + 2 ≤ 2000 by decide))⟩
  · exact sent_chunk (by decide +kernel) (replicated_answers_ok rfl (by decide +kernel))
      (passed_poll (by decide +kernel) (replicated_answers_ok rfl (by decide +kernel)) (by decide +kernel)
        (replicated_answers_ok rfl (by decide +kernel)))
  · refine other_poll (show ready.atCeiling 1 = false by decide +kernel)
      (replicated_answers_ok rfl (show 0 + (74 + 2) ≤ 2000 by decide)) ?_
    change decodeStatus ex (withTdo (z 3 ++ bitsOf 32 w)).pollWord ≠ .passed
    revert w
    decide +kernel

theorem witness_ProgramChunkSendsFrameThenPayload :
    ready.session = .identified ∧ ready.geom = some g1 ∧ validGeometry g1 = true ∧ ready.tap = .known .runTestIdle
    ∧ ready.cfg.maxPolls ≠ some 0
    ∧ (2 ^ g1.blockAddrWidthBits.toNat < (List.replicate 257 (0 : Byte)).length
      ∧ (List.replicate 256 (0 : Byte)).length ≤ 2 ^ g1.blockAddrWidthBits.toNat)
    ∧ (([1, 2] : Bytes) ≠ [] ∧ ([1, 2] : Bytes).length ≤ 2 ^ g1.blockAddrWidthBits.toNat
      ∧ ([1, 2] : Bytes).length % stride g1 = 0 ∧ 0x7FFFFE % stride g1 = 0
      ∧ 0x7FFFFE / stride g1 < 2 ^ addrWidth g1 ∧ ([1, 2] : Bytes).length / stride g1 < 2 ^ addrWidth g1)
    ∧ ready.AnswersOk
        (2 * (16 + subWidth ready.params.subFlashPgm + 2 * addrWidth g1 + (5 + 8 * ([1, 2] : Bytes).length) + 37))
    ∧ (([1] : Bytes).length % stride g1 ≠ 0 ∧ 0x11 % stride g1 ≠ 0)
    ∧ (0x800000 % stride g1 = 0 ∧ 2 ^ addrWidth g1 ≤ 0x800000 / stride g1)
    ∧ validGeometry ⟨8, 1, 8⟩ = true ∧ 0 / stride ⟨8, 1, 8⟩ < 2 ^ addrWidth ⟨8, 1, 8⟩
    ∧ 2 ^ addrWidth ⟨8, 1, 8⟩ ≤ ([1, 2] : Bytes).length / stride ⟨8, 1, 8⟩ :=
  ⟨rfl, rfl, by decide +kernel, rfl, by decide +kernel, by decide +kernel, by decide +kernel,
    ready_answers _ (by decide +kernel), by decide +kernel, by decide +kernel, by decide +kernel, by decide +kernel,
    by decide +kernel⟩

/-- Two bytes read, the capability present at the first probe. -/
theorem witness_ReadFlashReturnsItsResponseBytes :
    flashReady.session = .identified ∧ flashReady.tap = .known .runTestIdle ∧ 0x10 ≤ 0x11 ∧ 2 = 0x11 - 0x10 + 1
    ∧ flashReady.AnswersOk (2 + 2 * (16 + subWidth ex.subCapabilities + 37))
    ∧ hasCap (flashReady.pinned true).probedWord (capPosition ex.capFlashRead) = true
    ∧ (flashReady.pinned true).probed.scannedGeometry = g1
    ∧ (validGeometry g1 = true ∧ 2 % stride g1 = 0 ∧ 0x10 % stride g1 = 0 ∧ 0x10 / stride g1 < 2 ^ addrWidth g1
      ∧ 2 / stride g1 < 2 ^ addrWidth g1)
    ∧ (flashReady.pinned true).probed.AnswersOk (2 * (16 + subWidth ex.subFlashSize + 29)
      + 2 * (16 + subWidth ex.subFlashRead + 2 * addrWidth g1 + (5 + 8 * 2)) + 2) :=
  ⟨rfl, rfl, by decide, rfl, withTdo_answers _ _ (by decide), by decide +kernel, by decide +kernel, by decide +kernel,
    replicated_answers_ok rfl (by decide +kernel)⟩

/-- The same after a configuration (`probed_again`). -/
theorem witness_ReadFlashReturnsItsResponseBytes_configured :
    hasCap (configured configuredReady).probedWord 10 = true ∧ capPosition ex.capFlashRead = 10
    ∧ (configured configuredReady).probed.scannedGeometry = g1
    ∧ (configured configuredReady).probed.AnswersOk (2 * (16 + subWidth ex.subFlashSize + 29)
      + 2 * (16 + subWidth ex.subFlashRead + 2 * addrWidth g1 + (5 + 8 * 2)) + 2) :=
  ⟨by decide +kernel, rfl, by decide +kernel, replicated_answers_ok rfl (by decide +kernel)⟩

/-- A configuration that raises, and the first probe without the capability and nothing started. -/
theorem witness_RejectedReadsReleaseThePin :
    ready.session = .identified ∧ 0x10 < 0x20 ∧ ready.tap = .known .runTestIdle
    ∧ (unconfigurable.session = .identified ∧ unconfigurable.tap = .known .runTestIdle
      ∧ unconfigurable.AnswersOk (2 + 2 * (16 + subWidth ex.subCapabilities + 37))
      ∧ hasCap (unconfigurable.pinned true).probedWord (capPosition ex.capFlashRead) = false
      ∧ ∃ t, configureFpga unconfigurable.params.flashInterfaceBitstream (unconfigurable.pinned true).probed =
          .error .raised t ∧ t.AnswersOk 2)
    ∧ (ready.AnswersOk (2 + 2 * (16 + subWidth ex.subCapabilities + 37))
      ∧ (ready.pinned true).LastProbe (capPosition ex.capFlashWrite) false (ready.pinned true).probed
          (ready.pinned true).probedWord
      ∧ hasCap (ready.pinned true).probedWord (capPosition ex.capFlashWrite) = false
      ∧ (ready.pinned true).probed.AnswersOk 2) :=
  ⟨rfl, by decide, rfl, ⟨rfl, rfl, replicated_answers_ok rfl (by decide), by decide +kernel, _, rfl,
    replicated_answers_ok rfl (by decide +kernel)⟩, ready_answers _ (by decide), .inl ⟨.inr rfl, rfl, rfl⟩,
    by decide +kernel, replicated_answers_ok rfl (by decide +kernel)⟩

/-- An illegal geometry, and each check under a legal one, the two fields at their bounds. -/
theorem witness_RejectedReadsReleaseThePin_checks :
    (∀ g ∈ ([0x081600, 0x081610, 0x080108] : List Nat),
      hasCap ((withTdo (capsTdo 0xA5000CA5 ++ geomTdo g)).pinned true).probedWord (capPosition ex.capFlashRead) = true
      ∧ ((withTdo (capsTdo 0xA5000CA5 ++ geomTdo g)).pinned true).probed.scannedGeometry = geometryOf g)
    ∧ (∀ g, ((withTdo (capsTdo 0xA5000CA5 ++ geomTdo g)).pinned true).probed.AnswersOk
        (2 * (16 + subWidth ex.subFlashSize + 29) + 2))
    ∧ validGeometry (geometryOf 0x081600) = false ∧ validGeometry (geometryOf 0x080108) = true
    ∧ (0x10 - 0x10 + 1) % stride g1 ≠ 0 ∧ ((0x20 - 0x11 + 1) % stride g1 = 0 ∧ 0x11 % stride g1 ≠ 0)
    ∧ (2 % stride g1 = 0 ∧ 0x800000 % stride g1 = 0 ∧ 2 ^ addrWidth g1 ≤ 0x800000 / stride g1)
    ∧ 1 / stride ⟨8, 1, 8⟩ < 2 ^ addrWidth ⟨8, 1, 8⟩ ∧ 2 ^ addrWidth ⟨8, 1, 8⟩ ≤ 2 / stride ⟨8, 1, 8⟩ :=
  ⟨by decide +kernel, fun _ => replicated_answers_ok (m := 2000) rfl (show 2 + 122 + (2 * (24 + 29) + 2) ≤ 2000 by decide),
    by decide +kernel, by decide +kernel, by decide +kernel, by decide +kernel, by decide +kernel, by decide +kernel⟩

/-- One word written without an erase, by each answer of its poll; and a chunk whose count does not fit. -/
theorem witness_WriteFlashProgramsEveryChunk :
    hasCap (flashReady.pinned true).probedWord (capPosition ex.capFlashWrite) = true
    ∧ chunkPlan g1 0x100 [0x80, 0xFF] = [(0x100, [0x80, 0xFF])]
    ∧ ([0x80, 0xFF] : Bytes).length % stride g1 = 0 ∧ 0x100 % stride g1 = 0
    ∧ (flashReady.pinned true).probed.AnswersOk (2 * (16 + subWidth ex.subFlashSize + 29))
    ∧ State.ChunksAnswered g1 0 [(0x100, [0x80, 0xFF])] (flashReady.pinned true).probed.measured
    ∧ (∀ w ∈ ([0, 2] : List Nat), State.ChunksAnswered g1 0 [(0x100, [0x80, 0xFF])]
        ((withTdo (capsTdo 0xA5000CA5 ++ geomTdo 0x081610 ++ z 92 ++ bitsOf 32 w)).pinned true).probed.measured)
    ∧ chunkPlan ⟨8, 1, 8⟩ 0 [1, 2] = [(0, [1, 2])]
    ∧ chunkFault ⟨8, 1, 8⟩ 0 [1, 2] = some (.invalidOperand, .operands 1 2)
    ∧ chunkFault ⟨8, 1, 8⟩ 2 [1] = some (.invalidOperand, .operands 1 2)
    ∧ State.ChunksAnswered ⟨8, 1, 8⟩ 0 [(0, [1, 2])] ready := by
  refine ⟨by decide +kernel, by decide +kernel, by decide +kernel, by decide +kernel,
    replicated_answers_ok rfl (by decide +kernel), ?_, fun w hw => ?_, by decide +kernel, by decide +kernel,
    by decide +kernel, faulty_chunk (e := (.invalidOperand, .operands 1 2)) (by decide +kernel) (ready_answers _ (by decide))⟩
  · exact sent_chunk (by decide +kernel) (replicated_answers_ok rfl (by decide +kernel))
      (passed_poll (by decide +kernel) (replicated_answers_ok rfl (by decide +kernel)) (by decide +kernel)
        (replicated_answers_ok rfl (by decide +kernel)))
  · refine sent_chunk (by decide +kernel) (replicated_answers_ok (m := 2000) rfl (show 230 + 178 ≤ 2000 by decide))
      (other_poll rfl (answersOk_sentChunk (replicated_answers_ok (m := 2000) rfl
        (show 230 + (178 + 76) ≤ 2000 by decide))) ?_)
    revert w
    decide +kernel

/-- The same with an erase, and the erase of an empty write, which has no chunk. -/
theorem witness_WriteFlashProgramsEveryChunk_erased :
    (eraseReady.pinned true).probed.measured.AnswersOk (2 * (16 + subWidth ex.subFlashErase))
    ∧ (∀ e, e = (eraseReady.pinned true).probed.measured.commanded (subBits ex.subFlashErase) →
      e.PollAnswered 0 (State.ChunksAnswered g1 0 [(0x100, [0x80, 0xFF])])
      ∧ e.PollAnswered 0 (State.ChunksAnswered g1 0 []))
    ∧ chunkPlan g1 0x100 [] = [] := by
  refine ⟨replicated_answers_ok rfl (by decide +kernel), ?_, by decide +kernel⟩
  rintro e rfl
  refine ⟨passed_poll (by decide +kernel) (replicated_answers_ok rfl (by decide +kernel)) (by decide +kernel) ?_,
    passed_poll (by decide +kernel) (replicated_answers_ok rfl (by decide +kernel)) (by decide +kernel)
      (replicated_answers_ok rfl (by decide +kernel))⟩
  exact sent_chunk (by decide +kernel) (replicated_answers_ok rfl (by decide +kernel))
    (passed_poll (by decide +kernel) (replicated_answers_ok rfl (by decide +kernel)) (by decide +kernel)
      (replicated_answers_ok rfl (by decide +kernel)))

/-- A read that raises and releases the pin, and a write whose transport fails twice and leaves it Unknown. -/
theorem witness_ThePinIsReleasedOnEveryExit :
    (ready.session = .identified ∧ ready.AnswersOk 2
      ∧ ∃ t, exec (.readFlash 0x10 0x11 false) ready = .next t ∧ t.busy = none ∧ t.flashPin = .released)
    ∧ (withAnswers [.ok [], .ok [], .fail .write, .fail .write]).AnswersOk 2
    ∧ ∃ t, exec (.writeFlash [] 0 false) (withAnswers [.ok [], .ok [], .fail .write, .fail .write]) = .next t
      ∧ t.busy = none ∧ t.flashPin = .unknown := by
  obtain ⟨t, h, hv⟩ := next_of_seen (view := fun t => (t.busy, t.flashPin)) (v := (none, .released))
    (o := exec (.readFlash 0x10 0x11 false) ready) (by decide +kernel)
  obtain ⟨t', h', hv'⟩ := next_of_seen (view := fun t => (t.busy, t.flashPin)) (v := (none, .unknown))
    (o := exec (.writeFlash [] 0 false) (withAnswers [.ok [], .ok [], .fail .write, .fail .write])) (by decide +kernel)
  simp only [Prod.mk.injEq] at hv hv'
  exact ⟨⟨rfl, by decide +kernel, t, h, hv.1, hv.2⟩, by decide +kernel, t', h', hv'.1, hv'.2⟩

/-- A write that waited after its erase and ends in a later step. -/
theorem witness_ThePinIsReleasedOnEveryExit_resumed :
    (waiting (.erased []) (z 3 ++ bitsOf 32 1)).session = .identified
    ∧ (waiting (.erased []) (z 3 ++ bitsOf 32 1)).busy = some ⟨1, .erased []⟩ ∧ Rest.erased [] ≠ .done
    ∧ ∃ t, step (waiting (.erased []) (z 3 ++ bitsOf 32 1)) = .next t
      ∧ (t.busy, t.flashPin, t.pc) = (none, .released, 1) :=
  ⟨rfl, rfl, by decide +kernel, next_of_seen (view := fun t => (t.busy, t.flashPin, t.pc)) (by decide +kernel)⟩

theorem witness_StepRunsTheDecodedInstruction :
    State.ended { ready with ended := true } = true
    ∧ (ready.ended = false ∧ ready.busy = none ∧ ready.program.length ≤ ready.pc)
    ∧ (running [.ir 0b000010]).program[(running [.ir 0b000010]).pc]? = some (.ir 0b000010)
    ∧ decode (.ir 0b000010) = .ok .irUser1
    ∧ State.busy { ready with busy := some ⟨1, .done⟩ } = some ⟨1, .done⟩ := by decide +kernel

theorem witness_DecodingAndEncodingAgree :
    decode (.ir 0b000011) = .ok (.shiftInstruction (bitsOf 6 0b000011)) ∧ (0b000011 : BitVec 6) ≠ 0b000010
    ∧ decode (.frame 0xff (.raw [1])) = .ok (.usbReset [1]) := by decide +kernel

/-- A state with the invariant of EveryStepKeepsTheTapSynchronised that has a next state. -/
theorem witness_EveryStepKeepsTheTapSynchronised :
    ∃ t, (Synchronised (running [.named .reset []]) ∧ IrForgotten (running [.named .reset []])
      ∧ IrSized (running [.named .reset []])) ∧ step (running [.named .reset []]) = .next t := by
  obtain ⟨t, h, -⟩ := next_of_seen (view := State.pc) (v := 1) (o := step (running [.named .reset []]))
    (by decide +kernel)
  refine ⟨t, ⟨fun x hx => ?_, fun hx => ?_, fun x hx => ?_, fun x hx => ?_⟩, h⟩
  · cases hx; rfl
  · cases hx
  · cases hx; rfl
  · cases hx; rfl

/-- A state with the invariant of EveryStepKeepsTheLogsInOrder that has a next state. -/
theorem witness_EveryStepKeepsTheLogsInOrder :
    ∃ t, (GeometryLegal (running [.named .setFlashPin [.bit true]])
      ∧ halfDuplex (running [.named .setFlashPin [.bit true]]).history = true
      ∧ LogAgrees (running [.named .setFlashPin [.bit true]])
      ∧ WaitsIdentified (running [.named .setFlashPin [.bit true]]))
      ∧ step (running [.named .setFlashPin [.bit true]]) = .next t := by
  obtain ⟨t, h, -⟩ := next_of_seen (view := State.pc) (v := 1)
    (o := step (running [.named .setFlashPin [.bit true]])) (by decide +kernel)
  refine ⟨t, ⟨fun g hg => ?_, rfl, rfl, (fun _ h => nomatch h)⟩, h⟩
  cases hg
  decide +kernel

/-- A step that completes, one that waits, one that raises a ProtocolDesyncError, and one whose pin release fails too. -/
theorem witness_ErrorsEndTheRunWhereItStands :
    WaitsIdentified (running [.named .reset []]) ∧ WaitsIdentified (waiting .done [])
    ∧ (∃ t, step (running [.named .reset []]) = .next t ∧ t.pc = 1)
    ∧ (∃ t, step (running [.named .pollUntilTerminal []]) = .next t ∧ t.busy = some ⟨1, .done⟩)
    ∧ (∃ t, step (running [.named .assertState [.tapState .shiftDr]]) = .next t
      ∧ t.errors = [⟨.protocolDesyncError, .tapMismatch .shiftDr (.known .runTestIdle)⟩])
    ∧ ∃ t, step { withAnswers [.ok [], .ok [], .fail .write, .fail .write] with
        program := [.named .writeFlash [.bytes [], .nat 0, .bit false]] } = .next t
      ∧ (t.errors, t.flashPin) =
        ([⟨.transportError, .transport .write⟩, ⟨.transportError, .transport .write⟩], .unknown) :=
  ⟨(fun _ h => nomatch h), fun _ _ => rfl, next_of_seen (by decide +kernel), next_of_seen (by decide +kernel),
    next_of_seen (by decide +kernel), next_of_seen (view := fun t => (t.errors, t.flashPin)) (by decide +kernel)⟩

/-- A step that changes the configuration and opens the session, and one that identifies it. -/
theorem witness_StepsOnlyAppendToTheLogs :
    (∃ t, step { closed [.ok [], .ok [], .ok [1, 2]] with
        program := [.named .openSession [.config ⟨2, none, 1, 1, false⟩]] } = .next t
      ∧ (t.cfg, t.session) = (⟨2, none, 1, 1, false⟩, .opened))
    ∧ ∃ t, step { running [.named .checkIdentity []] with session := .opened, deviceId := some 0x02218093 } = .next t
      ∧ t.session = .identified :=
  ⟨next_of_seen (view := fun t => (t.cfg, t.session)) (by decide +kernel), next_of_seen (by decide +kernel)⟩

/-- Steps that write each of the five fields of `MayWrite`, and one that writes two of them as it resumes. -/
theorem witness_StepsOnlyAppendToTheLogs_fields :
    (∃ t, step (calling (.named .probeCapabilities []) (capsTdo 0xA5000CA5)) = .next t ∧ t.caps = some 0xA5000CA5)
    ∧ (∃ t, step (calling (.named .readGeometry []) (geomTdo 0x021620)) = .next t ∧ t.geom = some ⟨32, 22, 2⟩)
    ∧ (∃ t, step (calling (.named .readIdcode []) (z 14 ++ bitsOf 32 5)) = .next t ∧ t.deviceId = some 5)
    ∧ ∃ t, step (waiting (.erased []) (z 3 ++ bitsOf 32 1)) = .next t ∧ (t.status, t.flashPin) = (some 1, .released) :=
  ⟨next_of_seen (by decide +kernel), next_of_seen (by decide +kernel), next_of_seen (by decide +kernel),
    next_of_seen (view := fun t => (t.status, t.flashPin)) (by decide +kernel)⟩

/-! ### The events of the assumption of R53 -/

/-- An erase counts where it is called, and not again while it waits. -/
theorem test_flashEvents_erase :
    seen (flashEvents (calling (.named .eraseFlash []) [])) (step (calling (.named .eraseFlash []) [])) = some [.erased]
    ∧ seen (flashEvents { calling (.named .eraseFlash []) [] with busy := some ⟨1, .done⟩ })
        (step { calling (.named .eraseFlash []) [] with busy := some ⟨1, .done⟩ }) = some [] := by decide +kernel

/-- A write with its erase and one chunk that has passed, whatever the write came to; and the read of two bytes. -/
theorem test_flashEvents :
    (∀ s ∈ [calling (.named .writeFlash [.bytes [0x80, 0xFF], .nat 0x100, .bit true]) flashReady.script.tdo],
      flashEvents s { s with history := [.progress 2] } = [.erased, .programmed g1 0x100 [0x80, 0xFF]])
    ∧ ∀ s ∈ [calling (.named .readFlash [.nat 0x10, .nat 0x11, .bit true]) []],
      flashEvents s { s with pc := 1, result := .bytes [0x80, 0xFF] } = [.read g1 0x10 0x11 [0x80, 0xFF]]
      ∧ flashEvents s { s with ended := true } = [] := by decide +kernel

/-- Two chunks of three pass before the write raises (R223). -/
theorem test_passedChunks :
    passedChunks 16 (chunkPlan ⟨8, 22, 1⟩ 16 [1, 2, 3, 4, 5]) [.progress 2, .progress 4, .error .flashOperationFailed] =
      [(16, [1, 2]), (18, [3, 4])] := by decide +kernel

end Sys2Proof.Tests
end

/-!
The words of the opcode table (R70, R74, R75). A table word is settled in two parts: the program entry it spells is the
encoding of its row (`callOfTableWord_*`), and decoding undoes encoding (`decode_encode`).
-/
namespace Sys2Proof.Machine

/-! ### Decoding undoes encoding -/

/-- The argument byte of `FLASH_ONOFF` is the only operand that `encode` does not copy (R165). -/
theorem decode_encode (i : Instr) : decode (encode i) = .ok i := by
  cases i with
  | usbFlashOnOff on => cases on <;> rfl
  | _ => rfl

/-! ### The program entry of a table word -/

/-- R75: fewer than 8 bits are an IR value (log 2). -/
theorem callOfTableWord_ir {nbits : Nat} (h : nbits < 8) (w : Nat) :
    callOfTableWord nbits w = .ir (BitVec.ofNat 6 w) :=
  if_pos h

/-- R70: otherwise byte 0 is the opcode, and the bytes above it are the operands (log 2). -/
theorem callOfTableWord_frame {nbits : Nat} (h : 8 ≤ nbits) (w : Nat) :
    callOfTableWord nbits w =
      .frame (BitVec.ofNat 8 w) (frameOperands (BitVec.ofNat 8 w) (wordBytes (nbits / 8 - 1) (w / 256))) :=
  if_neg (Nat.not_lt.mpr h)

/-- A word of one byte is a frame with no operand bytes (R70, R74). -/
theorem callOfTableWord_byte (w : Nat) :
    callOfTableWord 8 w = .frame (BitVec.ofNat 8 w) (frameOperands (BitVec.ofNat 8 w) []) :=
  callOfTableWord_frame (Nat.le_refl 8) w

/-- The second byte of a `FLASH_ONOFF` word is its argument (R165). -/
theorem callOfTableWord_flashOnOff {w : Nat} (h : BitVec.ofNat 8 w = 0x50) :
    callOfTableWord 16 w = .frame 0x50 (.onOff (BitVec.ofNat 8 (w / 256))) := by
  rw [callOfTableWord_frame (by decide), h]
  rfl

/-! ### The instruction of a table word -/

theorem decodeTableWord_eq_some_iff {nbits w : Nat} {i : Instr} :
    decodeTableWord nbits w = some i ↔ decode (callOfTableWord nbits w) = .ok i := by
  unfold decodeTableWord
  cases decode (callOfTableWord nbits w) <;> simp

theorem decodeTableWord_eq_none_iff {nbits w : Nat} :
    decodeTableWord nbits w = none ↔ ∃ r, decode (callOfTableWord nbits w) = .error r := by
  unfold decodeTableWord
  cases decode (callOfTableWord nbits w) <;> simp

/-- A table word that spells the encoding of a row decodes to that row. -/
theorem decodeTableWord_of_encode {nbits w : Nat} {i : Instr} (h : callOfTableWord nbits w = encode i) :
    decodeTableWord nbits w = some i :=
  decodeTableWord_eq_some_iff.mpr (h ▸ decode_encode i)

/-- Settles O54: every listed word and entry but one is the encoding of its row; `0x33` is no opcode (R74, R81). -/
theorem tableWordsDecodeToTheirRows : Obligations.TableWordsDecodeToTheirRows := by
  refine ⟨?info, ?readVersion, ?prog, ?reset, ?flashOn, ?user1, ?unlisted, ?user1Entry, ?namedEntry⟩
  case info => exact decodeTableWord_of_encode (callOfTableWord_byte 0x40)
  case readVersion => exact decodeTableWord_of_encode (callOfTableWord_byte 0x00)
  case prog => exact decodeTableWord_of_encode (callOfTableWord_byte 0x49)
  case reset => exact decodeTableWord_of_encode (callOfTableWord_byte 0xff)
  case flashOn => exact decodeTableWord_of_encode (callOfTableWord_flashOnOff (w := 0x0150) rfl)
  case user1 => exact decodeTableWord_of_encode (callOfTableWord_ir (by decide) 2)
  case unlisted =>
    have rejected : decode (callOfTableWord 8 0x33) = .error (.unknownOpcode 0x33) := by
      rw [callOfTableWord_byte]
      rfl
    exact decodeTableWord_eq_none_iff.mpr ⟨_, rejected⟩
  case user1Entry => exact decode_encode .irUser1
  case namedEntry => exact decode_encode (.readFlash 16 31 true)

end Sys2Proof.Machine

/-!
The TAP invariant (R23, R25, R104, R305): a known tracked state is the device's, an unknown one goes with an unknown
instruction, and a tracked instruction has six bits. Every update of the state keeps it, so every step does.
-/
namespace Sys2Proof.Machine

variable {s : State}

/-- The three parts of the TAP invariant. -/
def TapInOrder (s : State) : Prop :=
  Synchronised s ∧ IrForgotten s ∧ IrSized s

/-- Where nothing is known of the TAP, there is nothing to be out of order. -/
theorem tapInOrder_of_forgotten (ht : s.tap = .unknown) (hl : s.lastIR = .unknown) (hp : s.pendingIR = .unknown) :
    TapInOrder s := by
  refine ⟨fun u hu => ?_, fun _ => ⟨hl, hp⟩, fun x hx => ?_, fun x hx => ?_⟩
  · rw [ht] at hu; cases hu
  · rw [hl] at hx; cases hx
  · rw [hp] at hx; cases hx

/-! ### One tick -/

theorem updateIR_of_unknown (b : Bool) (pre : Tracked) (ir : IrCopy) (pending : PendingIr) :
    updateIR b pre .unknown ir pending = (.unknown, .unknown) :=
  if_pos (.inr rfl)

/-- The tracking of a tick makes up no instruction: what it tracks was tracked or pending before (R104). -/
theorem updateIR_sized {b : Bool} {pre post : Tracked} {ir : IrCopy} {pending : PendingIr}
    (hl : ∀ x, ir = .instr x → x.length = 6) (hp : ∀ x, pending = .instr x → x.length = 6) :
    (∀ x, (updateIR b pre post ir pending).1 = .instr x → x.length = 6)
      ∧ ∀ x, (updateIR b pre post ir pending).2 = .instr x → x.length = 6 := by
  unfold updateIR
  split
  · exact ⟨nofun, nofun⟩
  split
  · exact ⟨hl, nofun⟩
  split
  · exact ⟨hl, nofun⟩
  split
  · refine ⟨fun x hx => ?_, hp⟩
    cases pending with
    | instr y =>
      cases hx
      exact hp x rfl
    | clean => cases hx
    | unknown => cases hx
  · exact ⟨hl, hp⟩

/-- The tracked and the device state advance alike (R101). -/
theorem synchronised_portTick (h : Synchronised s) (b tms tdi tdo : Bool) :
    Synchronised (s.portTick b tms tdi tdo) := by
  intro u hu
  rw [portTick_tap] at hu
  cases ht : s.tap with
  | unknown => rw [ht] at hu; cases hu
  | known v =>
    rw [ht] at hu
    cases hu
    rw [portTick_devTap, h v ht]

theorem irForgotten_portTick (b tms tdi tdo : Bool) : IrForgotten (s.portTick b tms tdi tdo) := by
  intro ht
  rw [portTick_tap] at ht
  rw [portTick_lastIR, portTick_pendingIR, ht, updateIR_of_unknown]
  exact ⟨rfl, rfl⟩

theorem tapInOrder_portTick (h : TapInOrder s) (b tms tdi tdo : Bool) : TapInOrder (s.portTick b tms tdi tdo) := by
  obtain ⟨hsync, _, hlast, hpending⟩ := h
  exact ⟨synchronised_portTick hsync b tms tdi tdo, irForgotten_portTick b tms tdi tdo, updateIR_sized hlast hpending⟩

/-! ### The other updates -/

/-- An error leaves the TAP and the instruction as they are, or forgets them (R305). -/
theorem tapInOrder_enterError (h : TapInOrder s) (code : ErrorCode) (info : ErrorInfo) :
    TapInOrder (s.enterError code info) := by
  by_cases ht : code = .transportError
  · subst ht; exact tapInOrder_of_forgotten rfl rfl rfl
  by_cases hd : code = .protocolDesyncError
  · subst hd; exact tapInOrder_of_forgotten rfl rfl rfl
  rw [enterError_plain s code info ht hd]
  exact h

/-- `shiftInstruction` leaves its operand pending only on a known TAP state, and the operand has six bits (R108). -/
theorem tapInOrder_pending (h : TapInOrder s) (ht : s.tap ≠ .unknown) (clean : Bool) {x : BitSeq} (hx : x.length = 6) :
    TapInOrder { s with pendingIR := if clean then .instr x else .unknown } := by
  obtain ⟨hsync, _, hlast, _⟩ := h
  refine ⟨hsync, fun hu => absurd hu ht, hlast, fun y hy => ?_⟩
  cases clean <;> cases hy
  exact hx

theorem closed_tapInOrder : Closed (fun _ => True) TapInOrder TapInOrder where
  stable := ⟨fun _ _ h => h, fun _ _ h _ _ => h, fun _ _ _ h => h⟩
  raise := fun _ code info h => tapInOrder_enterError h code info
  raisedPin := fun _ _ _ h => h
  tick := fun _ b tms tdi tdo h => tapInOrder_portTick h b tms tdi tdo
  pending := fun _ clean _ h ht hx => tapInOrder_pending h ht clean hx
  forget := fun _ _ _ => tapInOrder_of_forgotten rfl rfl rfl
  caps := fun _ _ _ h => h
  status := fun _ _ _ h => h
  deviceId := fun _ _ _ h => h
  geom := fun _ _ _ h _ => h
  busy := fun _ _ h => h

/-- `reset()` makes the tracked state known where the device is (R110). -/
theorem resetOk_tapInOrder : ResetOk TapInOrder :=
  fun _ _ hd => ⟨fun _ hu => Tracked.known.inj hu ▸ hd, fun _ => ⟨rfl, rfl⟩, nofun, nofun⟩

theorem openOk_tapInOrder : OpenOk TapInOrder :=
  ⟨fun _ _ h => h, fun _ _ => tapInOrder_of_forgotten rfl rfl rfl, fun _ _ => tapInOrder_of_forgotten rfl rfl rfl⟩

/-- Settles O56: no update of an operation breaks the TAP invariant, and `step_keeps` carries that to every step. -/
theorem everyStepKeepsTheTapSynchronised : Obligations.EveryStepKeepsTheTapSynchronised :=
  fun _ _ h ht =>
    step_keeps closed_tapInOrder resetOk_tapInOrder openOk_tapInOrder (fun _ h _ => h) (fun _ _ _ _ _ h => h) h ht

end Sys2Proof.Machine

/-!
The order of the logs (R29, R36, R56, R190, R214, R251, R304): a legal geometry, a half-duplex history and two logs that
agree are kept by every update of the state; that an operation waits on an identified session is read off how a step
ends.
-/
namespace Sys2Proof.Machine

variable {s : State}

/-! ### Appending to the history -/

/-- A half-duplex history ends with no write unread, so what follows it is judged alone (R190). -/
theorem halfDuplex_append {xs : List Event} (ys : List Event) (h : halfDuplex xs = true) :
    halfDuplex (xs ++ ys) = halfDuplex ys := by
  induction xs using halfDuplex.induct with
  | case1 => rfl
  | case2 _ _ _ ih => exact ih h
  | case3 _ _ _ ih => exact ih h
  | case4 xs _ hread hfail => simp [halfDuplex] at h
  | case5 => simp_all [halfDuplex]

theorem errorEvents_append (xs ys : List Event) : errorEvents (xs ++ ys) = errorEvents xs ++ errorEvents ys := by
  induction xs with
  | nil => rfl
  | cons x xs ih => cases x <;> simp [errorEvents, ih]

/-! ### The logs under each update -/

/-- The three parts of the invariant that the state's own fields carry. -/
def LogsInOrder (s : State) : Prop :=
  GeometryLegal s ∧ halfDuplex s.history = true ∧ LogAgrees s

/-- Whole events without an error keep the order, whatever else they come with. -/
theorem logsInOrder_record {t : State} (h : LogsInOrder s) (events : List Event) (hd : halfDuplex events = true)
    (he : errorEvents events = []) (hg : t.geom = s.geom) (hl : t.errors = s.errors)
    (hh : t.history = s.history ++ events) : LogsInOrder t := by
  obtain ⟨hgeom, hduplex, hagree⟩ := h
  refine ⟨fun g hx => hgeom g (hg ▸ hx), ?_, ?_⟩
  · rw [hh, halfDuplex_append _ hduplex, hd]
  · rw [LogAgrees, hl, hh, errorEvents_append, he, List.append_nil]
    exact hagree

/-- An error enters both logs (R304, steps 1 and 2). -/
theorem logsInOrder_enterError (h : LogsInOrder s) (code : ErrorCode) (info : ErrorInfo) :
    LogsInOrder (s.enterError code info) := by
  obtain ⟨hgeom, hduplex, hagree⟩ := h
  refine ⟨fun g hx => hgeom g (enterError_geom s code info ▸ hx), ?_, ?_⟩
  · rw [enterError_history, halfDuplex_append _ hduplex]
    rfl
  · rw [LogAgrees, enterError_errors, enterError_history, List.map_append, errorEvents_append, hagree]
    rfl

theorem closed_logsInOrder : Closed (fun _ => True) LogsInOrder LogsInOrder where
  stable := ⟨fun _ _ h => h, fun _ events h hd he => logsInOrder_record h events hd he rfl rfl rfl, fun _ _ _ h => h⟩
  raise := fun _ code info h => logsInOrder_enterError h code info
  raisedPin := fun _ _ _ h => h
  tick := fun s _ tms tdi tdo h => logsInOrder_record h [.tick tms tdi tdo s.tap] rfl rfl rfl rfl rfl
  pending := fun _ _ _ h _ _ => h
  forget := fun _ _ h => h
  caps := fun _ _ _ h => h
  status := fun _ _ _ h => h
  deviceId := fun _ _ _ h => h
  geom := fun _ _ _ h hg => ⟨fun _ hx => Option.some.inj hx ▸ hg, h.2⟩
  busy := fun _ _ h => h

/-! ### Steps -/

/-- A step that waits for a poll has made one, and a poll needs an identified session (R36, R217). -/
theorem waitsIdentified_step {t : State} (ht : step s = .next t) : WaitsIdentified t := by
  have hend : Settled (fun u => u.params = s.params) (fun u => u.params = s.params) t :=
    step_settled (closed_params s.params) (closed_params s.params).ending (.inr (closed_params s.params).stray)
      (fun _ _ => trivial) (fun _ _ _ _ _ _ h _ => h)
      (fun _ _ _ _ _ => ⟨fun _ _ h => h, fun _ h => h, fun _ h => h⟩) (fun _ _ _ _ _ _ h _ => h) rfl ht
  intro b hb
  obtain ⟨u, v, _, rfl⟩ | ⟨u, b', _, hs, rfl⟩ | ⟨u, _, rfl⟩ := hend
  · cases hb
  · exact hs
  · cases hb

/-- Settles O57: the logs by `step_keeps`, the waiting operation by how the step ends. -/
theorem everyStepKeepsTheLogsInOrder : Obligations.EveryStepKeepsTheLogsInOrder := by
  rintro s t ⟨hgeom, hduplex, hagree, _⟩ ht
  obtain ⟨hgeom', hduplex', hagree'⟩ : LogsInOrder t :=
    step_keeps closed_logsInOrder (fun _ h _ => h) ⟨fun _ _ h => h, fun _ h => h, fun _ h => h⟩ (fun _ h _ => h)
      (fun _ _ _ _ _ h => h) ⟨hgeom, hduplex, hagree⟩ ht
  exact ⟨hgeom', hduplex', hagree', waitsIdentified_step ht⟩

end Sys2Proof.Machine

/-!
How a step ends (R21, R304, R305, R307). While nothing has been raised, the error log, the position and the run stand as
they were (`Unraised`); a raise adds one error (`RaisedOnce`); only the pin release that follows an error can add a
second (`RaisedWithRelease`).
-/
namespace Sys2Proof.Machine

variable {s t : State}

/-- Nothing is known of the TAP (R305). -/
def Forgotten (u : State) : Prop :=
  u.tap = .unknown ∧ u.lastIR = .unknown ∧ u.pendingIR = .unknown

/-- The errors after which nothing is known of the TAP (R305). -/
def LosesTap (e : ErrorEntry) : Prop :=
  e.code = .transportError ∨ e.code = .protocolDesyncError

/-- Since `s`, nothing was raised. -/
def Unraised (s u : State) : Prop :=
  u.errors = s.errors ∧ u.pc = s.pc ∧ u.ended = s.ended

/-- Since `s`, one error was raised. -/
def RaisedOnce (s u : State) : Prop :=
  u.pc = s.pc ∧ ∃ e, u.errors = s.errors ++ [e] ∧ (LosesTap e → Forgotten u)

/-- Since `s`, one error was raised, or a second one by the pin release (R307). -/
def RaisedWithRelease (s u : State) : Prop :=
  u.pc = s.pc ∧ ∃ (first : ErrorEntry) (second : List ErrorEntry), u.errors = s.errors ++ first :: second
    ∧ (second = [] ∨ (∃ k, second = [⟨.transportError, .transport k⟩]) ∧ u.flashPin = .unknown)
    ∧ ((∃ e ∈ first :: second, LosesTap e) → Forgotten u)

theorem forgotten_enterError {code : ErrorCode} {info : ErrorInfo} (h : LosesTap ⟨code, info⟩) :
    Forgotten (s.enterError code info) := by
  obtain rfl | rfl : code = .transportError ∨ code = .protocolDesyncError := h
  · exact ⟨rfl, rfl, rfl⟩
  · exact ⟨rfl, rfl, rfl⟩

theorem raisedOnce_enterError {u : State} (h : Unraised s u) (code : ErrorCode) (info : ErrorInfo) :
    RaisedOnce s (u.enterError code info) := by
  obtain ⟨herrors, hpc, _⟩ := h
  exact ⟨by rw [enterError_pc, hpc], ⟨code, info⟩, by rw [enterError_errors, herrors], forgotten_enterError⟩

theorem closed_unraised (s : State) : Closed (fun _ => True) (Unraised s) (RaisedOnce s) where
  stable := ⟨fun _ _ h => h, fun _ _ h _ _ => h, fun _ _ _ h => h⟩
  raise := fun _ code info h => raisedOnce_enterError h code info
  raisedPin := fun _ _ _ h => h
  tick := fun _ _ _ _ _ h => h
  pending := fun _ _ _ h _ _ => h
  forget := fun _ _ h => h
  caps := fun _ _ _ h => h
  status := fun _ _ _ h => h
  deviceId := fun _ _ _ h => h
  geom := fun _ _ _ h _ => h
  busy := fun _ _ h => h

/-- The failed pin release adds its TransportError, and the pin is `Unknown` (R305, R307). -/
theorem raisedWithRelease_again {u : State} (h : RaisedOnce s u) (k : FailKind) :
    RaisedWithRelease s { u.enterError .transportError (.transport k) with flashPin := .unknown } := by
  obtain ⟨hpc, e, herrors, _⟩ := h
  refine ⟨(enterError_pc u _ _).trans hpc, e, [⟨.transportError, .transport k⟩], ?_, .inr ⟨⟨k, rfl⟩, rfl⟩,
    fun _ => ⟨rfl, rfl, rfl⟩⟩
  rw [enterError_errors, herrors, List.append_assoc]
  rfl

theorem raisedWithRelease_of_once {u : State} (h : RaisedOnce s u) : RaisedWithRelease s u := by
  obtain ⟨hpc, e, herrors, hlost⟩ := h
  exact ⟨hpc, e, [], herrors, .inl rfl, fun ⟨_, hmem, hl⟩ => hlost (List.mem_singleton.mp hmem ▸ hl)⟩

theorem ending_raisedOnce (s : State) : Ending (fun _ => True) (RaisedOnce s) (RaisedWithRelease s) where
  stable := ⟨fun _ _ h => h, fun _ _ h _ _ => h, fun _ _ _ h => h⟩
  again := fun _ _ k h _ => raisedWithRelease_again h k
  weaken := fun _ h => raisedWithRelease_of_once h

/-- Settles O58: the three ways in which a step settles, read with the predicates above. -/
theorem errorsEndTheRunWhereItStands : Obligations.ErrorsEndTheRunWhereItStands := by
  intro s t hwaits ht
  have hrun : s.ended = false := (step_cases ht).1
  obtain ⟨u, v, ⟨herrors, hpc, hended⟩, rfl⟩ | ⟨u, b, ⟨herrors, hpc, hended⟩, _, rfl⟩ | ⟨u, hraised, rfl⟩ :=
    step_settled (closed_unraised s) (ending_raisedOnce s) (.inl hwaits) (fun _ _ => trivial)
      (fun _ _ _ _ _ _ h _ => h) (fun _ _ _ _ _ => ⟨fun _ _ h => h, fun _ h => h, fun _ h => h⟩)
      (fun _ _ _ _ _ _ h _ => h) ⟨rfl, rfl, rfl⟩ ht
  case inl => exact .inl ⟨hended.trans hrun, herrors, .inl ⟨rfl, congrArg (· + 1) hpc⟩⟩
  case inr.inl => exact .inl ⟨hended.trans hrun, herrors, .inr ⟨nofun, hpc⟩⟩
  case inr.inr =>
    obtain ⟨hpc, hlog⟩ := hraised
    exact .inr ⟨rfl, rfl, hpc, rfl, hlog⟩

end Sys2Proof.Machine

/-!
Where the TAP's state is unknown, it stays so (R22, R110): only the middle step of `reset()` makes it known. The
operations that can configure the FPGA and do not start with it probe the capabilities first, and a probe on an unknown
TAP raises at its command scan (`Raises`).
-/
namespace Sys2Proof.Machine

variable {I E : State → Prop} {s t : State}

/-! ### Steps that run an instruction, and steps that run none -/

/-- What says nothing of a run's position, result and end survives however an operation settles. -/
theorem settled_keeps (hrun : ∀ s r n e b, I s → I { s with result := r, pc := n, ended := e, busy := b })
    (h : Settled I I t) : I t := by
  obtain ⟨u, v, hu, rfl⟩ | ⟨u, b, hu, _, rfl⟩ | ⟨u, hu, rfl⟩ := h
  · exact hrun u v (u.pc + 1) u.ended none hu
  · exact hrun u u.result u.pc u.ended (some b) hu
  · exact hrun u .none u.pc true none hu

/-- A step that runs no instruction makes the next poll of a waiting operation, or raises for an opcode outside the
vocabulary: it keeps what every update keeps. -/
theorem step_keeps_or_exec (hc : Closed (fun _ => True) I I)
    (hrun : ∀ s r n e b, I s → I { s with result := r, pc := n, ended := e, busy := b }) (h : I s)
    (ht : step s = .next t) : I t ∨ ∃ c i, s.fetch = some c ∧ decode c = .ok i ∧ exec i s = .next t := by
  obtain ⟨_, ⟨b, _, hresume⟩ | ⟨_, c, hf, hcall⟩⟩ := step_cases ht
  · have hleaves := leaves_resumePoll hc hc.ending b (fun _ _ => trivial) (.inr hc.stray) (hc.busy s none h)
    exact .inl (settled_keeps hrun (settled_of_leaves hleaves hresume))
  obtain ⟨i, hd, hexec⟩ | ⟨op, _, rfl⟩ := stepCall_cases hcall
  · exact .inr ⟨c, i, hf, hd, hexec⟩
  · exact .inl (hrun _ .none _ true none (hc.raise s _ _ h))

/-! ### Operations that always raise -/

/-- From every state of `I` the operation raises, and leaves `E`. -/
structure Raises {α : Type} (I E : State → Prop) (op : Op α) : Prop where
  raised : ∀ s, I s → ∃ t, op s = .error .raised t ∧ E t

theorem Raises.keeps {α : Type} {op : Op α} (h : Raises I E op) : Keeps I E op := by
  refine ⟨fun s hs => ?_⟩
  obtain ⟨t, hr, ht⟩ := h.raised s hs
  rw [hr]
  exact ht

/-- What stands after an operation that always raises does not run. -/
theorem raises_bind {α β : Type} {x : Op α} {f : α → Op β} (h : Raises I E x) : Raises I E (x >>= f) := by
  refine ⟨fun s hs => ?_⟩
  obtain ⟨t, hr, ht⟩ := h.raised s hs
  exact ⟨t, run_bind_error hr, ht⟩

theorem raises_get_bind {α : Type} {f : State → Op α} (h : ∀ s, Raises I E (f s)) :
    Raises I E ((get : Op State) >>= f) :=
  ⟨fun s hs => (h s).raised s hs⟩

/-! ### The unknown TAP state -/

/-- The tracked state is unknown. -/
def TapUnknown (s : State) : Prop :=
  s.tap = .unknown

theorem tapUnknown_enterError (h : TapUnknown s) (code : ErrorCode) (info : ErrorInfo) :
    TapUnknown (s.enterError code info) := by
  by_cases ht : code = .transportError
  · subst ht; rfl
  by_cases hd : code = .protocolDesyncError
  · subst hd; rfl
  rw [enterError_plain s code info ht hd]
  exact h

theorem closed_tapUnknown : Closed (fun _ => True) TapUnknown TapUnknown where
  stable := ⟨fun _ _ h => h, fun _ _ h _ _ => h, fun _ _ _ h => h⟩
  raise := fun _ code info h => tapUnknown_enterError h code info
  raisedPin := fun _ _ _ h => h
  tick := fun s _ tms _ _ (h : s.tap = .unknown) => show nextTracked s.tap tms = .unknown by rw [h]; rfl
  pending := fun _ _ _ h _ _ => h
  forget := fun _ _ _ => rfl
  caps := fun _ _ _ h => h
  status := fun _ _ _ h => h
  deviceId := fun _ _ _ h => h
  geom := fun _ _ _ h _ => h
  busy := fun _ _ h => h

theorem openOk_tapUnknown : OpenOk TapUnknown :=
  ⟨fun _ _ h => h, fun _ _ => rfl, fun _ _ => rfl⟩

/-! ### The operations that probe before they configure -/

section probe
variable {W : Effect → Prop} (hc : Closed W I E)
include hc

/-- The gate raises too where it does not let the operation pass (R251). -/
theorem raises_gated {α : Type} {f : Unit → Op α} (h : Raises I E (f ())) : Raises I E (requireIdentified >>= f) := by
  refine ⟨fun s hs => ?_⟩
  by_cases hv : s.session = .identified
  · rw [run_bind_ok (requireIdentified_ok hv)]
    exact h.raised s hs
  · exact ⟨_, gated_raises hv, hc.raise s _ _ hs⟩

variable (hu : ∀ s, I s → s.tap = .unknown)
include hu

/-- A command scan starts in Run-Test/Idle (R112, R210). -/
theorem raises_cmdScan (frame : BitSeq) : Raises I E (cmdScan frame) :=
  ⟨fun s hs => ⟨_, cmdScan_raises (by rw [hu s hs]; nofun), hc.raise s _ _ hs⟩⟩

theorem raises_probeCapabilities : Raises I E probeCapabilities :=
  raises_gated hc (raises_get_bind fun _ => raises_bind (raises_cmdScan hc hu _))

theorem raises_ensureCapability (bitpos : Nat) (start : Bool) : Raises I E (ensureCapability bitpos start) :=
  raises_gated hc (raises_bind (raises_probeCapabilities hc hu))

theorem raises_readBody (lo hi : Nat) (start : Bool) : Raises I E (readBody lo hi start) :=
  raises_get_bind fun _ => raises_bind (raises_ensureCapability hc hu ..)

theorem raises_writeBody (data : Bytes) (address : Nat) (start : Bool) : Raises I E (writeBody data address start) :=
  raises_bind (raises_get_bind fun _ => raises_bind (raises_ensureCapability hc hu ..))

end probe

/-- `setFlashPin(1)` and a `try` whose body leaves an unknown TAP unknown on every session. -/
theorem leaves_pinned_tapUnknown {α : Type} {body : Op α} (h : TapUnknown s)
    (hb : Keeps (fun u => TapUnknown u ∧ u.session = .identified) (fun u => TapUnknown u ∧ u.session = .identified)
      body)
    (hs : s.session = .identified) :
    Leaves TapUnknown TapUnknown ((setFlashPin true >>= fun _ => releaseAfter body) s) :=
  leaves_pinned closed_tapUnknown closed_tapUnknown.ending trivial hb hs h

theorem keeps_readFlash_of_unknown (lo hi : Nat) (start : Bool) :
    Keeps TapUnknown TapUnknown (readFlash lo hi start) := by
  refine ⟨fun s h => ?_⟩
  by_cases hs : s.session = .identified
  swap
  · rw [readFlash, gated_raises hs]
    exact tapUnknown_enterError h _ _
  rw [readFlash, run_bind_ok (requireIdentified_ok hs)]
  split
  · exact tapUnknown_enterError h _ _
  · exact leaves_pinned_tapUnknown h
      (raises_readBody (closed_tapUnknown.session _) (fun _ hu => hu.1) lo hi start).keeps hs

theorem keeps_writeFlash_of_unknown (data : Bytes) (address : Nat) (start : Bool) :
    Keeps TapUnknown TapUnknown (writeFlash data address start) := by
  refine ⟨fun s h => ?_⟩
  by_cases hs : s.session = .identified
  swap
  · rw [writeFlash, gated_raises hs]
    exact tapUnknown_enterError h _ _
  rw [writeFlash, run_bind_ok (requireIdentified_ok hs)]
  exact leaves_pinned_tapUnknown h
    (raises_writeBody (closed_tapUnknown.session _) (fun _ hu => hu.1) data address start).keeps hs

/-! ### Instructions and steps -/

/-- Every instruction but `reset` and a configuration settles with the TAP's state still unknown. -/
theorem exec_tapUnknown {i : Instr} (hreset : i ≠ .reset) (hconfigure : ∀ bitstream, i ≠ .configureFpga bitstream)
    (h : TapUnknown s) (ht : exec i s = .next t) : Settled TapUnknown TapUnknown t := by
  cases hm : mayReset i with
  | false =>
    exact exec_settled closed_tapUnknown closed_tapUnknown.ending i (fun _ _ => trivial)
      (fun hm' => nomatch hm.symm.trans hm') (fun _ => openOk_tapUnknown) (fun _ _ h _ => h) h ht
  | true =>
    cases i with
    | reset => exact absurd rfl hreset
    | configureFpga bitstream => exact absurd rfl (hconfigure bitstream)
    | ensureCapability bitpos start =>
      exact runOp_settled (raises_ensureCapability closed_tapUnknown (fun _ hu => hu) bitpos start).keeps h ht
    | readFlash lo hi start => exact runOp_settled (keeps_readFlash_of_unknown lo hi start) h ht
    | writeFlash data address start => exact runOp_settled (keeps_writeFlash_of_unknown data address start) h ht
    | _ => cases hm

/-- Settles O15: a resumed poll and every other instruction leave an unknown TAP unknown. -/
theorem onlyResetMakesTheTapStateKnown : Obligations.OnlyResetMakesTheTapStateKnown := by
  intro s t ht hs hknown
  obtain hu | ⟨c, i, hf, hd, hexec⟩ := step_keeps_or_exec closed_tapUnknown (fun _ _ _ _ _ h => h) hs ht
  · exact absurd hu hknown
  refine ⟨c, hf, ?_⟩
  by_contra hn
  rw [not_or, not_exists] at hn
  refine hknown (settled_keeps (fun _ _ _ _ _ h => h) (exec_tapUnknown ?_ (fun bitstream he => ?_) hs hexec))
  · rintro rfl; exact hn.1 hd
  · exact hn.2 bitstream (he ▸ hd)

end Sys2Proof.Machine

/-!
What a step may write (R21, R27 to R32, R35 to R39). The program, the parameters, the draws and the beginnings of the
two logs are kept by every update; the configuration and the session change in `openSession` and `checkIdentity` alone;
each field of `Effect` is kept by every step that may not write it.
-/
namespace Sys2Proof.Machine

variable {s t : State}

/-! ### What every step keeps -/

/-- `u` has the program, the parameters and the draws of `s`, and its logs go on from those of `s`. -/
def Extends (s u : State) : Prop :=
  u.program = s.program ∧ u.params = s.params ∧ u.script = s.script ∧ s.errors <+: u.errors ∧ s.history <+: u.history

theorem extends_refl (s : State) : Extends s s :=
  ⟨rfl, rfl, rfl, List.prefix_refl _, List.prefix_refl _⟩

theorem extends_record {u v : State} (h : Extends s u) (events : List Event) (hprogram : v.program = u.program)
    (hparams : v.params = u.params) (hscript : v.script = u.script) (herrors : u.errors <+: v.errors)
    (hhistory : v.history = u.history ++ events) : Extends s v := by
  obtain ⟨h1, h2, h3, h4, h5⟩ := h
  exact ⟨hprogram.trans h1, hparams.trans h2, hscript.trans h3, h4.trans herrors,
    hhistory ▸ h5.trans (List.prefix_append _ _)⟩

theorem extends_enterError {u : State} (h : Extends s u) (code : ErrorCode) (info : ErrorInfo) :
    Extends s (u.enterError code info) :=
  extends_record h [.error code] (enterError_program ..) (enterError_params ..) (enterError_script ..)
    (enterError_errors u code info ▸ List.prefix_append _ _) (enterError_history ..)

theorem closed_extends (s : State) : Closed (fun _ => True) (Extends s) (Extends s) where
  stable := ⟨fun _ _ h => h, fun _ events h _ _ => extends_record h events rfl rfl rfl (List.prefix_refl _) rfl,
    fun _ _ _ h => h⟩
  raise := fun _ code info h => extends_enterError h code info
  raisedPin := fun _ _ _ h => h
  tick := fun u _ tms tdi tdo h =>
    extends_record h [.tick tms tdi tdo u.tap] rfl rfl rfl (List.prefix_refl _) rfl
  pending := fun _ _ _ h _ _ => h
  forget := fun _ _ h => h
  caps := fun _ _ _ h => h
  status := fun _ _ _ h => h
  deviceId := fun _ _ _ h => h
  geom := fun _ _ _ h _ => h
  busy := fun _ _ h => h

theorem step_extends (ht : step s = .next t) : Extends s t :=
  step_keeps (closed_extends s) (fun _ h _ => h) ⟨fun _ _ h => h, fun _ h => h, fun _ h => h⟩ (fun _ h _ => h)
    (fun _ _ _ _ _ h => h) (extends_refl s) ht

/-! ### The configuration and the session -/

/-- No update writes the configuration or the session; `openSession` and `checkIdentity` do. -/
theorem closed_session (P : SessionConfig → Session → Prop) :
    Closed (fun _ => True) (fun u => P u.cfg u.session) fun u => P u.cfg u.session where
  stable := ⟨fun _ _ h => h, fun _ _ h _ _ => h, fun _ _ _ h => h⟩
  raise := fun s code info h => by rw [enterError_cfg, enterError_session]; exact h
  raisedPin := fun _ _ _ h => h
  tick := fun _ _ _ _ _ h => h
  pending := fun _ _ _ h _ _ => h
  forget := fun _ _ h => h
  caps := fun _ _ _ h => h
  status := fun _ _ _ h => h
  deviceId := fun _ _ _ h => h
  geom := fun _ _ _ h _ => h
  busy := fun _ _ h => h

/-- `openSession` writes its configuration first, and nothing after it writes another (R250). -/
theorem openSession_cfg (cfg : SessionConfig) :
    Leaves (fun u => u.cfg = cfg) (fun u => u.cfg = cfg) (openSession cfg s) := by
  have hc := closed_session fun c _ => c = cfg
  rw [openSession, run_modify_bind]
  refine Keeps.leaves ?_ { s with cfg := cfg } rfl
  exact keeps_bind (keeps_transportOpen hc) fun _ => keeps_bind (keeps_usbWrite hc (pin := false) nofun _) fun _ =>
    keeps_get_bind fun _ => keeps_bind (keeps_handshakeRead hc (fun _ h => h) ..) fun _ =>
    keeps_ite (keeps_modify fun _ h => h) (keeps_raise hc ..)

theorem exec_cfg {i : Instr} (ht : exec i s = .next t) : t.cfg = s.cfg ∨ ∃ cfg, i = .openSession cfg ∧ t.cfg = cfg := by
  by_cases hi : ∃ cfg, i = .openSession cfg
  · obtain ⟨cfg, rfl⟩ := hi
    rw [exec, execOpenSession] at ht
    split at ht
    · exact .inr ⟨cfg, rfl, settled_keeps (fun _ _ _ _ _ h => h) (settled_of_leaves (openSession_cfg cfg) ht)⟩
    · cases ht
  · have hc := closed_session fun c _ => c = s.cfg
    exact .inl (settled_keeps (fun _ _ _ _ _ h => h) (exec_settled hc hc.ending i (fun _ _ => trivial)
      (fun _ _ h _ => h) (fun ho => absurd ho hi) (fun _ _ h _ => h) rfl ht))

theorem exec_openSession_session {cfg : SessionConfig} (ht : exec (.openSession cfg) s = .next t) :
    s.session = .closed ∧ (t.session = .closed ∨ t.session = .opened) := by
  have hs : s.session = .closed := by
    by_contra hs
    rw [exec, execOpenSession, if_neg hs] at ht
    cases ht
  have hc := closed_session fun _ v => v = .closed ∨ v = .opened
  exact ⟨hs, settled_keeps (fun _ _ _ _ _ h => h) (exec_settled hc hc.ending (.openSession cfg)
    (fun _ _ => trivial) (fun _ _ h _ => h) (fun _ => ⟨fun _ _ h => h, fun _ _ => .inr rfl, fun _ h => h⟩)
    (fun hi => nomatch hi) (.inl hs) ht)⟩

theorem exec_checkIdentity_session (ht : exec .checkIdentity s = .next t) :
    t.session = s.session ∨ t.session = .identified ∧ t.deviceId = some Config.expectedIdcode := by
  rw [exec, execCheckIdentity, runUnit, runOp, checkIdentity, run_get_bind] at ht
  split at ht
  · cases ht
    exact .inr ⟨rfl, ‹_›⟩
  · cases ht
    exact .inl rfl

theorem exec_session {i : Instr} (ht : exec i s = .next t) :
    t.session = s.session
      ∨ (∃ cfg, i = .openSession cfg ∧ s.session = .closed ∧ t.session = .opened)
      ∨ i = .checkIdentity ∧ t.session = .identified ∧ t.deviceId = some Config.expectedIdcode := by
  by_cases hopen : ∃ cfg, i = .openSession cfg
  · obtain ⟨cfg, rfl⟩ := hopen
    obtain ⟨hs, hclosed | hopened⟩ := exec_openSession_session ht
    · exact .inl (hclosed.trans hs.symm)
    · exact .inr (.inl ⟨cfg, rfl, hs, hopened⟩)
  by_cases hcheck : i = .checkIdentity
  · subst hcheck
    exact (exec_checkIdentity_session ht).imp id fun h => .inr ⟨rfl, h⟩
  · have hc := closed_session fun _ v => v = s.session
    exact .inl (settled_keeps (fun _ _ _ _ _ h => h) (exec_settled hc hc.ending i (fun _ _ => trivial)
      (fun _ _ h _ => h) (fun ho => absurd ho hopen) (fun hi => absurd hi hcheck) rfl ht))

theorem step_cfg (ht : step s = .next t) (h : t.cfg ≠ s.cfg) :
    ∃ c cfg, s.fetch = some c ∧ decode c = .ok (.openSession cfg) ∧ t.cfg = cfg := by
  obtain hsame | ⟨c, i, hf, hd, hexec⟩ :=
    step_keeps_or_exec (closed_session fun c _ => c = s.cfg) (fun _ _ _ _ _ h => h) rfl ht
  · exact absurd hsame h
  obtain hsame | ⟨cfg, rfl, hcfg⟩ := exec_cfg hexec
  · exact absurd hsame h
  · exact ⟨c, cfg, hf, hd, hcfg⟩

theorem step_session (ht : step s = .next t) (h : t.session ≠ s.session) :
    (∃ c cfg, s.fetch = some c ∧ decode c = .ok (.openSession cfg) ∧ s.session = .closed ∧ t.session = .opened)
      ∨ ∃ c, s.fetch = some c ∧ decode c = .ok .checkIdentity ∧ t.session = .identified
        ∧ t.deviceId = some Config.expectedIdcode := by
  obtain hsame | ⟨c, i, hf, hd, hexec⟩ :=
    step_keeps_or_exec (closed_session fun _ v => v = s.session) (fun _ _ _ _ _ h => h) rfl ht
  · exact absurd hsame h
  obtain hsame | ⟨cfg, rfl, hopen⟩ | ⟨rfl, hcheck⟩ := exec_session hexec
  · exact absurd hsame h
  · exact .inl ⟨c, cfg, hf, hd, hopen⟩
  · exact .inr ⟨c, hf, hd, hcheck⟩

/-! ### The fields with writers of their own -/

/-- `u` has the value of `s` in the field `e`. -/
def SameField (s : State) (e : Effect) (u : State) : Prop :=
  (e = .caps → u.caps = s.caps) ∧ (e = .geom → u.geom = s.geom) ∧ (e = .status → u.status = s.status)
    ∧ (e = .deviceId → u.deviceId = s.deviceId) ∧ (e = .flashPin → u.flashPin = s.flashPin)

theorem sameField_enterError {e : Effect} {u : State} (h : SameField s e u) (code : ErrorCode) (info : ErrorInfo) :
    SameField s e (u.enterError code info) := by
  rw [SameField, enterError_caps, enterError_geom, enterError_status, enterError_deviceId, enterError_flashPin]
  exact h

/-- The updates of the other fields keep `e`. -/
theorem closed_sameField (s : State) (e : Effect) : Closed (· ≠ e) (SameField s e) (SameField s e) where
  stable := ⟨fun _ _ h => h, fun _ _ h _ _ => h,
    fun hw _ _ ⟨hcaps, hgeom, hstatus, hid, _⟩ => ⟨hcaps, hgeom, hstatus, hid, fun he => absurd he.symm hw⟩⟩
  raise := fun _ code info h => sameField_enterError h code info
  raisedPin := fun hw _ _ ⟨hcaps, hgeom, hstatus, hid, _⟩ =>
    ⟨hcaps, hgeom, hstatus, hid, fun he => absurd he.symm hw⟩
  tick := fun _ _ _ _ _ h => h
  pending := fun _ _ _ h _ _ => h
  forget := fun hw _ ⟨_, hrest⟩ => ⟨fun he => absurd he.symm hw, hrest⟩
  caps := fun hw _ _ ⟨_, hrest⟩ => ⟨fun he => absurd he.symm hw, hrest⟩
  status := fun hw _ _ ⟨hcaps, hgeom, _, hrest⟩ => ⟨hcaps, hgeom, fun he => absurd he.symm hw, hrest⟩
  deviceId := fun hw _ _ ⟨hcaps, hgeom, hstatus, _, hpin⟩ =>
    ⟨hcaps, hgeom, hstatus, fun he => absurd he.symm hw, hpin⟩
  geom := fun hw _ _ ⟨hcaps, _, hrest⟩ _ => ⟨hcaps, fun he => absurd he.symm hw, hrest⟩
  busy := fun _ _ h => h

/-- A step that may not write a field keeps it. -/
theorem step_sameField {e : Effect} (hn : ¬ s.MayWrite e) (ht : step s = .next t) : SameField s e t :=
  step_leaves e (closed_sameField s e) (fun _ h _ => h) ⟨fun _ _ h => h, fun _ h => h, fun _ h => h⟩ (fun _ h _ => h)
    (fun _ _ _ _ _ h => h) hn ⟨fun _ => rfl, fun _ => rfl, fun _ => rfl, fun _ => rfl, fun _ => rfl⟩ ht

theorem mayWrite_of_not_sameField {e : Effect} (ht : step s = .next t) (h : ¬ SameField s e t) : s.MayWrite e :=
  Classical.byContradiction fun hn => h (step_sameField hn ht)

/-- Settles O59: what every step keeps, the two writers of `cfg` and `session`, and the five fields by one argument. -/
theorem stepsOnlyAppendToTheLogs : Obligations.StepsOnlyAppendToTheLogs := by
  intro s t ht
  obtain ⟨hprogram, hparams, hscript, herrors, hhistory⟩ := step_extends ht
  refine ⟨hprogram, hparams, hscript, herrors, hhistory, step_cfg ht, step_session ht, ?caps, ?geom, ?status,
    ?deviceId, ?flashPin⟩
  case caps => exact fun h => mayWrite_of_not_sameField ht fun ⟨hcaps, _⟩ => h (hcaps rfl)
  case geom => exact fun h => mayWrite_of_not_sameField ht fun ⟨_, hgeom, _⟩ => h (hgeom rfl)
  case status => exact fun h => mayWrite_of_not_sameField ht fun ⟨_, _, hstatus, _⟩ => h (hstatus rfl)
  case deviceId => exact fun h => mayWrite_of_not_sameField ht fun ⟨_, _, _, hid, _⟩ => h (hid rfl)
  case flashPin => exact fun h => mayWrite_of_not_sameField ht fun ⟨_, _, _, _, hpin⟩ => h (hpin rfl)

end Sys2Proof.Machine

/-!
Reset, fetch and the functions on status words (R21, R28, R30, R42, R330).
-/
namespace Sys2Proof.Machine

/-- Settles O1: each field of `State.reset` is written out there. -/
theorem resetLeavesTheOpeningState : Obligations.ResetLeavesTheOpeningState :=
  ⟨rfl, rfl, rfl, rfl, rfl, rfl, rfl, rfl, rfl, rfl, rfl, rfl⟩

/-- Settles O60: nothing is known of the TAP at reset, no geometry was read, the logs are empty, and nothing waits. -/
theorem resetSatisfiesTheInvariants : Obligations.ResetSatisfiesTheInvariants :=
  ⟨tapInOrder_of_forgotten rfl rfl rfl, nofun, rfl, rfl, nofun⟩

/-! ### The step -/

theorem step_of_ended {s : State} (h : s.ended = true) : step s = .fault .runEnded :=
  if_pos h

theorem step_of_busy {s : State} {b : Busy} (h : s.ended = false) (hb : s.busy = some b) :
    step s = runUnit (resumePoll b) { s with busy := none } := by
  rw [step, stepRun, if_neg (by rw [h]; decide), hb]

theorem step_of_complete {s : State} (h : s.ended = false) (hb : s.busy = none) (hf : s.fetch = none) :
    step s = .fault .programComplete := by
  rw [step, stepRun, if_neg (by rw [h]; decide), hb, hf]

theorem step_of_fetch {s : State} {c : Call} {i : Instr} (h : s.ended = false) (hb : s.busy = none)
    (hf : s.fetch = some c) (hd : decode c = .ok i) : step s = exec i s := by
  rw [step, stepRun, if_neg (by rw [h]; decide), hb, hf]
  exact (by rw [stepCall, hd] : stepCall c s = exec i s)

/-- Settles O53: the branches of the step, each by its own equation. -/
theorem stepRunsTheDecodedInstruction : Obligations.StepRunsTheDecodedInstruction := by
  refine fun s => ⟨step_of_ended, fun hrun hb => ⟨fun hpc => ?_, fun c i hf hd => ?_⟩, fun hrun b hb => ?_⟩
  · exact step_of_complete hrun hb (List.getElem?_eq_none hpc)
  · exact step_of_fetch hrun hb hf hd
  · exact step_of_busy hrun hb

/-! ### Capability and status words -/

/-- The upper guard byte is what is above the other 24 bits (R27). -/
theorem upperGuard_iff (c : Word32) : c.extractLsb' 24 8 = Config.capsGuard ↔ c.toNat / 2 ^ 24 = 0xA5 := by
  have hc : c.toNat < 2 ^ 32 := c.isLt
  rw [← BitVec.toNat_inj, BitVec.extractLsb'_toNat, Nat.shiftRight_eq_div_pow,
    Nat.mod_eq_of_lt (Nat.div_lt_of_lt_mul (by omega))]
  rfl

/-- The lower guard byte is the low eight bits (R27). -/
theorem lowerGuard_iff (c : Word32) : c.extractLsb' 0 8 = Config.capsGuard ↔ c.toNat % 2 ^ 8 = 0xA5 := by
  rw [← BitVec.toNat_inj, BitVec.extractLsb'_toNat, Nat.shiftRight_zero]
  rfl

theorem hasCap_eq (c : Word32) (bitpos : Nat) :
    hasCap c bitpos =
      (decide (c.toNat / 2 ^ 24 = 0xA5) && decide (c.toNat % 2 ^ 8 = 0xA5) && c.toNat.testBit bitpos) := by
  simp only [hasCap, beq_eq_decide, upperGuard_iff, lowerGuard_iff, BitVec.testBit_toNat]

/-- Settles O25: the row returns `hasCap`, which is the test on the word's number. -/
theorem capabilityTestNeedsBothGuards : Obligations.CapabilityTestNeedsBothGuards := by
  intro s c bitpos
  rw [← hasCap_eq]
  exact runOp_ok (run_pure s _)

theorem exec_decodeStatus (s : State) (w : Word32) :
    exec (.decodeStatus w) s = .next (s.completed (.status (decodeStatus s.params w))) :=
  runOp_ok (run_pure s _)

/-- Settles O26: the two tests of R30 in their order. -/
theorem statusDecodingIsTotal : Obligations.StatusDecodingIsTotal := by
  refine fun s w => ⟨fun hpassed => ?_, fun hpassed hfailed => ?_, fun hpassed hfailed => ?_⟩
  · rw [exec_decodeStatus, decodeStatus, if_pos hpassed]
  · rw [exec_decodeStatus, decodeStatus, if_neg hpassed, if_pos hfailed]
  · rw [exec_decodeStatus, decodeStatus, if_neg hpassed, if_neg hfailed]

end Sys2Proof.Machine

/-!
The session's gate and handshake, and the geometry (R23, R29, R36, R214, R215, R250, R251, R305).
-/
namespace Sys2Proof.Machine

variable {s : State}

/-! ### The handshake and the gate -/

theorem exec_openSession (cfg : SessionConfig) (h : s.session = .closed) :
    exec (.openSession cfg) s = runUnit (openSession cfg) s :=
  if_pos h

/-- A handshake that has read its response opens the session or raises, by the checksum (R250). -/
theorem exec_openSession_of_response {cfg : SessionConfig} {u : State} {resp : Bytes} (h : s.session = .closed)
    (ho : openSession cfg s = if infoChecksumOk s.params resp then .ok () u.openedSession
      else .error .raised (u.enterError .deviceIdentityError (.checksum resp))) :
    (infoChecksumOk s.params resp = true → exec (.openSession cfg) s = .next (u.openedSession.completed .none))
      ∧ (infoChecksumOk s.params resp = false →
        exec (.openSession cfg) s = .next (u.failedWith .deviceIdentityError (.checksum resp))) := by
  rw [exec_openSession cfg h]
  constructor <;> intro hsum <;> rw [hsum] at ho
  · exact runOp_ok ho
  · exact runOp_raised ho

/-- Settles O36: the handshake whose first read answers, and the one whose second does. -/
theorem openSessionHandshakes : Obligations.OpenSessionHandshakes := by
  refine fun s cfg hs => ⟨fun hok resp hresp => ?_, fun k hok hfail hretry resp hresp => ?_⟩
  · subst hresp
    exact exec_openSession_of_response hs (openSession_answered hok)
  · subst hresp
    exact exec_openSession_of_response hs (openSession_retried hok hfail hretry)

/-- Settles O41: every listed operation begins with the gate. -/
theorem flashOperationsNeedAnIdentifiedSession : Obligations.FlashOperationsNeedAnIdentifiedSession := by
  intro s a n b on start bytes i hi hs
  simp only [List.mem_cons, List.not_mem_nil, or_false] at hi
  rcases hi with rfl | rfl | rfl | rfl | rfl | rfl | rfl | rfl | rfl | rfl | rfl | rfl | rfl | rfl | rfl <;>
    exact runOp_raised (gated_raises hs)

/-! ### The geometry -/

/-- The legality test of R214, on the three numbers. -/
theorem validGeometry_iff (g : Geometry) :
    validGeometry g = true ↔
      g.dataWidthBits.toNat ≠ 0 ∧ g.dataWidthBits.toNat % 8 = 0 ∧ (∃ k, g.dataWidthBits.toNat / 8 = 2 ^ k)
        ∧ g.addrWidthBits.toNat ≠ 0 ∧ g.dataWidthBits.toNat / 8 ≤ 2 ^ g.blockAddrWidthBits.toNat := by
  constructor
  · intro h
    obtain ⟨k, _, hk⟩ := stride_two_pow h
    simp only [validGeometry, Bool.not_eq_true', Bool.or_eq_false_iff, beq_eq_false_iff_ne, bne_eq_false_iff_eq,
      decide_eq_false_iff_not, Nat.not_lt] at h
    obtain ⟨⟨⟨⟨hzero, hmod⟩, _⟩, haddr⟩, hblock⟩ := h
    exact ⟨hzero, hmod, ⟨k, hk⟩, haddr, hblock⟩
  · rintro ⟨hzero, hmod, ⟨k, hk⟩, haddr, hblock⟩
    have hpow : isPow2 (g.dataWidthBits.toNat / 8) = true := by rw [hk, isPow2_two_pow]
    simp [validGeometry, hzero, hmod, hpow, haddr, hblock]

/-- The three fields of a geometry response are its three low bytes (R29). -/
theorem geometryOf_fields (n : Nat) :
    (geometryOf n).dataWidthBits.toNat = n % 2 ^ 8 ∧ (geometryOf n).addrWidthBits.toNat = n / 2 ^ 8 % 2 ^ 8
      ∧ (geometryOf n).blockAddrWidthBits.toNat = n / 2 ^ 16 % 2 ^ 8 :=
  ⟨BitVec.toNat_ofNat .., BitVec.toNat_ofNat .., BitVec.toNat_ofNat ..⟩

/-- Settles O43: the geometry scan reads the three fields, and `validGeometry` is the legality test. -/
theorem geometryIsReadAndChecked : Obligations.GeometryIsReadAndChecked := by
  intro s n d a b hs ht hok hn hd ha hb
  have hread := readGeometry_ok hs ht hok
  have hscan : s.scannedGeometry = geometryOf n := by rw [hn, State.scannedGeometry]
  have hvalid := validGeometry_iff (geometryOf n)
  obtain ⟨hdata, haddr, hblock⟩ := geometryOf_fields n
  rw [hscan, hdata, haddr, hblock, ← hd, ← ha, ← hb] at hread
  rw [hdata, haddr, hblock, ← hd, ← ha, ← hb] at hvalid
  refine ⟨fun hlegal => ?_, fun hillegal => ?_⟩
  · rw [if_pos (hvalid.mpr hlegal), State.measured, hscan] at hread
    exact ⟨geometryOf n, hdata.trans hd.symm, haddr.trans ha.symm, hblock.trans hb.symm, runOp_ok hread⟩
  · rw [if_neg (mt hvalid.mp hillegal)] at hread
    exact runOp_raised hread

theorem geometry_eq {g : Geometry} (h : s.geom = some g) : s.geometry = g := by
  rw [State.geometry, h, Option.getD_some]

/-- Settles O44: under a legal geometry the address bits below the stride are the remainder. -/
theorem alignmentIsCheckedLengthFirst : Obligations.AlignmentIsCheckedLengthFirst := by
  intro s g address length hs hg hv
  have hcheck := validateRange_eq (address := address) (length := length) hs
  rw [geometry_eq hg, belowStride_eq hv] at hcheck
  refine ⟨fun hlen haddr => ?_, fun hlen => ?_, fun hlen haddr => ?_⟩
  · rw [if_neg (not_not.mpr hlen), if_neg (not_not.mpr haddr)] at hcheck
    exact runOp_ok hcheck
  · rw [if_pos hlen] at hcheck
    exact runOp_raised hcheck
  · rw [if_neg (not_not.mpr hlen), if_pos haddr] at hcheck
    exact runOp_raised hcheck

end Sys2Proof.Machine

/-!
The program chunk (R55, R77, R149, R218): its checks in their order, then its two scans and its first poll.
-/
namespace Sys2Proof.Machine

variable {s : State} {address : Nat} {chunk : Bytes}

/-- A chunk with a fault ends the row with it (R218, R303). -/
theorem exec_programChunk_fault {code : ErrorCode} {info : ErrorInfo} (hs : s.session = .identified)
    (hfault : chunkFault s.geometry address chunk = some (code, info)) :
    exec (.programChunk address chunk) s = .next (s.failedWith code info) :=
  runOp_raised (programChunk_fault hs hfault)

/-- A chunk without a fault, sent and polled once (R217, R218). -/
theorem exec_programChunk_sent (hs : s.session = .identified) (ht : s.tap = .known .runTestIdle)
    (hfault : chunkFault s.geometry address chunk = none)
    (h : s.AnswersOk (2 * (16 + subWidth s.params.subFlashPgm + 2 * addrWidth s.geometry
      + (5 + 8 * chunk.length) + 37))) :
    exec (.programChunk address chunk) s = .next ((s.sentChunk s.geometry address chunk).pollEnds 0) := by
  obtain ⟨hne, _⟩ := chunkFault_none hfault
  have hscans := programChunk_eq (rest := .done) hs ht hfault (answersOk_mono h (by omega))
  have hanswers : (s.sentChunk s.geometry address chunk).AnswersOk (2 * 37) :=
    answersOk_sentChunk (answersOk_mono h (by omega))
  rw [← pollOnce_ends (s := s.sentChunk s.geometry address chunk) hs rfl (sentChunk_tap ht hne) (.inl hanswers),
    ← hscans]
  rfl

/-- Settles O47: each raising clause is one branch of `chunkFault`, and the other clause is the last of them. -/
theorem programChunkSendsFrameThenPayload : Obligations.ProgramChunkSendsFrameThenPayload := by
  intro s g address chunk hs hg hv
  have hgeom : s.geometry = g := geometry_eq hg
  have hbelow : belowStride address (stride g) = address % stride g := belowStride_eq hv address
  have hraise : ∀ code info, chunkFault g address chunk = some (code, info) →
      exec (.programChunk address chunk) s = .next (s.failedWith code info) :=
    fun _ _ hfault => exec_programChunk_fault hs (hgeom ▸ hfault)
  refine ⟨fun hsize => ?wrongSize, fun hne hle => ?_⟩
  case wrongSize => exact hraise _ _ (if_pos (hsize.imp_left List.length_eq_zero_iff.mpr))
  have hsize : ¬ (chunk.length = 0 ∨ blockSizeBytes g < chunk.length) :=
    not_or.mpr ⟨mt List.length_eq_zero_iff.mp hne, not_lt.mpr hle⟩
  rw [chunkFault, if_neg hsize, hbelow] at hraise
  refine ⟨fun ht _ hlen haddr hfa hfn h => ?sent, fun hlen => ?lengthMisaligned, fun hlen haddr => ?addressMisaligned,
    fun hlen haddr hfa => ?addressTooLarge, fun hlen haddr hfa hfn => ?countTooLarge⟩
  case sent =>
    have hfault : chunkFault g address chunk = none := by
      rw [chunkFault, if_neg hsize, hbelow, if_neg (not_not.mpr hlen), if_neg (not_not.mpr haddr),
        if_neg (not_le.mpr hfa), if_neg (not_le.mpr hfn)]
    subst hgeom
    exact exec_programChunk_sent hs ht hfault h
  case lengthMisaligned => exact hraise _ _ (if_pos hlen)
  case addressMisaligned =>
    rw [if_neg (not_not.mpr hlen)] at hraise
    exact hraise _ _ (if_pos haddr)
  case addressTooLarge =>
    rw [if_neg (not_not.mpr hlen), if_neg (not_not.mpr haddr)] at hraise
    exact hraise _ _ (if_pos hfa)
  case countTooLarge =>
    rw [if_neg (not_not.mpr hlen), if_neg (not_not.mpr haddr), if_neg (not_le.mpr hfa)] at hraise
    exact hraise _ _ (if_pos hfn)

end Sys2Proof.Machine

/-!
Decoding against encoding (R70 to R77, R81, R83). A frame decodes only under an opcode of the vocabulary. A frame or a
named call that decodes is the encoding of its instruction; an IR value other than USER1 decodes to `shiftInstruction`,
which is encoded by its name.
-/
namespace Sys2Proof.Machine

/-! ### The opcode vocabulary -/

/-- The opcode bytes of R74, in the order of its table. -/
def opcodeVocabulary : List Byte :=
  [0x00, 0x40, 0x01, 0x02, 0x03, 0x50, 0x04, 0x05, 0x06, 0x07, 0x31, 0x32, 0x41, 0x42, 0x43, 0x44, 0x45, 0x46, 0x47,
    0x48, 0x4f, 0x49, 0x4a, 0x4b, 0x4c, 0x4d, 0x4e, 0xff]

/-- The vocabulary is what file 42 admits and what it refuses. -/
theorem mem_opcodeVocabulary_iff {op : Byte} :
    op ∈ opcodeVocabulary ↔ op ∈ admittedOpcodes ∨ op ∈ refusedOpcodes := by
  have hperm : opcodeVocabulary.Perm (admittedOpcodes ++ refusedOpcodes) := by decide
  rw [hperm.mem_iff, List.mem_append]

theorem opcodeClass_of_not_mem {op : Byte} (h : op ∉ opcodeVocabulary) : opcodeClass op = .unlisted := by
  obtain ⟨hadmitted, hrefused⟩ := not_or.mp (mt mem_opcodeVocabulary_iff.mpr h)
  rw [opcodeClass, if_neg hadmitted, if_neg hrefused]

/-- Whatever its operands, a frame with an unlisted opcode is rejected by that opcode (R81). -/
theorem decodeFrame_of_not_mem {op : Byte} (h : op ∉ opcodeVocabulary) (arg : FrameArg) :
    decodeFrame op arg = .error (.unknownOpcode op) := by
  simp only [opcodeVocabulary, List.mem_cons, List.not_mem_nil, or_false, not_or] at h
  simp only [decodeFrame, h, if_false]

theorem mem_opcodeVocabulary_of_decodeFrame {op : Byte} {arg : FrameArg} {i : Instr}
    (h : decodeFrame op arg = .ok i) : op ∈ opcodeVocabulary := by
  by_contra hop
  rw [decodeFrame_of_not_mem hop] at h
  cases h

/-! ### Encoding undoes decoding -/

theorem decodeFrame_onOff (b : Byte) :
    decodeFrame 0x50 (.onOff b) =
      if b = Config.flashOnOffAssert then .ok (.usbFlashOnOff true)
      else if b = Config.flashOnOffRelease then .ok (.usbFlashOnOff false)
      else .error (.badOnOffByte b) := rfl

/-- Of the argument bytes of `FLASH_ONOFF`, the two that decode are the two that are encoded (R165). -/
theorem encode_of_decodeFrame_flashOnOff {arg : FrameArg} {i : Instr} (h : decodeFrame 0x50 arg = .ok i) :
    encode i = .frame 0x50 arg := by
  cases arg with
  | onOff b =>
    rw [decodeFrame_onOff] at h
    split_ifs at h with hassert hrelease
    · cases h; rw [hassert]; rfl
    · cases h; rw [hrelease]; rfl
  | _ => cases h

/-- Every other opcode takes one form of operand, and its instruction carries that operand whole (R71, R74). -/
theorem encode_of_decodeFrame {op : Byte} {arg : FrameArg} {i : Instr} (h : decodeFrame op arg = .ok i) :
    encode i = .frame op arg := by
  have hop := mem_opcodeVocabulary_of_decodeFrame h
  simp only [opcodeVocabulary, List.mem_cons, List.not_mem_nil, or_false] at hop
  rcases hop with rfl | rfl | rfl | rfl | rfl | rfl | rfl | rfl | rfl | rfl | rfl | rfl | rfl | rfl | rfl | rfl | rfl
    | rfl | rfl | rfl | rfl | rfl | rfl | rfl | rfl | rfl | rfl | rfl
  case inr.inr.inr.inr.inr.inl => exact encode_of_decodeFrame_flashOnOff h
  all_goals
    cases arg <;> cases h
    rfl

/-- A named call decodes where its arguments are of the one form its mnemonic takes, and its instruction carries them
all (R11, R77). -/
theorem encode_of_decodeNamed {m : Mnemonic} {args : List Arg} {i : Instr} (h : decodeNamed m args = .ok i) :
    encode i = .named m args := by
  cases m
  all_goals
    simp only [decodeNamed] at h
    split at h
    case h_1 => cases h; rfl
    case h_2 => cases h

/-- Settles O55: `decode_encode`, and for the converse each encoding layer on its own. -/
theorem decodingAndEncodingAgree : Obligations.DecodingAndEncodingAgree := by
  refine ⟨decode_encode, fun c i h => ?_⟩
  cases c with
  | frame op arg => exact .inl (encode_of_decodeFrame h).symm
  | named m args => exact .inl (encode_of_decodeNamed h).symm
  | ir code =>
    cases h
    by_cases huser1 : code = Config.instrUser1
    · exact .inl (by rw [decodeIr, if_pos huser1, huser1]; rfl)
    · have hbits : codeBits code = bitsOf 6 code.toNat := rfl
      exact .inr ⟨code, rfl, huser1, by rw [decodeIr, if_neg huser1, hbits]⟩

/-! ### Unlisted opcodes -/

theorem exec_command_of_not_mem {op : Byte} (h : op ∉ opcodeVocabulary) (payload : Bytes) (s : State) :
    exec (.command op payload) s = .next (s.failedWith .invalidOperand (.operand op.toNat)) := by
  have hclass := opcodeClass_of_not_mem h
  have hraise : command op payload s = .error .raised (s.enterError .invalidOperand (.operand op.toNat)) := by
    rw [command, if_pos hclass, run_raise]
  rw [exec, execCommand, if_neg (by rw [hclass]; decide), runOp_raised hraise]

/-- A frame that is rejected by its opcode raises in the step itself (R81). -/
theorem step_frame_of_not_mem {op : Byte} {arg : FrameArg} {s : State} (h : op ∉ opcodeVocabulary)
    (hrun : s.ended = false) (hb : s.busy = none) (hf : s.fetch = some (.frame op arg)) :
    step s = .next (s.failedWith .invalidOperand (.operand op.toNat)) := by
  have hdecode : decode (.frame op arg) = .error (.unknownOpcode op) := decodeFrame_of_not_mem h arg
  rw [step, stepRun, if_neg (by rw [hrun]; decide), hb, hf]
  change stepCall (.frame op arg) s = _
  rw [stepCall, hdecode]
  exact runOp_raised (run_raise s _ _)

/-- R74 lists 28 of the 256 bytes. -/
theorem unlisted_opcodes_length :
    (((List.range 256).map (BitVec.ofNat 8)).filter fun op => !opcodeVocabulary.contains op).length = 228 := by
  decide +kernel

/-- Settles O34: the `command` row, and the step that fetches the frame. -/
theorem unlistedOpcodesRaiseAndSendNothing : Obligations.UnlistedOpcodesRaiseAndSendNothing := by
  refine ⟨opcodeVocabulary, rfl, unlisted_opcodes_length, fun s op hop =>
    ⟨fun payload => ?command, fun operands => ?frame, rfl⟩⟩
  case command => exact exec_command_of_not_mem hop payload s
  case frame => exact step_frame_of_not_mem hop

end Sys2Proof.Machine

/-!
Shifts and their checks (R75, R77, R79, R108, R109, R112, R113, R210, R303): the rows that shift an instruction, the
checks that come before or between the ticks, and the rows that scan a command frame.
-/
namespace Sys2Proof.Machine

variable {s : State}

/-! ### The rows that shift an instruction -/

/-- The rows whose meaning is the shift of a 6-bit value: `shiftInstruction`, and the eight IR rows (R75, log 7). -/
def instructionRows (p : Params) (x : BitSeq) : List (Instr × BitSeq) :=
  [(.shiftInstruction x, x), (.irUser1, user1), (.irUser2, irBits p.instrUser2), (.irIdcode, irBits p.instrIdcode),
    (.irUsercode, irBits p.instrUsercode), (.irCfgIn, irBits p.instrCfgIn), (.irJprogram, irBits p.instrJprogram),
    (.irJstart, irBits p.instrJstart), (.irBypass, irBits p.instrBypass)]

theorem exec_instructionRow {x instr : BitSeq} {i : Instr} (h : (i, instr) ∈ instructionRows s.params x) :
    exec i s = runUnit (shiftInstruction instr) s := by
  simp only [instructionRows, List.mem_cons, List.not_mem_nil, or_false, Prod.mk.injEq] at h
  obtain ⟨rfl, rfl⟩ | ⟨rfl, rfl⟩ | ⟨rfl, rfl⟩ | ⟨rfl, rfl⟩ | ⟨rfl, rfl⟩ | ⟨rfl, rfl⟩ | ⟨rfl, rfl⟩ | ⟨rfl, rfl⟩
    | ⟨rfl, rfl⟩ := h
  all_goals rfl

/-- The TDI bits of a shifted operand are its bits, in order (R107). -/
theorem operandTicks_tdi (bits : BitSeq) : (operandTicks bits).map Prod.snd = bits := by
  simp [operandTicks, Function.comp_def]

/-- Settles O9: every row is `shiftInstruction`, whose ticks `shiftInstruction_ok` gives. -/
theorem instructionShiftsAreSixTicks : Obligations.InstructionShiftsAreSixTicks := by
  intro s x i instr hrow ht hlen hok
  have hne : instr ≠ [] := operand_ne_nil hlen
  refine ⟨_, rfl, ?tms, operandTicks_tdi instr, ?tap, ?exec⟩
  case tms =>
    rw [operandTicks_tms hne, hlen]
    rfl
  case tap => rw [ticked_tap, ht, walkTracked_known, walk_operand_shiftIr hne]
  case exec => exact (exec_instructionRow (x := x) hrow).trans (runOp_ok (shiftInstruction_ok ht hlen hok))

/-! ### Checks between the ticks -/

theorem goto_shiftDr (ht : s.tap = .known .runTestIdle) (h : s.AnswersOk 6) :
    goto [true, false, false] s = .ok () (s.ticked (pathTicks [true, false, false]) (s.lastIR, s.pendingIR)) := by
  rw [goto_ok h, ht]
  rfl

/-- The way to Shift-IR passes Capture-IR, so the scan begins clean (R104). -/
theorem goto_shiftIr (ht : s.tap = .known .runTestIdle) (h : s.AnswersOk 8) :
    goto [true, true, false, false] s =
      .ok () (s.ticked (pathTicks [true, true, false, false]) (s.lastIR, .clean)) := by
  rw [goto_ok h, ht]
  rfl

theorem scanDR_empty_raises {receive : Bool} (ht : s.tap = .known .runTestIdle) (h : s.AnswersOk 6) :
    scanDR [] receive s = .error .raised
      ((s.ticked (pathTicks [true, false, false]) (s.lastIR, s.pendingIR)).enterError .invalidOperand
        (.operand 0)) := by
  have hshift : (s.ticked (pathTicks [true, false, false]) (s.lastIR, s.pendingIR)).tap = .known .shiftDr := by
    rw [ticked_tap, ht]
    rfl
  rw [scanDR, run_bind_ok (assertState_ok ht), run_bind_ok (goto_shiftDr ht h), run_bind_ok (assertState_ok hshift),
    run_bind_error (shiftData_empty_raises hshift)]

theorem loadInstructionThenData_length_raises {instr data : BitSeq} {receive : Bool}
    (ht : s.tap = .known .runTestIdle) (hlen : instr.length ≠ 6) (h : s.AnswersOk 8) :
    loadInstructionThenData instr data receive s = .error .raised
      ((s.ticked (pathTicks [true, true, false, false]) (s.lastIR, .clean)).enterError .invalidOperand
        (.operand instr.length)) := by
  have hshift : (s.ticked (pathTicks [true, true, false, false]) (s.lastIR, .clean)).tap = .known .shiftIr := by
    rw [ticked_tap, ht]
    rfl
  rw [loadInstructionThenData, run_bind_ok (assertState_ok ht), run_bind_ok (goto_shiftIr ht h),
    run_bind_ok (assertState_ok hshift), run_bind_error (shiftInstruction_length_raises hshift hlen)]

/-! ### The rows that scan a command frame -/

/-- The rows whose frame is the sub-instruction alone (R77). -/
def bareRows (p : Params) : List (Instr × SubCode) :=
  [(.subCapabilities, p.subCapabilities), (.subFlashSize, p.subFlashSize), (.subFlashErase, p.subFlashErase)]

theorem exec_bareRow {i : Instr} {sub : SubCode} (h : (i, sub) ∈ bareRows s.params) :
    exec i s = runUnit (cmdScan (subBits sub)) s := by
  simp only [bareRows, List.mem_cons, List.not_mem_nil, or_false, Prod.mk.injEq] at h
  obtain ⟨rfl, rfl⟩ | ⟨rfl, rfl⟩ | ⟨rfl, rfl⟩ := h
  all_goals rfl

/-- The rows whose frame also has a word address and a word count (R77). -/
def addressedRows (p : Params) (address count : Nat) : List (Instr × SubCode) :=
  [(.subFlashPgm address count, p.subFlashPgm), (.subFlashRead address count, p.subFlashRead)]

theorem exec_addressedRow {i : Instr} {sub : SubCode} {address count : Nat}
    (h : (i, sub) ∈ addressedRows s.params address count) :
    exec i s = runUnit (addressedFrame sub s.geometry address count >>= cmdScan) s := by
  simp only [addressedRows, List.mem_cons, List.not_mem_nil, or_false, Prod.mk.injEq] at h
  obtain ⟨rfl, rfl⟩ | ⟨rfl, rfl⟩ := h
  all_goals rfl

section addressedFrame
variable {sub : SubCode} {g : Geometry} {address count : Nat}

theorem addressedFrame_address_raises (ha : 2 ^ addrWidth g ≤ address) :
    addressedFrame sub g address count s =
      .error .raised (s.enterError .invalidOperand (.operands (addrWidth g) address)) := by
  rw [addressedFrame, run_bind_error (makeBits_raises (Nat.not_lt.mpr ha))]

theorem addressedFrame_count_raises (ha : address < 2 ^ addrWidth g) (hn : 2 ^ addrWidth g ≤ count) :
    addressedFrame sub g address count s =
      .error .raised (s.enterError .invalidOperand (.operands (addrWidth g) count)) := by
  rw [addressedFrame, run_bind_ok (makeBits_ok ha), run_bind_error (makeBits_raises (Nat.not_lt.mpr hn))]

end addressedFrame

theorem exec_addressedRow_of_frame {i : Instr} {sub : SubCode} {address count : Nat}
    (h : (i, sub) ∈ addressedRows s.params address count) (ha : address < 2 ^ addrWidth s.geometry)
    (hn : count < 2 ^ addrWidth s.geometry) :
    exec i s = runUnit (cmdScan (wordFrame sub s.geometry address count)) s := by
  rw [exec_addressedRow h, runUnit, runUnit, runOp, runOp, run_bind_ok (addressedFrame_ok ha hn)]

/-- A frame's scan, as the row that does nothing else. -/
theorem run_cmdScan {frame : BitSeq} (ht : s.tap = .known .runTestIdle) (hne : frame ≠ [])
    (h : s.AnswersOk (2 * (16 + frame.length))) :
    runUnit (cmdScan frame) s = .next ((s.loaded user1 frame).completed .none) :=
  runOp_ok (cmdScan_ok ht (by rwa [loadTicks_frame_length hne]))

theorem run_cmdScan_raises {frame : BitSeq} (ht : s.tap ≠ .known .runTestIdle) :
    runUnit (cmdScan frame) s = .next (s.failedWith .protocolDesyncError (.tapMismatch .runTestIdle s.tap)) :=
  runOp_raised (cmdScan_raises ht)

/-- Settles O16: the bare rows, and the addressed rows with their two field checks. -/
theorem subInstructionsAreCommandScans : Obligations.SubInstructionsAreCommandScans := by
  refine fun s ht => ⟨fun i sub hrow hok => ?bare, fun address count i sub hrow =>
    ⟨fun ha hn hok => ?addressed, fun ha => ?addressTooLarge, fun ha hn => ?countTooLarge⟩⟩
  case bare =>
    exact (exec_bareRow hrow).trans (run_cmdScan ht (subBits_ne_nil sub) (by rwa [subBits_length]))
  case addressed =>
    have hne := wordFrame_ne_nil sub s.geometry address count
    refine (exec_addressedRow_of_frame hrow ha hn).trans (run_cmdScan ht hne ?_)
    rwa [wordFrame_length, ← Nat.add_assoc]
  case addressTooLarge =>
    exact (exec_addressedRow hrow).trans (runOp_raised (run_bind_error (addressedFrame_address_raises ha)))
  case countTooLarge =>
    exact (exec_addressedRow hrow).trans (runOp_raised (run_bind_error (addressedFrame_count_raises ha hn)))

/-! ### The TAP state is checked first -/

/-- Settles O11: the TAP check of each row, then the checks on its operand. -/
theorem tapPreconditionsAreCheckedBeforeAnyTick : Obligations.TapPreconditionsAreCheckedBeforeAnyTick := by
  refine ⟨?tap, ?addressed, ?gotoState, ?instructionLength, ?noData, ?noScanData, ?loadLength⟩
  case tap =>
    intro s x data receive i e hrow ht
    simp only [List.mem_cons, List.not_mem_nil, or_false, Prod.mk.injEq] at hrow
    obtain ⟨rfl, rfl⟩ | ⟨rfl, rfl⟩ | ⟨rfl, rfl⟩ | ⟨rfl, rfl⟩ | ⟨rfl, rfl⟩ | ⟨rfl, rfl⟩ | ⟨rfl, rfl⟩ | ⟨rfl, rfl⟩
      | ⟨rfl, rfl⟩ | ⟨rfl, rfl⟩ | ⟨rfl, rfl⟩ | ⟨rfl, rfl⟩ | ⟨rfl, rfl⟩ | ⟨rfl, rfl⟩ | ⟨rfl, rfl⟩ := hrow
    iterate 9 exact runOp_raised (shiftInstruction_tap_raises ht)
    · exact runOp_raised (shiftData_tap_raises ht)
    · exact runOp_raised (loadInstructionThenData_raises ht)
    · exact runOp_raised (scanDR_raises ht)
    iterate 3 exact run_cmdScan_raises ht
  case addressed =>
    rintro s g address count i hg hi ha hn ht
    rw [← geometry_eq hg] at ha hn
    obtain ⟨sub, hrow⟩ : ∃ sub, (i, sub) ∈ addressedRows s.params address count := by
      obtain rfl | rfl := hi <;> simp [addressedRows]
    exact (exec_addressedRow_of_frame hrow ha hn).trans (run_cmdScan_raises ht)
  case gotoState => exact fun s target ht => runOp_raised (gotoState_raises ht)
  case instructionLength => exact fun s x ht hlen => runOp_raised (shiftInstruction_length_raises ht hlen)
  case noData => exact fun s receive ht => runOp_raised (shiftData_empty_raises ht)
  case noScanData => exact fun s receive ht hok => runOp_raised (scanDR_empty_raises ht hok)
  case loadLength =>
    exact fun s x data receive ht hlen hok => runOp_raised (loadInstructionThenData_length_raises ht hlen hok)

end Sys2Proof.Machine

/-!
The bulk frames (R71, R173, R176, R177, R181): their ticks, and their rows through the laws of the framer.
-/
namespace Sys2Proof.Machine

variable {s : State}

/-- Only the last bit of a bulk frame carries the mark (R176). -/
theorem bulkTicks_tms {bits : BitSeq} (h : bits ≠ []) (marked : Bool) :
    (bulkTicks bits marked).map Prod.fst = List.replicate (bits.length - 1) false ++ [marked] := by
  match bits, h with
  | [_], _ => rfl
  | b :: c :: more, _ =>
    rw [bulkTicks, List.map_cons, bulkTicks_tms (List.cons_ne_nil c more)]
    rfl

theorem bulkTicks_tdi (bits : BitSeq) (marked : Bool) : (bulkTicks bits marked).map Prod.snd = bits := by
  match bits with
  | [] => rfl
  | [_] => rfl
  | b :: c :: more => rw [bulkTicks, List.map_cons, bulkTicks_tdi (c :: more)]

theorem tdi_empty_raises (marked : Bool) :
    tdi [] marked s = .error .raised (s.enterError .invalidOperand (.operand 0)) := rfl

theorem tdiTdo_empty_raises (marked : Bool) :
    tdiTdo [] marked s = .error .raised (s.enterError .invalidOperand (.operand 0)) := rfl

theorem tapSeq_empty : tapSeq [] s = .ok () s := rfl

/-- Settles O32: each row by the law of its frame, the response of `TDI_TDO` as long as its bits or short of them. -/
theorem bulkFramesTickOncePerBit : Obligations.BulkFramesTickOncePerBit := by
  refine ⟨fun s bits marked hne hlen hok => ⟨?tdi, fun resp hresp => ⟨fun hfull => ?tdiTdo, fun hshort => ?short⟩⟩,
    fun s seq hne hok => ?tapSeq, fun s => ?tapSeqEmpty, fun s marked => ⟨?tdiEmpty, ?tdiTdoEmpty⟩,
    fun bits marked hne => ⟨bulkTicks_tms hne marked, bulkTicks_tdi bits marked⟩⟩
  case tdi => exact runOp_ok (tdi_ok hne hlen hok)
  case tdiTdo =>
    subst hresp
    exact runOp_ok (tdiTdo_ok hne hlen hok hfull)
  case short => exact runOp_raised (tdiTdo_short hne hlen hok hresp hshort rfl)
  case tapSeq => exact runOp_ok (tapSeq_ok hne hok)
  case tapSeqEmpty => exact runOp_ok tapSeq_empty
  case tdiEmpty => exact runOp_raised (tdi_empty_raises marked)
  case tdiTdoEmpty => exact runOp_raised (tdiTdo_empty_raises marked)

end Sys2Proof.Machine

/-!
The TAP graph (R100, R106, R115): the transition table, the distances to Test-Logic-Reset, and why a table path is the
only shortest one.
-/
namespace Sys2Proof.Machine

/-! ### Shortest paths -/

theorem path_self (a : TapState) : path a a = [] := by
  cases a <;> decide

/-- The table of R106 is closed under one tick: the path from `a` starts with `x` and goes on with the table path from
there, or it is shorter than that detour. -/
theorem path_eq_cons_or_length_lt (a b : TapState) (x : Bool) :
    path a b = x :: path (next a x) b ∨ (path a b).length < (path (next a x) b).length + 1 := by
  revert x
  cases a <;> cases b <;> decide

/-- One tick shortens the way by at most one, so by induction no sequence is as short as the table path but itself. -/
theorem eq_path_or_length_lt {a b : TapState} {seq : BitSeq} (h : walk a seq = b) :
    seq = path a b ∨ (path a b).length < seq.length := by
  induction seq generalizing a with
  | nil =>
    cases h
    exact .inl (path_self a).symm
  | cons x xs ih =>
    have hrest : xs = path (next a x) b ∨ (path (next a x) b).length < xs.length := ih h
    obtain hpath | hshort := path_eq_cons_or_length_lt a b x
    · rw [hpath]
      exact hrest.imp (congrArg (x :: ·)) Nat.succ_lt_succ
    · obtain rfl | hlt := hrest
      · exact .inr hshort
      · exact .inr (by rw [List.length_cons]; omega)

/-- Settles O4: `walk_path`, the induction above, and the row that returns the table path. -/
theorem pathIsTheUniqueShortestSequence : Obligations.PathIsTheUniqueShortestSequence :=
  fun a b => ⟨walk_path a b, fun _ => eq_path_or_length_lt, fun s => runOp_ok (run_pure s _)⟩

/-! ### The table and the distances -/

/-- Settles O2: the 32 entries by evaluation, `Unknown` by definition. -/
theorem transitionFunctionIsTheTable : Obligations.TransitionFunctionIsTheTable :=
  ⟨by decide, fun _ _ => rfl, fun _ => rfl⟩

/-- Settles O3: the sixteen distances by evaluation, and `walk_five_ones`. -/
theorem fiveOnesReachTestLogicReset : Obligations.FiveOnesReachTestLogicReset :=
  ⟨by decide, rfl, walk_five_ones⟩

end Sys2Proof.Machine

/-!
Ticks, moves and checks (R101, R104, R105, R106, R111, R211, R305): a tick that reaches the board or fails, the tracking
of the instruction branch by branch, and the two consistency checks.
-/
namespace Sys2Proof.Machine

variable {s : State}

/-! ### One tick -/

/-- A run of one tick is the tick at the port, two answers and one TDO draw later. -/
theorem ticked_single (b tms tdi : Bool) :
    s.ticked [(tms, tdi)] (trackIR b s.tap [tms] (s.lastIR, s.pendingIR)) =
      { s.portTick b tms tdi (s.tdoAt s.drawn.tdo) with
        drawn := { s.drawn with answers := s.drawn.answers + 2, tdo := s.drawn.tdo + 1 } } :=
  rfl

theorem tickIn_write_fails {b tms tdi : Bool} {k : FailKind} (h : s.answerAt s.drawn.answers = .fail k) :
    tickIn b tms tdi s = raiseTransport false (writeKind k) (s.drewAnswers 1) := by
  rw [tickIn, run_bind_error (e := .raised) (usbWrite_fail h)]
  rfl

theorem tickIn_read_fails {b tms tdi : Bool} {k : FailKind} (h0 : answered (s.answerAt s.drawn.answers) = true)
    (h1 : s.answerAt (s.drawn.answers + 1) = .fail k) :
    tickIn b tms tdi s = raiseTransport false (readKind k) (s.drewAnswers 2) := by
  have hread : (s.drewAnswers 1).answerAt (s.drewAnswers 1).drawn.answers = .fail k := h1
  rw [tickIn, run_bind_ok (usbWrite_ok h0), run_get_bind, run_bind_error (e := .raised) (usbRead_fail hread)]
  rfl

/-- How an instruction settles whose `n`-th transport call failed, with nothing else done before it (R305). -/
theorem runOp_transportFailed {α : Type} {value : α → Value} {op : Op α} {n : Nat} {k : FailKind}
    (h : op s = raiseTransport false k (s.drewAnswers n)) : runOp value op s = .next (s.transportFailed n k) := by
  rw [runOp, h]
  rfl

/-- Settles O5: `tickIn_ok`, and the two transport calls that may fail. -/
theorem tickAdvancesBothStatesOrFails : Obligations.TickAdvancesBothStatesOrFails := by
  refine fun s tms tdi => ⟨fun hok => ?carried, fun k hwrite => ?writeFails, fun k hwrite hread => ?readFails⟩
  case carried =>
    refine (runOp_ok (tickIn_ok hok)).trans ?_
    rw [ticked_single]
    rfl
  case writeFails => exact runOp_transportFailed (tickIn_write_fails hwrite)
  case readFails => exact runOp_transportFailed (tickIn_read_fails hwrite hread)

/-! ### The tracked instruction -/

section updateIR
variable {b : Bool} {pre post : Tracked} {ir : IrCopy} {pending : PendingIr}

theorem updateIR_of_forgotten (h : post = .known .testLogicReset ∨ post = .unknown) :
    updateIR b pre post ir pending = (.unknown, .unknown) :=
  if_pos h

theorem updateIR_of_captureIr (h : post = .known .captureIr) : updateIR b pre post ir pending = (ir, .clean) := by
  subst h
  rfl

theorem updateIR_of_rawShift (hreset : post ≠ .known .testLogicReset) (hunknown : post ≠ .unknown)
    (hcapture : post ≠ .known .captureIr) (hpre : pre = .known .shiftIr) (hb : b = false) :
    updateIR b pre post ir pending = (ir, .unknown) := by
  unfold updateIR
  rw [if_neg (not_or.mpr ⟨hreset, hunknown⟩), if_neg hcapture, if_pos ⟨hpre, hb⟩]

/-- A tick that is no raw shift. -/
theorem not_rawShift (h : pre ≠ .known .shiftIr ∨ b = true) : ¬ (pre = .known .shiftIr ∧ b = false) := by
  rintro ⟨hpre, rfl⟩
  exact h.elim (fun hn => hn hpre) nofun

theorem updateIR_of_updateIr_instr {x : BitSeq} (h : post = .known .updateIr)
    (hraw : pre ≠ .known .shiftIr ∨ b = true) (hx : pending = .instr x) :
    updateIR b pre post ir pending = (.instr x, pending) := by
  subst h hx
  unfold updateIR
  rw [if_neg (by decide), if_neg (by decide), if_neg (not_rawShift hraw), if_pos rfl]

theorem updateIR_of_updateIr_lost (h : post = .known .updateIr) (hraw : pre ≠ .known .shiftIr ∨ b = true)
    (hx : ∀ x, pending ≠ .instr x) : updateIR b pre post ir pending = (.unknown, pending) := by
  subst h
  unfold updateIR
  rw [if_neg (by decide), if_neg (by decide), if_neg (not_rawShift hraw), if_pos rfl]
  cases pending with
  | instr x => exact absurd rfl (hx x)
  | clean => rfl
  | unknown => rfl

theorem updateIR_of_elsewhere (hreset : post ≠ .known .testLogicReset) (hunknown : post ≠ .unknown)
    (hcapture : post ≠ .known .captureIr) (hupdate : post ≠ .known .updateIr)
    (hraw : pre ≠ .known .shiftIr ∨ b = true) : updateIR b pre post ir pending = (ir, pending) := by
  unfold updateIR
  rw [if_neg (not_or.mpr ⟨hreset, hunknown⟩), if_neg hcapture, if_neg (not_rawShift hraw), if_neg hupdate]

end updateIR

/-- A raw tick out of Shift-IR loses the pending instruction, and Update-IR then the tracked one (R104). -/
theorem trackIR_rawShift (ir : IrCopy × PendingIr) :
    trackIR false (.known .shiftIr) [true, true, false] ir = (.unknown, .unknown) :=
  rfl

/-- Settles O6: the branches of `updateIR`, and the run of three ticks from Shift-IR. -/
theorem rawShiftsForgetTheInstruction : Obligations.RawShiftsForgetTheInstruction := by
  refine ⟨fun b pre post ir pending => ⟨updateIR_of_forgotten, updateIR_of_captureIr, updateIR_of_rawShift,
    fun hpost hraw => ⟨fun x => updateIR_of_updateIr_instr hpost hraw, updateIR_of_updateIr_lost hpost hraw⟩,
    updateIR_of_elsewhere⟩, fun s ht hok => ⟨_, runOp_ok (goto_ok hok), ?tap, ?instruction⟩⟩
  case tap =>
    rw [completed_tap, ticked_tap, ht]
    rfl
  case instruction => rw [completed_lastIR, ticked_lastIR, ht, trackIR_rawShift]

/-! ### Moves -/

/-- Settles O7: `goto_ok`, and `gotoState_ok` with the end that `walk_path` gives. -/
theorem movesAreTheirTicks : Obligations.MovesAreTheirTicks := by
  refine ⟨fun s seq hok => runOp_ok (goto_ok hok), fun s t target ht hok => ⟨_, rfl, ?tap, ?exec⟩⟩
  case tap => rw [ticked_tap, ht, walkTracked_known, pathTicks_tms, walk_path]
  case exec => exact runOp_ok (gotoState_ok ht hok)

/-! ### Consistency checks -/

theorem checkUser1_raises (hs : s.session = .identified) (h : s.lastIR ≠ .instr user1) :
    checkUser1 s = .error .raised (s.enterError .protocolDesyncError (.irMismatch user1 s.lastIR)) := by
  rw [checkUser1, run_bind_ok (requireIdentified_ok hs), user1Loaded_raises h]

/-- Settles O8: each check passes or raises, and what a ProtocolDesyncError leaves is its entry written out. -/
theorem consistencyChecksPassOrRaise : Obligations.ConsistencyChecksPassOrRaise :=
  ⟨fun _ _ => ⟨fun ht => runOp_ok (assertState_ok ht), fun ht => runOp_raised (assertState_raises ht)⟩,
    fun _ hs => ⟨fun hir => runOp_ok (checkUser1_ok hs hir), fun hir => runOp_raised (checkUser1_raises hs hir)⟩,
    fun _ _ => rfl⟩

end Sys2Proof.Machine

/-!
Data shifts, the TAP reset and the composite scans (R107, R109, R110, R112, R113): each row through the law of its
operation under Sys2Proof/Laws/Scans.lean.
-/
namespace Sys2Proof.Machine

variable {s : State}

/-- Settles O10: `shiftData_ok`, and the two columns of its ticks. -/
theorem dataShiftsReturnTheirTdoBits : Obligations.DataShiftsReturnTheirTdoBits := by
  refine fun s bits receive ht hne hok =>
    ⟨_, rfl, operandTicks_tms hne, operandTicks_tdi bits, ?tap, runOp_ok (shiftData_ok ht hne hok)⟩
  rw [ticked_tap, ht, walkTracked_known, walk_operand_shiftDr hne]

/-- Wherever the device is, the six ticks of `reset()` take it to Run-Test/Idle (R110, R115). -/
theorem walk_reset (t : TapState) : walk t [true, true, true, true, true, false] = .runTestIdle := by
  calc walk t [true, true, true, true, true, false]
      = walk (walk t (List.replicate 5 true)) [false] := walk_append t (List.replicate 5 true) [false]
    _ = walk .testLogicReset [false] := by rw [walk_five_ones]
    _ = .runTestIdle := rfl

/-- Settles O12: `tapReset_ok`, whose device state is Run-Test/Idle whatever it was. -/
theorem tapResetResynchronisesEveryState : Obligations.TapResetResynchronisesEveryState := by
  intro s hok
  refine (runOp_ok (tapReset_ok hok)).trans ?_
  rw [State.tapResetDone, State.ticked, pathTicks_tms, walk_reset]
  rfl

theorem dwellTicks_length (data : BitSeq) : (dwellTicks data).length = max data.length 1 := by
  by_cases hd : data = []
  · subst hd
    rfl
  · have hpos : 1 ≤ data.length := List.length_pos_iff.mpr hd
    rw [dwellTicks_of_ne hd, operandTicks_length, Nat.max_eq_left hpos]

/-- Settles O13: `loadInstructionThenData_ok`, its tick count, and `loaded_tap`. -/
theorem loadInstructionThenDataIsItsTicks : Obligations.LoadInstructionThenDataIsItsTicks := by
  intro s instr data receive ht hlen hok
  have hticks : (loadTicks instr data).length = 4 + 6 + 4 + max data.length 1 + 2 := by
    rw [loadTicks_length _ _ hlen, dwellTicks_length]
    omega
  exact ⟨hticks, loaded_tap ht hlen, runOp_ok (loadInstructionThenData_ok ht hlen (by rwa [hticks]))⟩

/-- Settles O14: `scanDR_ok`, its tick count, and `scanned_tap`. -/
theorem scanDRKeepsTheInstruction : Obligations.ScanDRKeepsTheInstruction := by
  intro s data receive ht hne hok
  have hticks : data.length + 5 = 3 + data.length + 2 := by omega
  exact ⟨(scanTicks_length data).trans hticks, scanned_tap ht hne, runOp_ok (scanDR_ok ht hne (by rwa [hticks]))⟩

end Sys2Proof.Machine

/-!
The codec rows (R140 to R152). Two byte sequences, or two bit sequences, are the same when they are bit by bit, so each law
goes through the bits that Sys2Proof/Laws/Codec.lean gives for the packed and the unpacked form.
-/
namespace Sys2Proof.Machine

variable (s : State)

/-! ### The rows -/

theorem exec_makeBits {count value : Nat} (h : value < 2 ^ count) :
    exec (.makeBits count value) s = .next (s.completed (.bits (bitsOf count value))) :=
  runOp_ok (makeBits_ok h)

theorem exec_toInt (seq : BitSeq) : exec (.toInt seq) s = .next (s.completed (.nat (toInt seq))) :=
  runOp_ok (run_pure s _)

theorem exec_toBytes (seq : BitSeq) : exec (.toBytes seq) s = .next (s.completed (.bytes (toBytes seq))) :=
  runOp_ok (run_pure s _)

theorem exec_reverse (b : Byte) : exec (.reverse b) s = .next (s.completed (.byte (reverse b))) :=
  runOp_ok (run_pure s _)

theorem exec_payloadBits (bytes : Bytes) :
    exec (.payloadBits bytes) s = .next (s.completed (.bits (payloadBits bytes))) :=
  runOp_ok (run_pure s _)

theorem exec_fromBytes {bytes : Bytes} {count : Nat} (h : count ≤ 8 * bytes.length) :
    exec (.fromBytes bytes count) s = .next (s.completed (.bits (bitsOfBytes bytes count))) := by
  refine runOp_ok (t := s) ?_
  rw [fromBytes, if_pos h, run_pure]

theorem exec_fromBytes_raises {bytes : Bytes} {count : Nat} (h : 8 * bytes.length < count) :
    exec (.fromBytes bytes count) s = .next (s.failedWith .invalidOperand (.operands count bytes.length)) := by
  refine runOp_raised (t := s) ?_
  rw [fromBytes, if_neg (not_le.mpr h), run_raise]

theorem exec_payloadBytes {bits : BitSeq} (h : bits.length % 8 = 0) :
    exec (.payloadBytes bits) s = .next (s.completed (.bytes (payloadBytesOf bits))) := by
  refine runOp_ok (t := s) ?_
  rw [payloadBytes, if_pos h, run_pure]

theorem exec_payloadBytes_raises {bits : BitSeq} (h : bits.length % 8 ≠ 0) :
    exec (.payloadBytes bits) s = .next (s.failedWith .invalidOperand (.operand bits.length)) := by
  refine runOp_raised (t := s) ?_
  rw [payloadBytes, if_neg h, run_raise]

/-! ### Integers -/

/-- Settles O17: the two branches of `makeBits`. -/
theorem makeBitsIsLeastSignificantFirst : Obligations.MakeBitsIsLeastSignificantFirst :=
  fun s count value => ⟨fun h => ⟨_, exec_makeBits s h, bitsOf_length count value, fun _ hi => bitsOf_getElem? hi⟩,
    fun h => runOp_raised (makeBits_raises (not_lt.mpr h))⟩

/-- `toInt` is the sum of its bits' weights (R142). -/
theorem toInt_eq_sum (seq : BitSeq) : toInt seq = ∑ i : Fin seq.length, (seq.get i).toNat * 2 ^ i.val := by
  induction seq with
  | nil => rfl
  | cons b seq ih =>
    have hshift : ∀ i : Fin seq.length, (seq.get i).toNat * 2 ^ (i.val + 1) = 2 * ((seq.get i).toNat * 2 ^ i.val) :=
      fun i => by rw [pow_succ]; ring
    calc toInt (b :: seq)
        = b.toNat + 2 * ∑ i : Fin seq.length, (seq.get i).toNat * 2 ^ i.val := by rw [toInt_cons, ih]
      _ = b.toNat * 2 ^ 0 + ∑ i : Fin seq.length, (seq.get i).toNat * 2 ^ (i.val + 1) := by
          rw [Finset.mul_sum, Finset.sum_congr rfl fun i _ => hshift i, pow_zero, mul_one]
      _ = ∑ i : Fin (b :: seq).length, ((b :: seq).get i).toNat * 2 ^ i.val :=
          (Fin.sum_univ_succ fun i : Fin (seq.length + 1) => ((b :: seq).get i).toNat * 2 ^ i.val).symm

/-- A value that fits its bits is read back from them (R142). -/
theorem toInt_bitsOf {count value : Nat} (h : value < 2 ^ count) : toInt (bitsOf count value) = value := by
  refine Nat.eq_of_testBit_eq fun i => ?_
  rw [toInt_testBit, bitsOf_getD]
  by_cases hi : i < count
  · simp [hi]
  · have hlt : value < 2 ^ i := h.trans_le (Nat.pow_le_pow_right (by decide) (not_lt.mp hi))
    simp [hi, Nat.testBit_lt_two_pow hlt]

/-- Settles O18: `toInt_eq_sum`, and the round trip of `toInt_bitsOf`. -/
theorem toIntIsTheInverseOfMakeBits : Obligations.ToIntIsTheInverseOfMakeBits := by
  refine fun s => ⟨fun a b => runOp_ok (run_pure s _), fun seq => ?sum, fun n v h => ⟨_, exec_makeBits s h, ?inverse⟩⟩
  case sum => rw [exec_toInt, toInt_eq_sum]
  case inverse => rw [exec_toInt, toInt_bitsOf h]

/-! ### Bytes -/

theorem toBytes_getD {seq : BitSeq} {j : Nat} (h : j < (seq.length + 7) / 8) :
    (toBytes seq).getD j 0 = packedByte seq j := by
  rw [List.getD_eq_getElem?_getD, toBytes_getElem? h, Option.getD_some]

/-- Byte `j` of the packed form holds bits `8j` to `8j + 7` (R143). -/
theorem toBytes_bit {seq : BitSeq} {j k : Nat} (hj : j < (seq.length + 7) / 8) (hk : k < 8) :
    ((toBytes seq).getD j 0).getLsbD k = seq.getD (8 * j + k) false := by
  rw [toBytes_getD hj, packedByte_bit, decide_eq_true hk, Bool.true_and]

/-- Two byte sequences of one length are the same when their bits are. -/
theorem bytes_ext {a b : Bytes} (hlen : a.length = b.length)
    (h : ∀ j < a.length, ∀ k < 8, (a.getD j 0).getLsbD k = (b.getD j 0).getLsbD k) : a = b := by
  refine List.ext_getElem hlen fun j ha hb => BitVec.eq_of_getLsbD_eq fun k hk => ?_
  have hjk := h j ha k hk
  rwa [List.getD_eq_getElem a 0 ha, List.getD_eq_getElem b 0 hb] at hjk

/-- Whole bytes that are unpacked are packed again (R145). -/
theorem toBytes_bitsOfBytes_self (bytes : Bytes) : toBytes (bitsOfBytes bytes (8 * bytes.length)) = bytes := by
  have hlen : (toBytes (bitsOfBytes bytes (8 * bytes.length))).length = bytes.length := by
    rw [toBytes_length, bitsOfBytes_length]
    omega
  refine bytes_ext hlen fun j hj k hk => ?_
  rw [toBytes_bit (by rwa [toBytes_length] at hj) hk, List.getD_eq_getElem?_getD, bitsOfBytes_getElem? (by omega),
    Option.getD_some, show (8 * j + k) / 8 = j by omega, show (8 * j + k) % 8 = k by omega]

/-- Bits that are packed are unpacked again, up to their own number (R145). -/
theorem bitsOfBytes_toBytes (seq : BitSeq) : bitsOfBytes (toBytes seq) seq.length = seq := by
  refine List.ext_getElem? fun i => ?_
  by_cases hi : i < seq.length
  · rw [bitsOfBytes_getElem? hi, toBytes_bit (by omega) (by omega), Nat.div_add_mod, List.getD_eq_getElem seq false hi,
      List.getElem?_eq_getElem hi]
  · rw [List.getElem?_eq_none (by rw [bitsOfBytes_length]; omega), List.getElem?_eq_none (by omega)]

/-- Settles O19: `toBytes_bit`. -/
theorem packingPutsBitsInOrder : Obligations.PackingPutsBitsInOrder :=
  fun s seq => ⟨_, exec_toBytes s seq, toBytes_length seq,
    fun _ hj _ hk => toBytes_bit (by rwa [toBytes_length] at hj) hk⟩

/-- Settles O20: the two branches of `fromBytes`. -/
theorem unpackingReadsBitsInOrder : Obligations.UnpackingReadsBitsInOrder :=
  fun s bytes count => ⟨fun h => ⟨_, exec_fromBytes s h, bitsOfBytes_length bytes count,
    fun _ hi => bitsOfBytes_getElem? hi⟩, exec_fromBytes_raises s⟩

/-- Settles O21: both round trips, and the padding as bits past the end of the sequence. -/
theorem packingRoundTrips : Obligations.PackingRoundTrips := by
  refine fun s => ⟨fun b => ⟨_, exec_fromBytes s le_rfl, ?packed⟩, fun q => ⟨_, exec_toBytes s q, ?unpacked⟩,
    fun q hq => ⟨_, exec_toBytes s q, fun k hk hk8 => ?padding⟩⟩
  case packed => rw [exec_toBytes, toBytes_bitsOfBytes_self]
  case unpacked =>
    have hfits : q.length ≤ 8 * (toBytes q).length := by
      rw [toBytes_length]
      omega
    rw [exec_fromBytes s hfits, bitsOfBytes_toBytes]
  case padding =>
    rw [toBytes_bit (by omega) hk8]
    exact List.getD_eq_default _ _ (by omega)

/-! ### Reversal -/

theorem reverse_getLsbD (b : Byte) {k : Nat} (hk : k < 8) : (reverse b).getLsbD k = b.getLsbD (7 - k) :=
  reverse_bit b ⟨k, hk⟩

theorem reverse_involutive : Function.Involutive reverse := by
  refine fun b => BitVec.eq_of_getLsbD_eq fun k hk => ?_
  rw [reverse_getLsbD _ hk, reverse_getLsbD b (by omega), show 7 - (7 - k) = k by omega]

/-- Settles O22: a mirror twice, and the two vectors evaluated. -/
theorem reversalIsItsOwnInverse : Obligations.ReversalIsItsOwnInverse := by
  refine ⟨fun s b => ⟨_, exec_reverse s b, fun k hk => reverse_getLsbD b hk, ?_⟩, by decide, by decide⟩
  rw [exec_reverse, reverse_involutive b]

/-! ### Payloads -/

/-- A payload that is serialised is assembled again (R150). -/
theorem payloadBytesOf_payloadBits (bytes : Bytes) : payloadBytesOf (payloadBits bytes) = bytes := by
  have hpack := toBytes_bitsOfBytes_self (bytes.map reverse)
  rw [List.length_map] at hpack
  rw [payloadBytesOf, payloadBits, hpack, List.map_map, reverse_involutive.comp_self, List.map_id]

/-- Settles O23: the bits of both directions, and `payloadBytesOf_payloadBits`. -/
theorem payloadsAreMostSignificantBitFirst : Obligations.PayloadsAreMostSignificantBitFirst := by
  refine fun s => ⟨fun bytes => ⟨_, exec_payloadBits s bytes, payloadBits_length bytes,
    fun j hj k hk => payloadBits_getElem? hj hk, ?roundTrip⟩,
    fun bits => ⟨fun h => ⟨_, exec_payloadBytes s h, ?length, fun j hj k hk => ?bits⟩, exec_payloadBytes_raises s⟩⟩
  case roundTrip =>
    have hwhole : (payloadBits bytes).length % 8 = 0 := by
      rw [payloadBits_length, Nat.mul_mod_right]
    rw [exec_payloadBytes s hwhole, payloadBytesOf_payloadBits]
  case length =>
    rw [payloadBytesOf_length]
    omega
  case bits => exact payloadBytesOf_bit (by rwa [payloadBytesOf_length] at hj) hk

/-! ### The length field -/

theorem byte_mod (n : Nat) : BitVec.ofNat 8 (n % 256) = BitVec.ofNat 8 n :=
  BitVec.eq_of_toNat_eq (by rw [BitVec.toNat_ofNat, BitVec.toNat_ofNat, Nat.mod_mod])

/-- Settles O24: the two branches of `le32`, a byte being its number modulo 256. -/
theorem lengthFieldIsLittleEndian : Obligations.LengthFieldIsLittleEndian := by
  refine fun s n => ⟨fun h => ?_, fun h => ?_⟩
  · rw [byte_mod, byte_mod, byte_mod, byte_mod]
    refine runOp_ok (t := s) ?_
    rw [le32, if_pos h, run_pure, le32Bytes]
  · refine runOp_raised (t := s) ?_
    rw [le32, if_neg (not_lt.mpr h), run_raise]

end Sys2Proof.Machine

/-!
The checks that a read and a write share (R213 to R215, R220, R221, R224): both make them first inside their `try`, and a
read then checks the two fields of its command frame (R140).
-/
namespace Sys2Proof.Machine

/-- The checks shared by `readFlash` and `writeFlash`, before anything is erased, programmed or read (R220, R221). -/
def flashChecks (bitpos address length : Nat) (start : Bool) : Op Geometry := do
  ensureCapability bitpos start
  let g ← readGeometry
  validateRange address length
  return g

/-- What a write does after its checks (R221). -/
def writeRest (data : Bytes) (address : Nat) (start : Bool) (g : Geometry) : Op Unit := do
  let plan := chunkPlan g address data
  if start then eraseFlash (.erased plan) else pure ()
  writeChunks 0 plan

/-- The command scan of a read of `n` bytes, its response scan, and the bytes it returns (R220). -/
def readScans (n : Nat) (frame : BitSeq) : Op Bytes := do
  cmdScan frame
  let r ← respScan (8 * n)
  payloadBytes r

/-- What a read of `n` bytes does after its checks: it assembles its frame, which checks the two fields (R140, R220). -/
def readRest (sub : SubCode) (address n : Nat) (g : Geometry) : Op Bytes :=
  addressedFrame sub g (address / stride g) (n / stride g) >>= readScans n

variable {s : State} {bitpos address length lo hi : Nat} {start : Bool} {data : Bytes}

/-! ### Where a read and a write make the checks -/

theorem writeBody_eq :
    writeBody data address start s =
      (flashChecks (capPosition s.params.capFlashWrite) address data.length start >>= writeRest data address start) s :=
  rfl

theorem readBody_eq :
    readBody lo hi start s =
      (flashChecks (capPosition s.params.capFlashRead) lo (hi - lo + 1) start
        >>= readRest s.params.subFlashRead lo (hi - lo + 1)) s := by
  simp only [readBody, flashChecks, run_get_bind, bind_assoc, pure_bind]
  rfl

theorem readFlash_reversed (hs : s.session = .identified) (h : hi < lo) :
    readFlash lo hi start s = .error .raised (s.enterError .invalidArgument (.range lo hi)) := by
  rw [readFlash, run_bind_ok (requireIdentified_ok hs), if_pos h, run_raise]

theorem readFlash_eq (hs : s.session = .identified) (ha : s.AnswersOk 2) (h : lo ≤ hi) :
    readFlash lo hi start s = releaseAfter (readBody lo hi start) (s.pinned true) := by
  rw [readFlash, run_bind_ok (requireIdentified_ok hs), if_neg (not_lt.mpr h), run_bind_ok (setFlashPin_ok hs ha)]

theorem writeFlash_eq (hs : s.session = .identified) (ha : s.AnswersOk 2) :
    writeFlash data address start s = releaseAfter (writeBody data address start) (s.pinned true) := by
  rw [writeFlash, run_bind_ok (requireIdentified_ok hs), run_bind_ok (setFlashPin_ok hs ha)]

/-- The row of `i` asserts the pin, makes the checks, goes on with `rest`, and releases the pin. -/
def State.ChecksThen (s : State) (i : Instr) (bitpos address length : Nat) (start : Bool) {α : Type}
    (value : α → Value) (rest : Geometry → Op α) : Prop :=
  exec i s = runOp value (releaseAfter (flashChecks bitpos address length start >>= rest)) (s.pinned true)

theorem readFlash_checksThen (hs : s.session = .identified) (ha : s.AnswersOk 2) (h : lo ≤ hi) :
    s.ChecksThen (.readFlash lo hi start) (capPosition s.params.capFlashRead) lo (hi - lo + 1) start .bytes
      (readRest s.params.subFlashRead lo (hi - lo + 1)) := by
  change runOp .bytes (readFlash lo hi start) s = _
  rw [runOp, runOp, readFlash_eq hs ha h, releaseAfter_congr readBody_eq]
  rfl

theorem writeFlash_checksThen (hs : s.session = .identified) (ha : s.AnswersOk 2) :
    s.ChecksThen (.writeFlash data address start) (capPosition s.params.capFlashWrite) address data.length start
      (fun _ => .none) (writeRest data address start) := by
  change runOp (fun _ => .none) (writeFlash data address start) s = _
  rw [runOp, runOp, writeFlash_eq hs ha, releaseAfter_congr writeBody_eq]
  rfl

/-! ### What the checks answer -/

section answers
variable {p t : State} {w : Word32} {g : Geometry}

theorem flashChecks_of_ensureCapability_raised (h : ensureCapability bitpos start s = .error .raised t) :
    flashChecks bitpos address length start s = .error .raised t := by
  rw [flashChecks, run_bind_error h]

/-- After the last probe: the geometry, then the length, then the address (R214, R215, R303). -/
theorem flashChecks_eq (hq : ensureCapability bitpos start s = .ok () p) (hs : p.session = .identified)
    (ht : p.tap = .known .runTestIdle) (hg : g = p.scannedGeometry)
    (ha : p.AnswersOk (2 * (16 + subWidth p.params.subFlashSize + 29))) :
    flashChecks bitpos address length start s =
      if validGeometry g = true then
        if length % stride g ≠ 0 then
          .error .raised (p.measured.enterError .alignmentError (.alignment length (stride g)))
        else if address % stride g ≠ 0 then
          .error .raised (p.measured.enterError .alignmentError (.alignment address (stride g)))
        else .ok g p.measured
      else .error .raised (p.geometryTicked.enterError .geometryInvalid
        (.geometry g.dataWidthBits.toNat g.addrWidthBits.toNat g.blockAddrWidthBits.toNat)) := by
  subst hg
  have hread := readGeometry_ok hs ht ha
  rw [flashChecks, run_bind_ok hq]
  by_cases hv : validGeometry p.scannedGeometry = true
  swap
  · rw [if_neg hv] at hread ⊢
    rw [run_bind_error hread]
  rw [if_pos hv] at hread ⊢
  rw [run_bind_ok hread]
  have hrange := validateRange_eq (s := p.measured) (address := address) (length := length) hs
  rw [show p.measured.geometry = p.scannedGeometry from rfl, belowStride_eq hv] at hrange
  by_cases hlen : length % stride p.scannedGeometry ≠ 0
  · rw [if_pos hlen] at hrange ⊢
    rw [run_bind_error hrange]
  rw [if_neg hlen] at hrange ⊢
  by_cases haddr : address % stride p.scannedGeometry ≠ 0
  · rw [if_pos haddr] at hrange ⊢
    rw [run_bind_error hrange]
  · rw [if_neg haddr] at hrange ⊢
    rw [run_bind_ok hrange, run_pure]

end answers

theorem addressedFrame_addressTooLarge {sub : SubCode} {g : Geometry} {a n : Nat} (ha : 2 ^ addrWidth g ≤ a) :
    addressedFrame sub g a n s = .error .raised (s.enterError .invalidOperand (.operands (addrWidth g) a)) := by
  rw [addressedFrame, run_bind_error (makeBits_raises (not_lt.mpr ha))]

theorem addressedFrame_countTooLarge {sub : SubCode} {g : Geometry} {a n : Nat} (ha : a < 2 ^ addrWidth g)
    (hn : 2 ^ addrWidth g ≤ n) :
    addressedFrame sub g a n s = .error .raised (s.enterError .invalidOperand (.operands (addrWidth g) n)) := by
  rw [addressedFrame, run_bind_ok (makeBits_ok ha), run_bind_error (makeBits_raises (not_lt.mpr hn))]

/-! ### How a rejected read or write ends -/

section rejected
variable {i : Instr} {α : Type} {value : α → Value} {rest : Geometry → Op α} {t : State} {code : ErrorCode}
  {info : ErrorInfo}

/-- A body that raises leaves its row ended, with the pin released (R224, R304). -/
theorem runOp_releaseAfter_raised {body : Op α} (hb : body s = .error .raised t) (hs : t.session = .identified)
    (ha : t.AnswersOk 2) :
    runOp value (releaseAfter body) s = .next { t.pinned false with result := .none, ended := true, busy := none } := by
  rw [runOp, releaseAfter_raised hb hs ha]
  rfl

theorem runOp_releaseAfter_failed {body : Op α} (hb : body s = .error .raised (t.enterError code info))
    (hs : t.session = .identified) (ha : t.AnswersOk 2) :
    runOp value (releaseAfter body) s = .next (t.failedReleased code info) :=
  runOp_releaseAfter_raised hb ((enterError_session ..).trans hs) (answersOk_enterError.mpr ha)

theorem exec_of_checks_failed (hrow : s.ChecksThen i bitpos address length start value rest)
    (hc : flashChecks bitpos address length start (s.pinned true) = .error .raised (t.enterError code info))
    (hs : t.session = .identified) (ha : t.AnswersOk 2) : exec i s = .next (t.failedReleased code info) :=
  hrow.trans (runOp_releaseAfter_failed (run_bind_error hc) hs ha)

theorem exec_of_rest_failed {g : Geometry} (hrow : s.ChecksThen i bitpos address length start value rest)
    (hc : flashChecks bitpos address length start (s.pinned true) = .ok g t)
    (hr : rest g t = .error .raised (t.enterError code info)) (hs : t.session = .identified) (ha : t.AnswersOk 2) :
    exec i s = .next (t.failedReleased code info) :=
  hrow.trans (runOp_releaseAfter_failed ((run_bind_ok hc).trans hr) hs ha)

end rejected

/-- Settles O49: each clause is one way the checks answer, or one field of a read's frame. -/
theorem rejectedReadsReleaseThePin : Obligations.RejectedReadsReleaseThePin := by
  refine fun s hs => ⟨fun lo hi start h => runOp_raised (readFlash_reversed hs h), ?_⟩
  intro i bitpos address n start reads ht hi hok
  have hpin : s.AnswersOk 2 := answersOk_mono hok (by omega)
  have hprobe : (s.pinned true).AnswersOk (2 * (16 + subWidth s.params.subCapabilities + 37)) :=
    answersOk_later (s := s) (m := 2) rfl rfl hok
  obtain ⟨⟨α, value, rest, hrow⟩, hread⟩ :
      (∃ (α : Type) (value : α → Value) (rest : Geometry → Op α), s.ChecksThen i bitpos address n start value rest)
        ∧ (reads = true →
          s.ChecksThen i bitpos address n start .bytes (readRest s.params.subFlashRead address n)) := by
    rcases hi with ⟨_, ⟨hi, hle, rfl, rfl⟩, rfl⟩ | ⟨rfl, ⟨data, rfl, rfl⟩, rfl⟩
    · have hrow := readFlash_checksThen (start := start) hs hpin hle
      exact ⟨⟨_, _, _, hrow⟩, fun _ => hrow⟩
    · exact ⟨⟨_, _, _, writeFlash_checksThen hs hpin⟩, nofun⟩
  refine ⟨fun t hw hstart hconf hrel => ?unconfigured, fun p w g hlast hg => ?_⟩
  case unconfigured =>
    subst hstart
    have hcap := ensureCapability_unconfigured (s := s.pinned true) hs ht hprobe hw hconf
    have hsess : t.session = .identified := (configureFpga_raised hconf).trans hs
    exact hrow.trans (runOp_releaseAfter_raised (run_bind_error (flashChecks_of_ensureCapability_raised hcap))
      hsess hrel)
  obtain ⟨hptap, _, hpsess⟩ := lastProbe_state (s := s.pinned true) ht hlast
  have hps : p.session = .identified := hpsess.trans hs
  have hcap := ensureCapability_probed (s := s.pinned true) hs ht hprobe hlast
  refine ⟨fun hw hrel => ?absent, fun hw hanswers => ?_⟩
  case absent =>
    rw [if_neg (by simp [hw])] at hcap
    exact exec_of_checks_failed hrow (flashChecks_of_ensureCapability_raised hcap) hps hrel
  rw [if_pos hw] at hcap
  have hchecks := flashChecks_eq (address := address) (length := n) hcap hps hptap hg (answersOk_mono hanswers (by omega))
  have hrel : p.measured.AnswersOk 2 := answersOk_measured hanswers
  refine ⟨fun hv => ?illegal, fun hv => ?_⟩
  case illegal =>
    rw [if_neg (by simp [hv])] at hchecks
    exact exec_of_checks_failed hrow hchecks hps hrel
  rw [if_pos hv] at hchecks
  refine ⟨fun hlen => ?lengthMisaligned, fun hlen haddr => ?addressMisaligned, fun hr hlen haddr => ?_⟩
  case lengthMisaligned =>
    rw [if_pos hlen] at hchecks
    exact exec_of_checks_failed hrow hchecks hps hrel
  case addressMisaligned =>
    rw [if_neg (not_not.mpr hlen), if_pos haddr] at hchecks
    exact exec_of_checks_failed hrow hchecks hps hrel
  rw [if_neg (not_not.mpr hlen), if_neg (not_not.mpr haddr)] at hchecks
  refine ⟨fun hfa => ?addressTooLarge, fun hfa hfn => ?countTooLarge⟩
  case addressTooLarge =>
    exact exec_of_rest_failed (hread hr) hchecks (run_bind_error (addressedFrame_addressTooLarge hfa)) hps hrel
  case countTooLarge =>
    exact exec_of_rest_failed (hread hr) hchecks (run_bind_error (addressedFrame_countTooLarge hfa hfn)) hps hrel

end Sys2Proof.Machine

/-!
The framer's other rows (R161, R165, R167, R173 to R175, R182, R189, R219, R224, R255, R258, R305): the flash pin, PROG,
the single ticks and the frames that are an exchange alone, each through the law of its operation.
-/
namespace Sys2Proof.Machine

variable {s : State}

/-! ### The flash pin -/

theorem setFlashPin_eq_flashOnOff {on : Bool} (hs : s.session = .identified) :
    setFlashPin on s = flashOnOff on s := by
  rw [setFlashPin, run_bind_ok (requireIdentified_ok hs)]

/-- What an operation does as an instruction depends on how it runs alone. -/
theorem runOp_congr {α : Type} {value : α → Value} {op op' : Op α} (h : op s = op' s) :
    runOp value op s = runOp value op' s := by
  rw [runOp, runOp, h]

/-- The two rows of the flash session are the FLASH_ONOFF row behind the gate (R219, R224). -/
theorem exec_flashPinRow {i : Instr} {on : Bool} (h : i = .usbFlashOnOff on
    ∨ s.session = .identified ∧ (i = .setFlashPin on ∨ i = .releaseOnExit ∧ on = false)) :
    exec i s = runUnit (flashOnOff on) s := by
  rcases h with rfl | ⟨hs, rfl | ⟨rfl, rfl⟩⟩
  · rfl
  · exact runOp_congr (setFlashPin_eq_flashOnOff hs)
  · exact runOp_congr (setFlashPin_eq_flashOnOff hs)

theorem flashOnOff_write_fails {on : Bool} {k : FailKind} (h : s.answerAt s.drawn.answers = .fail k) :
    flashOnOff on s = raiseTransport true (writeKind k) (s.drewAnswers 1) := by
  rw [flashOnOff, run_bind_error (e := .raised) (exchange_write_fails h)]
  rfl

theorem flashOnOff_read_fails {on : Bool} {k : FailKind} (h0 : answered (s.answerAt s.drawn.answers) = true)
    (h1 : s.answerAt (s.drawn.answers + 1) = .fail k) :
    flashOnOff on s = raiseTransport true (readKind k) (s.drewAnswers 2) := by
  rw [flashOnOff, run_bind_error (e := .raised) (exchange_read_fails h0 h1)]
  rfl

/-- A FLASH_ONOFF frame that fails makes the pin `Unknown` besides (R305). -/
theorem runOp_pinFrameFailed {α : Type} {value : α → Value} {op : Op α} {n : Nat} {k : FailKind}
    (h : op s = raiseTransport true k (s.drewAnswers n)) :
    runOp value op s = .next { s.transportFailed n k with flashPin := .unknown } := by
  rw [runOp, h]
  rfl

/-- Settles O29: the three rows are one operation, which answers or fails at its write or its read. -/
theorem flashPinFollowsItsFrame : Obligations.FlashPinFollowsItsFrame := by
  intro s i on hi
  rw [exec_flashPinRow hi]
  refine ⟨fun hok => ?answered, fun k hwrite => ?writeFails, fun k hwrite hread => ?readFails⟩
  case answered => exact runOp_ok (flashOnOff_ok hok)
  case writeFails => exact runOp_pinFrameFailed (flashOnOff_write_fails hwrite)
  case readFails => exact runOp_pinFrameFailed (flashOnOff_read_fails hwrite hread)

/-! ### PROG -/

theorem toggleProgPin_eq_prog (hs : s.session = .identified) : toggleProgPin s = prog Config.encodeProg s := by
  rw [toggleProgPin, run_bind_ok (requireIdentified_ok hs)]

/-- Settles O30: both rows by `prog_ok`, `toggleProgPin` behind the gate. -/
theorem progForgetsTheFpga : Obligations.ProgForgetsTheFpga := by
  rintro s i payload (rfl | ⟨hs, rfl, rfl⟩) hok
  · exact runOp_ok (prog_ok hok)
  · exact runOp_ok ((toggleProgPin_eq_prog hs).trans (prog_ok hok))

/-! ### Single ticks -/

/-- Settles O31: `tmsTdi_ok` and `tmsTdiTdo_ok`. -/
theorem tickFramesTickOnce : Obligations.TickFramesTickOnce :=
  fun _ _ _ hok => ⟨runOp_ok (tmsTdi_ok hok), runOp_ok (tmsTdiTdo_ok hok)⟩

/-! ### Frames that are an exchange alone -/

theorem enableFlash_ok {flag : Bool} (h : s.AnswersOk 2) :
    enableFlash flag s = .ok () (s.exchanged 0x05 (Config.encodeEeWrite Config.eepromFlashFlagAddr
      (if flag then Config.eepromFlashFlagOn else s.params.eepromFlashFlagOff))) := by
  rw [enableFlash, run_get_bind, writeEedata_ok h]

/-- Settles O28: `exchange_ok` and `writeEedata_ok`, and `enableFlash` with each flag. -/
theorem plainFramesAreOneExchange : Obligations.PlainFramesAreOneExchange :=
  fun _ hok => ⟨fun _ => runOp_ok (exchange_ok hok), fun _ _ => runOp_ok (writeEedata_ok hok),
    runOp_ok (enableFlash_ok hok), runOp_ok (enableFlash_ok hok)⟩

/-! ### Refused rows -/

/-- Settles O35: the meaning of each row is `refuseOpcode` of its opcode. -/
theorem refusedOpcodesHaveNoStep : Obligations.RefusedOpcodesHaveNoStep :=
  fun _ _ _ => ⟨rfl, rfl, rfl, rfl, rfl, rfl, rfl, rfl, rfl, rfl, rfl, rfl, rfl, rfl, rfl, rfl, rfl, rfl, rfl⟩

end Sys2Proof.Machine

/-!
The row `command` (R173 to R177, R181, R189): what it does by the class of its opcode, the ticks of a payload that
encodes an operand, and the TDO bits that a response carries.
-/
namespace Sys2Proof.Machine

variable {s : State} {op : Byte} {payload : Bytes}

/-! ### The classes of opcodes -/

/-- The admitted opcodes that are no JTAG primitives: INFO, FLASH_ONOFF, WRITE_EEDATA and PROG. -/
def plainOpcodes : List Byte :=
  [0x40, 0x50, 0x05, 0x49]

theorem isJtagPrimitive_of_plain : ∀ op ∈ plainOpcodes, isJtagPrimitive op = false := by
  decide

theorem mem_admittedOpcodes_iff : op ∈ admittedOpcodes ↔ op ∈ plainOpcodes ∨ isJtagPrimitive op = true := by
  have hperm : admittedOpcodes.Perm (plainOpcodes ++ [0x42, 0x43, 0x44, 0x46, 0x4f]) := by decide
  rw [hperm.mem_iff, List.mem_append, isJtagPrimitive, decide_eq_true_iff]

theorem not_mem_admittedOpcodes_of_refused : ∀ op ∈ refusedOpcodes, op ∉ admittedOpcodes := by
  decide

/-! ### The row -/

theorem exec_command_of_admitted (h : op ∈ admittedOpcodes) (payload : Bytes) :
    exec (.command op payload) s = runOp .bytes (sendFrame op payload) s := by
  have hclass : opcodeClass op = .admitted := if_pos h
  rw [exec, execCommand, if_neg (by rw [hclass]; decide), command, if_neg (by rw [hclass]; decide)]

theorem exec_command_of_plain (h : op ∈ plainOpcodes) (hok : s.AnswersOk 2) :
    exec (.command op payload) s =
      .next ((s.exchanged op payload).completed (.bytes (s.responseAt 0 op payload))) := by
  rw [exec_command_of_admitted (mem_admittedOpcodes_iff.mpr (.inl h))]
  exact runOp_ok (sendFrame_ok (isJtagPrimitive_of_plain op h) hok)

theorem exec_command_of_jtag {ticks : List (Bool × Bool)} {resp : Bytes} {tdo : BitSeq} {m : Nat}
    (h : isJtagPrimitive op = true) (hok : s.AnswersOk 2) (hticks : ticks = frameTicks s.params op payload)
    (hresp : resp = s.responseAt 0 op payload) (htdo : tdo = responseTdo op resp ticks.length)
    (hm : m = ticks.length - tdo.length) :
    exec (.command op payload) s =
      .next ((((s.exchanged op payload).ported ticks (tdo ++ s.tdos 0 m)).drewTdo m).completed (.bytes resp)) := by
  subst hresp
  rw [exec_command_of_admitted (mem_admittedOpcodes_iff.mpr (.inr h))]
  exact runOp_ok (sendFrame_jtag_ok h hok hticks htdo hm)

theorem exec_command_of_refused (h : op ∈ refusedOpcodes) :
    exec (.command op payload) s = .refused (.refusedOpcode op) := by
  have hclass : opcodeClass op = .refused := by
    rw [opcodeClass, if_neg (not_mem_admittedOpcodes_of_refused op h), if_pos h]
  rw [exec, execCommand, if_pos hclass, refuseOpcode]

/-! ### The ticks of a payload that encodes an operand -/

section frameTicks
variable (p : Params)

theorem frameTicks_encodeTick (h : op = 0x42 ∨ op = 0x43) (tms tdi : Bool) :
    frameTicks p op (encodeTick tms tdi) = [(tms, tdi)] := by
  rw [frameTicks, if_pos h, decodeTick_encodeTick, Option.map_some, Option.getD_some]

theorem frameTicks_encodeTmsSeq (seq : BitSeq) : frameTicks p 0x4f (encodeTmsSeq seq) = pathTicks seq := by
  rw [frameTicks, if_neg (by decide), if_pos rfl, decodeTmsSeq_encodeTmsSeq, Option.map_some, Option.getD_some]

theorem frameTicks_of_bulkOperand {bits : BitSeq} (h : op = 0x44 ∨ op = 0x46)
    (hbits : bulkOperand p op payload = some bits) :
    frameTicks p op payload = bulkTicks bits (Config.bulkMark op payload) := by
  have htick : ¬ (op = 0x42 ∨ op = 0x43) := by rcases h with rfl | rfl <;> decide
  have hseq : op ≠ 0x4f := by rcases h with rfl | rfl <;> decide
  rw [frameTicks, if_neg htick, if_neg hseq, hbits, Option.map_some, Option.getD_some]
end frameTicks

/-! ### The TDO bits of a response -/

section responseTdo
variable (resp : Bytes)

theorem responseTdo_tmsTdiTdo : responseTdo 0x43 resp 1 = [Config.decodeTdo resp] :=
  rfl

theorem responseTdo_tdiTdo (n : Nat) : responseTdo 0x44 resp n = bitsOfBytes resp (min n (8 * resp.length)) :=
  rfl

theorem responseTdo_of_none (h43 : op ≠ 0x43) (h44 : op ≠ 0x44) (n : Nat) : responseTdo op resp n = [] := by
  rw [responseTdo, if_neg h43, if_neg h44]
end responseTdo

/-- Settles O33: the row by the class of its opcode, each payload read back to its operand, and the response's bits. -/
theorem commandIsOneHalfDuplexExchange : Obligations.CommandIsOneHalfDuplexExchange := by
  refine ⟨fun s op payload => ⟨exec_command_of_plain, fun hop hok ticks resp tdo m => ?jtag, exec_command_of_refused⟩,
    fun p tms tdi => ⟨frameTicks_encodeTick p (.inl rfl) tms tdi, frameTicks_encodeTick p (.inr rfl) tms tdi⟩,
    frameTicks_encodeTmsSeq, fun p op bits hop hne hlen => ?bulk,
    fun resp n => ⟨responseTdo_tmsTdiTdo resp, fun hfull => ?full, fun hshort => ?short, fun op hop => ?noTdo⟩⟩
  case jtag => exact exec_command_of_jtag (decide_eq_true hop) hok
  case bulk =>
    obtain ⟨operand, hoperand, hbytes, hunit, hread⟩ := bulkOperand_bulkBytes (p := p) (op := op) hne hlen
    exact ⟨operand, _, hoperand, hbytes, hunit, frameTicks_of_bulkOperand p hop hread⟩
  case full => rw [responseTdo_tdiTdo, Nat.min_eq_left hfull]
  case short => rw [responseTdo_tdiTdo, Nat.min_eq_right (Nat.le_of_lt hshort)]
  case noTdo =>
    have hne : ∀ op ∈ ([0x42, 0x46, 0x4f] : List Byte), op ≠ 0x43 ∧ op ≠ 0x44 := by decide
    obtain ⟨h43, h44⟩ := hne op hop
    exact responseTdo_of_none resp h43 h44 n

end Sys2Proof.Machine

/-!
The chunks of a write (R57, R221, R222): the plan is cut from the front of the data, a block at a time, so its count,
its entries, its bytes and its alignment follow by induction on the blocks.
-/
namespace Sys2Proof.Machine

/-! ### The plan, a block at a time -/

section chunksFrom
variable {block fuel address : Nat} {data : Bytes}

theorem chunksFrom_nil (block fuel address : Nat) : chunksFrom block fuel address [] = [] := by
  cases fuel <;> rfl

/-- Data that is not used up gives a chunk of one block, or of what is left (R221). -/
theorem chunksFrom_succ (h : data ≠ []) :
    chunksFrom block (fuel + 1) address data =
      (address, data.take block) :: chunksFrom block fuel (address + (data.take block).length) (data.drop block) := by
  cases data with
  | nil => exact absurd rfl h
  | cons b more => rfl

theorem length_drop_le_of_ne_nil (hb : 0 < block) (h : data ≠ []) (hf : data.length ≤ fuel + 1) :
    (data.drop block).length ≤ fuel := by
  have := List.length_pos_iff.mpr h
  rw [List.length_drop]
  omega

/-- One block less of data is one chunk less (R222). -/
theorem ceil_sub_block {block length : Nat} (hb : 0 < block) (hl : 0 < length) :
    (length - block + block - 1) / block + 1 = (length + block - 1) / block := by
  rcases Nat.le_total block length with h | h
  · rw [Nat.sub_add_cancel h, show length + block - 1 = length - 1 + block by omega, Nat.add_div_right _ hb]
  · rw [Nat.sub_eq_zero_of_le h, Nat.zero_add, Nat.div_eq_of_lt (by omega),
      show length + block - 1 = length - 1 + block by omega, Nat.add_div_right _ hb, Nat.div_eq_of_lt (by omega)]

theorem chunksFrom_length (hb : 0 < block) (hf : data.length ≤ fuel) :
    (chunksFrom block fuel address data).length = (data.length + block - 1) / block := by
  induction fuel generalizing address data with
  | zero =>
    rw [List.length_eq_zero_iff.mp (Nat.le_zero.mp hf), chunksFrom_nil, List.length_nil, List.length_nil,
      Nat.div_eq_of_lt (by omega)]
  | succ fuel ih =>
    by_cases h : data = []
    · rw [h, chunksFrom_nil, List.length_nil, List.length_nil, Nat.div_eq_of_lt (by omega)]
    · rw [chunksFrom_succ h, List.length_cons, ih (length_drop_le_of_ne_nil hb h hf), List.length_drop,
        ceil_sub_block hb (List.length_pos_iff.mpr h)]

/-- Chunk `k` starts `k` blocks after the first, as long as there is data there (R222). -/
theorem chunksFrom_getElem? {k : Nat} (hb : 0 < block) (hf : data.length ≤ fuel) (hk : k * block < data.length) :
    (chunksFrom block fuel address data)[k]? =
      some (address + k * block, (data.drop (k * block)).take block) := by
  induction fuel generalizing address data k with
  | zero => omega
  | succ fuel ih =>
    have h : data ≠ [] := List.length_pos_iff.mp (by omega)
    rw [chunksFrom_succ h]
    cases k with
    | zero => rw [List.getElem?_cons_zero, Nat.zero_mul, Nat.add_zero, List.drop_zero]
    | succ k =>
      rw [Nat.succ_mul] at hk ⊢
      have hblock : (data.take block).length = block := List.length_take_of_le (by omega)
      have hrest : k * block < (data.drop block).length := by rw [List.length_drop]; omega
      rw [List.getElem?_cons_succ, hblock, ih (length_drop_le_of_ne_nil hb h hf) hrest, List.drop_drop]
      simp only [Nat.add_assoc, Nat.add_comm block]

theorem chunksFrom_flatten (hb : 0 < block) (hf : data.length ≤ fuel) :
    ((chunksFrom block fuel address data).map Prod.snd).flatten = data := by
  induction fuel generalizing address data with
  | zero => rw [List.length_eq_zero_iff.mp (Nat.le_zero.mp hf), chunksFrom_nil]; rfl
  | succ fuel ih =>
    by_cases h : data = []
    · rw [h, chunksFrom_nil]; rfl
    · rw [chunksFrom_succ h, List.map_cons, List.flatten_cons, ih (length_drop_le_of_ne_nil hb h hf),
        List.take_append_drop]

/-- No chunk is empty or longer than a block, and what divides the block, the data and the address divides every chunk's
length and address (R57, R222). -/
theorem chunksFrom_aligned {c : Nat × Bytes} {str : Nat} (hb : 0 < block) (hsb : str ∣ block)
    (hsl : str ∣ data.length) (hsa : str ∣ address) (hc : c ∈ chunksFrom block fuel address data) :
    0 < c.2.length ∧ c.2.length ≤ block ∧ str ∣ c.2.length ∧ str ∣ c.1 := by
  induction fuel generalizing address data with
  | zero => cases hc
  | succ fuel ih =>
    by_cases h : data = []
    · rw [h, chunksFrom_nil] at hc
      cases hc
    have hpos : 0 < data.length := List.length_pos_iff.mpr h
    have hchunk : str ∣ (data.take block).length := by
      rw [List.length_take]
      rcases Nat.le_total block data.length with hle | hle
      · rwa [Nat.min_eq_left hle]
      · rwa [Nat.min_eq_right hle]
    rw [chunksFrom_succ h, List.mem_cons] at hc
    rcases hc with rfl | hc
    · exact ⟨by rw [List.length_take]; omega, List.length_take_le .., hchunk, hsa⟩
    · exact ih (by rw [List.length_drop]; exact Nat.dvd_sub hsl hsb) (Nat.dvd_add hsa hchunk) hc

end chunksFrom

/-! ### The block -/

theorem blockSizeBytes_pos (g : Geometry) : 0 < blockSizeBytes g :=
  Nat.two_pow_pos _

/-- A legal block is a whole number of strides (R214). -/
theorem stride_dvd_blockSizeBytes {g : Geometry} (hv : validGeometry g = true) : stride g ∣ blockSizeBytes g := by
  obtain ⟨_, _, ⟨k, hk⟩, _, hle⟩ := (validGeometry_iff g).mp hv
  rw [hk] at hle
  rw [stride, blockSizeBytes, hk]
  exact pow_dvd_pow 2 ((Nat.pow_le_pow_iff_right (by decide)).mp hle)

/-- Settles O52: the count, the entries and the bytes of the plan, each by induction on its blocks. -/
theorem chunksPartitionTheData : Obligations.ChunksPartitionTheData := by
  rintro g address data B L rfl rfl
  have hb := blockSizeBytes_pos g
  refine ⟨hb, chunksFrom_length hb le_rfl, fun k hk => ?entry, chunksFrom_flatten hb le_rfl⟩
  case entry =>
    have hstart : k * blockSizeBytes g < data.length := by
      have := (Nat.le_div_iff_mul_le hb).mp hk
      rw [Nat.succ_mul] at this
      omega
    rw [chunkPlan, chunksFrom_getElem? hb le_rfl hstart, List.take_eq_take_min, List.length_drop]
    congr 3
    rw [Nat.succ_mul]
    omega

/-! ### The faults of a plan -/

/-- A chunk of a plan has the right size and is aligned: it can only be at fault in its frame (R140, R218). -/
theorem chunkFault_of_mem_chunkPlan {g : Geometry} {address : Nat} {data : Bytes} {c : Nat × Bytes}
    (hv : validGeometry g = true) (hlen : data.length % stride g = 0) (haddr : address % stride g = 0)
    (hc : c ∈ chunkPlan g address data) :
    chunkFault g c.1 c.2 =
      if 2 ^ addrWidth g ≤ c.1 / stride g then some (.invalidOperand, .operands (addrWidth g) (c.1 / stride g))
      else if 2 ^ addrWidth g ≤ c.2.length / stride g then
        some (.invalidOperand, .operands (addrWidth g) (c.2.length / stride g))
      else none := by
  obtain ⟨hpos, hle, hdvd, hdvd'⟩ := chunksFrom_aligned (blockSizeBytes_pos g) (stride_dvd_blockSizeBytes hv)
    (Nat.dvd_of_mod_eq_zero hlen) (Nat.dvd_of_mod_eq_zero haddr) hc
  rw [chunkFault, if_neg (by omega), if_neg (not_not.mpr (Nat.mod_eq_zero_of_dvd hdvd)), belowStride_eq hv,
    if_neg (not_not.mpr (Nat.mod_eq_zero_of_dvd hdvd'))]

end Sys2Proof.Machine

/-!
The capability check, and polls in the step that starts them and in later steps (R212, R213, R216, R217, R223, R224,
R336).
-/
namespace Sys2Proof.Machine

variable {s : State}

/-- Settles O42: the probe, and the capability check by the word of its last probe, or by its configuration's error. -/
theorem capabilityChecksProbeTheBoard : Obligations.CapabilityChecksProbeTheBoard := by
  intro s hs ht hok
  refine ⟨runOp_ok (probeCapabilities_ok hs ht hok), fun bitpos =>
    ⟨fun start hw => runOp_ok (ensureCapability_present hs ht hok hw), fun hw =>
      ⟨runOp_raised (ensureCapability_absent hs ht hok hw), fun t hconf hok' => ?configured⟩,
      fun t hw hconf => ?unconfigured⟩⟩
  case configured =>
    have hlast : s.LastProbe bitpos true t.probed t.probedWord := .inr ⟨hw, rfl, t, hconf, hok', rfl, rfl⟩
    have hcap := ensureCapability_probed hs ht hok hlast
    refine ⟨fun hpresent => ?_, fun habsent => ?_⟩
    · rw [if_pos hpresent] at hcap
      exact runOp_ok hcap
    · rw [if_neg (by rw [habsent]; decide)] at hcap
      exact runOp_raised hcap
  case unconfigured =>
    have hraised := ensureCapability_unconfigured hs ht hok hw hconf
    change runUnit (ensureCapability bitpos true) s = _
    rw [runUnit, runOp, hraised]
    rfl

/-! ### The step that starts a poll -/

theorem exec_pollUntilTerminal (hs : s.session = .identified) :
    exec .pollUntilTerminal s = runUnit (pollOnce 0 .done) s :=
  congrArg (fun r => Host.Outcome.next (settle _ r)) (pollUntilTerminal_eq hs)

theorem exec_eraseFlash (hs : s.session = .identified) (ht : s.tap = .known .runTestIdle)
    (h : s.AnswersOk (2 * (16 + subWidth s.params.subFlashErase))) :
    exec .eraseFlash s = runUnit (pollOnce 0 .done) (s.commanded (subBits s.params.subFlashErase)) :=
  congrArg (fun r => Host.Outcome.next (settle _ r)) (eraseFlash_eq hs ht h)

theorem atCeiling_zero (h : s.cfg.maxPolls = some 0) : s.atCeiling 0 = true := by
  rw [State.atCeiling, h]
  rfl

/-- A pass of a poll loop with nothing after it (R217). -/
theorem runUnit_pollOnce {k : Nat} (hs : s.session = .identified) (hi : s.lastIR = .instr user1)
    (ht : s.tap = .known .runTestIdle) (h : s.AnswersOk (2 * 37) ∨ s.atCeiling k = true) :
    runUnit (pollOnce k .done) s = .next (s.pollEnds k) :=
  congrArg Host.Outcome.next (pollOnce_ends hs hi ht h)

theorem answersOk_erased {n : Nat} (h : s.AnswersOk (2 * (16 + subWidth s.params.subFlashErase) + n)) :
    (s.commanded (subBits s.params.subFlashErase)).AnswersOk n :=
  answersOk_commanded (subBits_ne_nil _) (by rw [subBits_length]; exact h)

/-- Settles O45: a poll, and an erase as its scan and a poll, at the ceiling and below it. -/
theorem erasesAndPollsEndByTheirStatus : Obligations.ErasesAndPollsEndByTheirStatus := by
  refine fun s hs => ⟨fun hmax => ⟨?_, fun ht hok => ?_⟩, fun _ ht => ⟨fun hi hok => ?_, fun hok => ?_⟩⟩
  · rw [exec_pollUntilTerminal hs]
    exact runOp_raised (pollOnce_ceiling (atCeiling_zero hmax))
  · rw [exec_eraseFlash hs ht hok]
    exact runOp_raised (pollOnce_ceiling (atCeiling_zero (s := s.commanded _) hmax))
  · rw [exec_pollUntilTerminal hs]
    exact runUnit_pollOnce hs hi ht (.inl hok)
  · rw [exec_eraseFlash hs ht (answersOk_mono hok (by omega))]
    exact runUnit_pollOnce (s := s.commanded _) hs rfl (commanded_tap ht)
      (.inl (answersOk_erased (answersOk_mono hok (by omega))))

/-! ### A step that resumes a poll -/

section resumed
variable {k : Nat} {rest : Rest} {b : Busy}

/-- A resumed poll that waits leaves its operation waiting, whatever follows the loop (R217, R224). -/
theorem resumePoll_waiting {t : State} (h : pollOnce b.polls b.rest s = .error .waiting t) :
    resumePoll b s = .error .waiting t := by
  obtain ⟨k, rest⟩ := b
  cases rest with
  | done => exact h
  | erased plan => exact releaseAfter_waiting (run_bind_error h)
  | chunks cumulative more => exact releaseAfter_waiting (run_bind_error h)

/-- The waiting state after one more poll that read InProgress. -/
def State.polledOn (s : State) (k : Nat) (rest : Rest) : State :=
  { s.polled with busy := some { polls := k + 1, rest := rest } }

theorem step_polledOn (he : s.ended = false) (hb : s.busy = some { polls := k, rest := rest })
    (hs : s.session = .identified) (hi : s.lastIR = .instr user1) (ht : s.tap = .known .runTestIdle)
    (hok : s.AnswersOk (2 * 37)) (hm : s.atCeiling k = false)
    (hd : decodeStatus s.params s.pollWord = .inProgress) : step s = .next (s.polledOn k rest) := by
  have hpoll := (pollOnce_eq (s := { s with busy := none }) (rest := rest) hm hs hi ht hok).trans
    (pollVerdict_inProgress hd)
  rw [step_of_busy he hb, runUnit, runOp, resumePoll_waiting hpoll]
  rfl

theorem answersOk_polledOn {n : Nat} (h : s.AnswersOk (2 * 37 + n)) : (s.polledOn k rest).AnswersOk n :=
  answersOk_polled (s := s) h

/-- The TDO bits after a poll are those that were 37 further on before it. -/
theorem tdos_polledOn (j n : Nat) : (s.polledOn k rest).tdos j n = s.tdos (37 + j) n := by
  have hdrawn : (s.polledOn k rest).tdos j n = (s.responded 32).tdos j n := rfl
  rw [hdrawn, State.responded, State.scanned, tdos_ticked, scanTicks_length, bitsOf_length]

theorem atCeiling_eq_false (h : ∀ m, s.cfg.maxPolls = some m → k < m) : s.atCeiling k = false := by
  rw [State.atCeiling]
  cases hm : s.cfg.maxPolls with
  | none => rfl
  | some m => exact decide_eq_false (not_le.mpr (h m hm))

/-- A poll loop in progress after `k` polls, whose next `N` polls read InProgress below the ceiling (R217). -/
structure State.Polling (s : State) (k N : Nat) (rest : Rest) : Prop where
  ended : s.ended = false
  busy : s.busy = some { polls := k, rest := rest }
  session : s.session = .identified
  tap : s.tap = .known .runTestIdle
  lastIR : s.lastIR = .instr user1
  answers : s.AnswersOk (2 * 37 * N)
  words : ∀ j < N, decodeStatus s.params (BitVec.ofNat 32 (toInt (s.tdos (37 * j + 3) 32))) = .inProgress
  ceiling : ∀ m, s.cfg.maxPolls = some m → k + N ≤ m

theorem step_of_polling {N : Nat} (h : s.Polling k (N + 1) rest) : step s = .next (s.polledOn k rest) :=
  step_polledOn h.ended h.busy h.session h.lastIR h.tap (answersOk_mono h.answers (by omega))
    (atCeiling_eq_false fun m hm => by have := h.ceiling m hm; omega) (h.words 0 (by omega))

theorem polling_polledOn {N : Nat} (h : s.Polling k (N + 1) rest) : (s.polledOn k rest).Polling (k + 1) N rest where
  ended := h.ended
  busy := rfl
  session := h.session
  tap := polled_tap h.tap
  lastIR := h.lastIR
  answers := answersOk_polledOn (answersOk_mono h.answers (by omega))
  words := fun j hj => by
    rw [tdos_polledOn, show 37 + (37 * j + 3) = 37 * (j + 1) + 3 by omega]
    exact h.words (j + 1) (by omega)
  ceiling := fun m hm => by have := h.ceiling m hm; omega

/-- `N` polls in `N` steps, without an error (R217, R336). -/
theorem run_polling {N : Nat} (h : s.Polling k N rest) :
    ∃ t : State, Sys2Proof.core.run N s = .next t
      ∧ t.busy = some { polls := k + N, rest := rest } ∧ t.ended = false ∧ t.pc = s.pc ∧ t.errors = s.errors
      ∧ t.tap = .known .runTestIdle ∧ t.lastIR = s.lastIR ∧ t.flashPin = s.flashPin
      ∧ t.drawn.tdo = s.drawn.tdo + 37 * N := by
  induction N generalizing s k with
  | zero => exact ⟨s, rfl, h.busy, h.ended, rfl, rfl, h.tap, rfl, rfl, rfl⟩
  | succ N ih =>
    obtain ⟨t, hrun, hbusy, hended, hpc, herrors, htap, hir, hpin, htdo⟩ := ih (polling_polledOn h)
    have hdrawn : (s.polledOn k rest).drawn.tdo = s.drawn.tdo + 37 := by
      have hticked : (s.polledOn k rest).drawn.tdo = s.drawn.tdo + (scanTicks (bitsOf 32 0)).length := rfl
      rw [hticked, scanTicks_length, bitsOf_length]
    refine ⟨t, (run_next (step_of_polling h)).trans hrun, ?_, hended, hpc, herrors, htap, hir, hpin, ?_⟩
    · rw [hbusy, Nat.add_assoc, Nat.add_comm 1]
    · rw [htdo, hdrawn]
      omega

end resumed

/-- Settles O46: `N` polls by `run_polling`, and the last poll by what follows it. -/
theorem pollLoopsGoOnWhileInProgress : Obligations.PollLoopsGoOnWhileInProgress := by
  refine ⟨fun N k rest s he hb hs ht hi hok hwords hmax => run_polling ⟨he, hb, hs, ht, hi, hok, hwords, hmax⟩,
    fun k rest s u he hb hs ht hi hu => ?_⟩
  have hstep := step_of_busy he hb
  have hus : u.session = .identified := hu ▸ hs
  have hui : u.lastIR = .instr user1 := hu ▸ hi
  have hut : u.tap = .known .runTestIdle := hu ▸ ht
  rw [hstep, ← hu]
  refine ⟨?done, ?erased, ?chunks⟩
  case done =>
    rintro rfl hok
    subst hu
    exact runUnit_pollOnce hus hui hut hok
  case erased =>
    rintro plan rfl hok
    exact congrArg Host.Outcome.next (pollOnce_then hus hui hut hok
      (writeChunks_end (s := u.polled) hus (polled_tap hut) rfl))
  case chunks =>
    rintro done more rfl hok
    refine congrArg Host.Outcome.next (pollOnce_then hus hui hut hok fun hafter => ?_)
    rw [releaseAfter_bind_ok (run_record _ _)]
    exact writeChunks_end (s := u.polled.progressed done) hus (polled_tap hut) rfl hafter

end Sys2Proof.Machine

/-!
A read and a write after their checks (R213 to R217, R220 to R224): both run inside the `try` that releases the pin.
-/
namespace Sys2Proof.Machine

variable {s p m : State} {w : Word32} {g : Geometry} {lo hi n address length bitpos : Nat} {start : Bool} {data : Bytes}

/-! ### A read -/

/-- The probe's transport calls are those after the pin's exchange (R212, R219). -/
theorem answersOk_pinned {on : Bool} {n : Nat} (h : s.AnswersOk (2 + n)) : (s.pinned on).AnswersOk n :=
  answersOk_later (s := s) (m := 2) rfl rfl h

theorem answersOk_read {sub : SubCode} {a c : Nat}
    (h : m.AnswersOk (2 * (16 + subWidth sub + 2 * addrWidth g + (5 + 8 * n)) + 2)) :
    ((m.commanded (wordFrame sub g a c)).responded (8 * n)).AnswersOk 2 :=
  answersOk_responded (answersOk_commanded (wordFrame_ne_nil _ _ _ _)
    (by rw [wordFrame_length]; exact answersOk_mono h (by omega)))

/-- A body that completes leaves its row completed, with the pin released (R224). -/
theorem runOp_releaseAfter_ok {α : Type} {value : α → Value} {body : Op α} {a : α} {t : State}
    (hb : body s = .ok a t) (hs : t.session = .identified) (ha : t.AnswersOk 2) :
    runOp value (releaseAfter body) s = .next ((t.pinned false).completed (value a)) :=
  runOp_ok (releaseAfter_ok hb hs ha)

/-- Settles O48: the read's body by `readBody_ok`, between the two pin exchanges. -/
theorem readFlashReturnsItsResponseBytes : Obligations.ReadFlashReturnsItsResponseBytes := by
  intro s p m c w g lo hi n start hs ht hle hn hok hlast hw hg hm hv hlen haddr hfa hfn hanswers hc
  subst hm hc
  have hprobe : (s.pinned true).AnswersOk (2 * (16 + subWidth s.params.subCapabilities + 37)) := answersOk_pinned hok
  have hcap := ensureCapability_probed (s := s.pinned true) hs ht hprobe hlast
  rw [if_pos hw] at hcap
  obtain ⟨hptap, hpparams, hpsess⟩ := lastProbe_state (s := s.pinned true) ht hlast
  have hps : p.session = .identified := hpsess.trans hs
  have hbody := readBody_ok hcap hpparams hps hptap hg hn (answersOk_mono hanswers (by rw [readTicks]; omega)) hv hlen
    (belowStride_eq hv lo ▸ haddr) hfa hfn
  have hrel : p.measured.AnswersOk (2 * (16 + subWidth p.params.subFlashRead + 2 * addrWidth g + (5 + 8 * n)) + 2) :=
    answersOk_measured (answersOk_mono hanswers (by omega))
  change runOp .bytes (readFlash lo hi start) s = _
  rw [runOp, readFlash_eq hs (answersOk_mono hok (by omega)) hle]
  exact runOp_releaseAfter_ok hbody hps (answersOk_read hrel)

/-! ### A write -/

theorem exec_of_checks_passed {i : Instr} {α : Type} {value : α → Value} {rest : Geometry → Op α}
    (hrow : s.ChecksThen i bitpos address length start value rest)
    (hc : flashChecks bitpos address length start (s.pinned true) = .ok g m) :
    exec i s = runOp value (releaseAfter (rest g)) m := by
  rw [hrow, runOp, runOp, releaseAfter_bind_ok hc]

/-- A write with its checks passed, without `start`: its chunks (R221). -/
theorem writeRest_programs (hs : m.session = .identified) (ht : m.tap = .known .runTestIdle) (hg : m.geometry = g)
    (h : m.ChunksAnswered g 0 (chunkPlan g address data)) :
    runUnit (releaseAfter (writeRest data address false g)) m = .next (m.chunksEnd g 0 (chunkPlan g address data)) :=
  congrArg Host.Outcome.next (writeChunks_end hs ht hg h)

/-- A write with its checks passed, with `start`: an erase, its poll, and then its chunks (R216, R217, R221). -/
theorem writeRest_erases (hs : m.session = .identified) (ht : m.tap = .known .runTestIdle) (hg : m.geometry = g)
    (he : m.AnswersOk (2 * (16 + subWidth m.params.subFlashErase)))
    (h : (m.commanded (subBits m.params.subFlashErase)).PollAnswered 0
      (State.ChunksAnswered g 0 (chunkPlan g address data))) :
    runUnit (releaseAfter (writeRest data address true g)) m =
      .next ((m.commanded (subBits m.params.subFlashErase)).pollThen 0 (.erased (chunkPlan g address data))
        State.failedReleased (State.chunksEnd g 0 (chunkPlan g address data))) := by
  have herase : writeRest data address true g m =
      (pollOnce 0 (.erased (chunkPlan g address data)) >>= fun _ => writeChunks 0 (chunkPlan g address data))
        (m.commanded (subBits m.params.subFlashErase)) :=
    bind_congr_run (eraseFlash_eq hs ht he)
  have htap : (m.commanded (subBits m.params.subFlashErase)).tap = .known .runTestIdle := commanded_tap ht
  rw [runUnit, runOp, releaseAfter_congr herase]
  exact congrArg Host.Outcome.next (pollOnce_then hs rfl htap h
    (writeChunks_end (s := (m.commanded _).polled) hs (polled_tap htap) hg))

/-- Settles O50: the checks pass, the two ways of a write after them, and the faults that a plan's chunk can have. -/
theorem writeFlashProgramsEveryChunk : Obligations.WriteFlashProgramsEveryChunk := by
  intro s p m w g data address start plan hs ht hok hlast hw hg hm hv hlen haddr hanswers hplan
  subst hm hplan
  have hprobe : (s.pinned true).AnswersOk (2 * (16 + subWidth s.params.subCapabilities + 37)) := answersOk_pinned hok
  have hcap := ensureCapability_probed (s := s.pinned true) hs ht hprobe hlast
  rw [if_pos hw] at hcap
  obtain ⟨hptap, _, hpsess⟩ := lastProbe_state (s := s.pinned true) ht hlast
  have hms : p.measured.session = .identified := hpsess.trans hs
  have hmtap : p.measured.tap = .known .runTestIdle := measured_tap hptap
  have hmgeom : p.measured.geometry = g := hg.symm
  have hchecks := flashChecks_eq (address := address) (length := data.length) hcap (hpsess.trans hs) hptap hg hanswers
  rw [if_pos hv, if_neg (not_not.mpr hlen), if_neg (not_not.mpr haddr)] at hchecks
  have hexec := exec_of_checks_passed (writeFlash_checksThen hs (answersOk_mono hok (by omega))) hchecks
  refine ⟨fun hstart hchunks => ?programs, fun hstart herase e he hpoll => ?erases, fun c hc e hfault => ?faults⟩
  case programs =>
    subst hstart
    exact hexec.trans (writeRest_programs hms hmtap hmgeom hchunks)
  case erases =>
    subst hstart he
    exact hexec.trans (writeRest_erases hms hmtap hmgeom herase hpoll)
  case faults =>
    rw [chunkFault_of_mem_chunkPlan hv hlen haddr hc] at hfault
    split at hfault
    · exact .inl ⟨‹_›, (Option.some.inj hfault).symm⟩
    split at hfault
    · exact .inr ⟨not_le.mp ‹_›, ‹_›, (Option.some.inj hfault).symm⟩
    · cases hfault

end Sys2Proof.Machine

/-!
The release of the flash pin (R224, R305, R307): whatever the body of a read or a write does, the cleanup runs once, and
either it succeeds or its own TransportError is the last error of the run.
-/
namespace Sys2Proof.Machine

variable {s t : State} {α : Type}

/-- The pin's release failed: its state is unknown, and the last error is the TransportError of the release (R305). -/
def ReleaseFailed (t : State) : Prop :=
  t.flashPin = .unknown ∧ ∃ k, t.errors.getLast? = some ⟨.transportError, .transport k⟩

/-- How a `try` with the pin release leaves the pin: released where the body completed; after a raise released, or the
release failed; and where the body waits between polls, it is in progress (R224, R307). -/
def LeavesPin : EStateM.Result Exit State α → Prop
  | .ok _ t => t.flashPin = .released
  | .error .raised t => t.flashPin = .released ∨ ReleaseFailed t
  | .error .waiting t => t.busy ≠ none

/-! ### The release -/

theorem releaseFailed_enterError (u : State) (k : FailKind) :
    ReleaseFailed { u.enterError .transportError (.transport k) with flashPin := .unknown } :=
  ⟨rfl, k, by rw [enterError_errors, List.getLast?_concat]⟩

/-- On an identified session the release succeeds, or it raises and has failed (R219, R224, R305). -/
theorem releaseOnExit_cases (hs : s.session = .identified) :
    (∃ t, releaseOnExit s = .ok () t ∧ t.flashPin = .released)
      ∨ ∃ t, releaseOnExit s = .error .raised t ∧ ReleaseFailed t := by
  have hframe : releaseOnExit s = flashOnOff false s := setFlashPin_eq_flashOnOff hs
  rw [hframe]
  cases hwrite : s.answerAt s.drawn.answers with
  | fail k => exact .inr ⟨_, flashOnOff_write_fails hwrite, releaseFailed_enterError _ _⟩
  | ok _ =>
    have hwrite' : answered (s.answerAt s.drawn.answers) = true := by rw [hwrite]; rfl
    cases hread : s.answerAt (s.drawn.answers + 1) with
    | fail k => exact .inr ⟨_, flashOnOff_read_fails hwrite' hread, releaseFailed_enterError _ _⟩
    | ok _ => exact .inl ⟨_, flashOnOff_ok (answersOk_two hwrite' (by rw [hread]; rfl)), rfl⟩

/-- The cleanup of a body that stays on its identified session (R224, R307). -/
theorem leavesPin_releaseAfter {body : Op α}
    (hb : Keeps (fun u => u.session = .identified) (fun u => u.session = .identified) body)
    (hs : s.session = .identified) : LeavesPin (releaseAfter body s) := by
  have hleaves := hb.leaves s hs
  cases hbody : body s with
  | ok a u =>
    rw [hbody] at hleaves
    obtain ⟨v, hr, hv⟩ | ⟨v, hr, hv⟩ := releaseOnExit_cases hleaves
    · simp only [releaseAfter, hbody, hr]
      exact hv
    · simp only [releaseAfter, hbody, hr]
      exact .inr hv
  | error e u =>
    rw [hbody] at hleaves
    cases e with
    | waiting =>
      obtain ⟨v, b, _, _, rfl⟩ := hleaves
      rw [releaseAfter_waiting hbody]
      exact Option.some_ne_none b
    | raised =>
      obtain ⟨v, hr, hv⟩ | ⟨v, hr, hv⟩ := releaseOnExit_cases hleaves
      · simp only [releaseAfter, hbody, hr]
        exact .inl hv
      · simp only [releaseAfter, hbody, hr]
        exact .inr hv

/-- What the pin is when such an operation has settled and does not wait (R224, R307). -/
theorem pin_of_settled {value : α → Value} {op : Op α} (hpin : LeavesPin (op s)) (ht : runOp value op s = .next t)
    (hb : t.busy = none) :
    t.flashPin = .released
      ∨ t.flashPin = .unknown ∧ t.ended = true ∧ ∃ k, t.errors.getLast? = some ⟨.transportError, .transport k⟩ := by
  rw [runOp] at ht
  cases hop : op s with
  | ok a u =>
    rw [hop] at hpin ht
    cases ht
    exact .inl hpin
  | error e u =>
    rw [hop] at hpin ht
    cases ht
    cases e with
    | waiting => exact absurd hb hpin
    | raised => exact hpin.imp_right fun ⟨hunknown, hlast⟩ => ⟨hunknown, rfl, hlast⟩

/-! ### The operations with the cleanup -/

/-- No update of an operation writes the session. -/
theorem closed_identified :
    Closed (fun _ => True) (fun u => u.session = .identified) fun u => u.session = .identified :=
  closed_session fun _ v => v = .identified

theorem resetOk_identified : ResetOk fun u => u.session = .identified :=
  fun _ h _ => h

theorem leavesPin_readFlash {lo hi : Nat} {start : Bool} (hs : s.session = .identified) (ha : s.AnswersOk 2)
    (h : lo ≤ hi) : LeavesPin (readFlash lo hi start s) := by
  rw [readFlash_eq hs ha h]
  exact leavesPin_releaseAfter (s := s.pinned true)
    (keeps_readBody closed_identified trivial trivial trivial resetOk_identified lo hi start) hs

theorem leavesPin_writeFlash {data : Bytes} {address : Nat} {start : Bool} (hs : s.session = .identified)
    (ha : s.AnswersOk 2) : LeavesPin (writeFlash data address start s) := by
  rw [writeFlash_eq hs ha]
  exact leavesPin_releaseAfter (s := s.pinned true)
    (keeps_writeBody closed_identified trivial trivial trivial trivial resetOk_identified data address start) hs

/-- A resumed poll of a `writeFlash` is inside its `try` (R217, R224). -/
theorem leavesPin_resumePoll {b : Busy} (hs : s.session = .identified) (hr : b.rest ≠ .done) :
    LeavesPin (resumePoll b s) := by
  obtain ⟨k, rest⟩ := b
  have hpoll : Keeps (fun u => u.session = .identified) (fun u => u.session = .identified) (pollOnce k rest) :=
    keeps_pollOnce closed_identified trivial k rest
  have hwrite := keeps_writeChunks closed_identified trivial
  cases rest with
  | done => exact absurd rfl hr
  | erased plan => exact leavesPin_releaseAfter (keeps_bind hpoll fun _ => hwrite plan 0) hs
  | chunks cumulative more =>
    exact leavesPin_releaseAfter (keeps_bind hpoll fun _ =>
      keeps_bind (keeps_record closed_identified rfl rfl) fun _ => hwrite more cumulative) hs

/-- Settles O51: a read, a write and a resumed write each settle from the cleanup. -/
theorem thePinIsReleasedOnEveryExit : Obligations.ThePinIsReleasedOnEveryExit := by
  rintro s t hs hb (⟨i, ha, hexec, ⟨lo, hi, start, rfl, hle⟩ | ⟨data, address, start, rfl⟩⟩ | ⟨b, hbusy, hrest, hstep⟩)
  · exact pin_of_settled (leavesPin_readFlash hs ha hle) hexec hb
  · exact pin_of_settled (leavesPin_writeFlash hs ha) hexec hb
  · obtain ⟨_, ⟨b', hbusy', hresume⟩ | ⟨hnone, _⟩⟩ := step_cases hstep
    · cases hbusy.symm.trans hbusy'
      exact pin_of_settled (leavesPin_resumePoll (s := { s with busy := none }) hs hrest) hresume hb
    · cases hbusy.symm.trans hnone

end Sys2Proof.Machine

/-!
Address texts and the identity gate's hex text (R253, R263).
-/
namespace Sys2Proof.Machine

variable {s : State}

/-! ### Numerals -/

/-- A numeral written digit by digit is read as the number its digits make. -/
theorem digitsFrom_map {δ : Type} {base : Nat} {digit : Char → Option Nat} {char : δ → Char} {value : δ → Nat}
    (hdigit : ∀ d, digit (char d) = some (value d)) (ds : List δ) (n : Nat) :
    digitsFrom base digit n (ds.map char) = some (ds.foldl (fun m d => base * m + value d) n) := by
  induction ds generalizing n with
  | nil => rfl
  | cons d ds ih => rw [List.map_cons, digitsFrom, hdigit, List.foldl_cons, mul_comm base n]; exact ih _

theorem numeral_map {δ : Type} {base : Nat} {digit : Char → Option Nat} {char : δ → Char} {value : δ → Nat}
    (hdigit : ∀ d, digit (char d) = some (value d)) {ds : List δ} (hne : ds ≠ []) :
    numeral base digit (ds.map char) = some (ds.foldl (fun m d => base * m + value d) 0) := by
  cases ds with
  | nil => exact absurd rfl hne
  | cons d ds => exact digitsFrom_map hdigit (d :: ds) 0

/-- Only digits are read as a numeral. -/
theorem exists_map_of_digitsFrom {δ : Type} {base : Nat} {digit : Char → Option Nat} {char : δ → Char}
    (hchar : ∀ c v, digit c = some v → ∃ d, char d = c) {text : Text} {n v : Nat}
    (h : digitsFrom base digit n text = some v) : ∃ ds : List δ, text = ds.map char := by
  induction text generalizing n with
  | nil => exact ⟨[], rfl⟩
  | cons c text ih =>
    rw [digitsFrom] at h
    cases hd : digit c with
    | none => rw [hd] at h; cases h
    | some k =>
      rw [hd] at h
      obtain ⟨d, rfl⟩ := hchar c k hd
      obtain ⟨ds, rfl⟩ := ih h
      exact ⟨d :: ds, rfl⟩

theorem exists_map_of_numeral {δ : Type} {base : Nat} {digit : Char → Option Nat} {char : δ → Char}
    (hchar : ∀ c v, digit c = some v → ∃ d, char d = c) {text : Text} {v : Nat}
    (h : numeral base digit text = some v) : ∃ ds : List δ, ds ≠ [] ∧ text = ds.map char := by
  cases text with
  | nil => cases h
  | cons c rest =>
    obtain ⟨ds, hds⟩ := exists_map_of_digitsFrom hchar h
    exact ⟨ds, by rintro rfl; exact List.cons_ne_nil _ _ hds, hds⟩

/-! ### Digits -/

theorem hexDigit_hexDigitChar : ∀ d : Fin 16 × Bool, hexDigit (hexDigitChar d) = some d.1.val := by decide

theorem decDigit_decDigitChar : ∀ d : Fin 10, decDigit (decDigitChar d) = some d.val := by decide

/-- The digits, and the letters of either case, stand in a row in the character code. -/
theorem decDigitChar_eq_ofNat : ∀ k : Fin 10, decDigitChar k = Char.ofNat (48 + k) := by decide

theorem hexDigitChar_eq_ofNat :
    (∀ k : Fin 10, hexDigitChar (k.castLE (by decide), false) = Char.ofNat (48 + k))
      ∧ (∀ k : Fin 6, hexDigitChar (k.natAdd 10, false) = Char.ofNat (97 + k))
      ∧ ∀ k : Fin 6, hexDigitChar (k.natAdd 10, true) = Char.ofNat (65 + k) := by decide

/-- A character whose code lies in a row of codes is the character of one of them. -/
theorem exists_eq_ofNat {c : Char} {lo n : Nat} (hlo : lo ≤ c.toNat) (hhi : c.toNat < lo + n) :
    ∃ k : Fin n, Char.ofNat (lo + k) = c :=
  ⟨⟨c.toNat - lo, by omega⟩, by rw [Nat.add_sub_cancel' hlo, Char.ofNat_toNat]⟩

theorem exists_decDigitChar {c : Char} {v : Nat} (h : decDigit c = some v) : ∃ d, decDigitChar d = c := by
  simp only [decDigit, Bool.and_eq_true, decide_eq_true_eq] at h
  split_ifs at h with hrange
  obtain ⟨k, rfl⟩ := exists_eq_ofNat (n := 10) hrange.1 (Nat.lt_succ_of_le hrange.2)
  exact ⟨k, decDigitChar_eq_ofNat k⟩

theorem exists_hexDigitChar {c : Char} {v : Nat} (h : hexDigit c = some v) : ∃ d, hexDigitChar d = c := by
  obtain ⟨hdigit, hlower, hupper⟩ := hexDigitChar_eq_ofNat
  simp only [hexDigit, Bool.and_eq_true, decide_eq_true_eq] at h
  split_ifs at h with hrange hrange hrange
  · obtain ⟨k, rfl⟩ := exists_eq_ofNat (n := 10) hrange.1 (Nat.lt_succ_of_le hrange.2)
    exact ⟨_, hdigit k⟩
  · obtain ⟨k, rfl⟩ := exists_eq_ofNat (n := 6) hrange.1 (Nat.lt_succ_of_le hrange.2)
    exact ⟨_, hlower k⟩
  · obtain ⟨k, rfl⟩ := exists_eq_ofNat (n := 6) hrange.1 (Nat.lt_succ_of_le hrange.2)
    exact ⟨_, hupper k⟩

/-! ### Address texts -/

theorem addrValue_hex {ds : List (Fin 16 × Bool)} (hne : ds ≠ []) :
    addrValue ('0' :: 'x' :: ds.map hexDigitChar) = some (ds.foldl (fun n d => 16 * n + d.1.val) 0) := by
  rw [addrValue]
  exact numeral_map hexDigit_hexDigitChar hne

theorem decDigitChar_ne_x : ∀ d, decDigitChar d ≠ 'x' := by decide

/-- No decimal digit is an `x`, so decimal digits never read as a hexadecimal text. -/
theorem addrValue_dec {ds : List (Fin 10)} (hne : ds ≠ []) :
    addrValue (ds.map decDigitChar) = some (ds.foldl (fun n d => 10 * n + d.val) 0) := by
  rw [addrValue]
  · exact numeral_map decDigit_decDigitChar hne
  · intro rest htext
    have hmem : 'x' ∈ ds.map decDigitChar := by simp [htext]
    obtain ⟨d, -, hd⟩ := List.mem_map.mp hmem
    exact decDigitChar_ne_x d hd

theorem exists_digits_of_addrValue {text : Text} {v : Nat} (h : addrValue text = some v) :
    (∃ ds : List (Fin 16 × Bool), ds ≠ [] ∧ text = '0' :: 'x' :: ds.map hexDigitChar)
      ∨ ∃ ds : List (Fin 10), ds ≠ [] ∧ text = ds.map decDigitChar := by
  rw [addrValue.eq_def] at h
  split at h
  next rest =>
    obtain ⟨ds, hne, rfl⟩ := exists_map_of_numeral (fun _ _ => exists_hexDigitChar) h
    exact .inl ⟨ds, hne, rfl⟩
  next => exact .inr (exists_map_of_numeral (fun _ _ => exists_decDigitChar) h)

theorem exec_parseAddr_of_some {text : Text} {n : Nat} (h : addrValue text = some n) :
    exec (.parseAddr text) s = .next (s.completed (.nat n)) :=
  runOp_ok (by rw [parseAddr, h]; rfl)

theorem exec_parseAddr_of_none {text : Text} (h : addrValue text = none) :
    exec (.parseAddr text) s = .next (s.failedWith .invalidArgument (.argumentText text)) :=
  runOp_raised (by rw [parseAddr, h]; rfl)

/-- Settles O27: `addrValue` reads the two grammars, and a text it reads is of one of them. -/
theorem addressTextsAreHexOrDecimal : Obligations.AddressTextsAreHexOrDecimal := by
  refine fun s => ⟨fun ds hne => exec_parseAddr_of_some (addrValue_hex hne),
    fun ds hne => exec_parseAddr_of_some (addrValue_dec hne), fun text hhex hdec => exec_parseAddr_of_none ?_⟩
  cases hv : addrValue text with
  | none => rfl
  | some v =>
    obtain ⟨ds, hne, htext⟩ | ⟨ds, hne, htext⟩ := exists_digits_of_addrValue hv
    · exact absurd htext (hhex ds hne)
    · exact absurd htext (hdec ds hne)

/-! ### The identity gate -/

/-- The numeral of the low `n` hexadecimal digits of `m`, read after the value `acc`. -/
theorem foldl_hexDigits (m n acc : Nat) :
    (List.range n).reverse.foldl (fun k i => 16 * k + m / 16 ^ i % 16) acc = 16 ^ n * acc + m % 16 ^ n := by
  induction n generalizing acc with
  | zero => simp [Nat.mod_one]
  | succ n ih =>
    rw [List.range_succ, List.reverse_append, List.reverse_singleton, List.singleton_append, List.foldl_cons, ih,
      Nat.mod_pow_succ, pow_succ]
    ring

theorem hexDigitChar_eq_hexChar : ∀ d : Fin 16, hexDigitChar (d, false) = hexChar d := by decide

/-- The digits of the hex text of a word (R253). -/
def hexTextDigits (w : Word32) : List (Fin 16 × Bool) :=
  (List.range 8).reverse.map fun i => (Fin.ofNat 16 (w.toNat / 16 ^ i), false)

theorem hexText_eq (w : Word32) : hexText w = '0' :: 'x' :: (hexTextDigits w).map hexDigitChar := by
  simp only [hexText, hexTextDigits, List.map_map, Function.comp_def, hexDigitChar_eq_hexChar, Fin.val_ofNat]

/-- The hex text of a word reads back as the word (R253, R263). -/
theorem addrValue_hexText (w : Word32) : addrValue (hexText w) = some w.toNat := by
  have hw : w.toNat % 16 ^ 8 = w.toNat := Nat.mod_eq_of_lt w.isLt
  rw [hexText_eq, addrValue_hex (by simp [hexTextDigits]), hexTextDigits, List.foldl_map]
  simp only [Fin.val_ofNat, foldl_hexDigits, hw, mul_zero, zero_add]

theorem checkIdentity_ok (h : s.deviceId = some Config.expectedIdcode) :
    checkIdentity s = .ok () { s with session := .identified } := by
  rw [checkIdentity, run_get_bind, if_pos h, run_modify]

theorem checkIdentity_raises (h : s.deviceId ≠ some Config.expectedIdcode) :
    checkIdentity s =
      .error .raised (s.enterError .deviceIdentityError (.idcode (idcodeText s.deviceId))) := by
  rw [checkIdentity, run_get_bind, if_neg h, run_raise]

/-- Settles O39: the gate's one comparison, and the hex text read back. -/
theorem identityGateComparesTheWholeWord : Obligations.IdentityGateComparesTheWholeWord := by
  refine fun s => ⟨fun hid => runOp_ok (checkIdentity_ok hid), fun w hid hw => ⟨?_, ?_, ?_⟩⟩
  · have hne : s.deviceId ≠ some Config.expectedIdcode := fun h => hw (Option.some.inj (hid.symm.trans h))
    have hraise := checkIdentity_raises hne
    rw [hid] at hraise
    exact runOp_raised hraise
  · exact enterError_session s ..
  · exact exec_parseAddr_of_some (addrValue_hexText w)

end Sys2Proof.Machine

/-!
The handshake's failures and the identification reads (R250, R252, R254, R300, R305).
-/
namespace Sys2Proof.Machine

variable {s : State} {cfg : SessionConfig} {k : FailKind}

/-! ### The handshake's failures -/

theorem transportOpen_fail (h : s.answerAt s.drawn.answers = .fail k) :
    transportOpen s = raiseTransport false (openKind k) (s.drewAnswers 1) := by
  rw [transportOpen, run_bind_ok (run_drawAnswer s), h]

/-- How an instruction settles whose `n`-th transport call from `u` on failed (R305). -/
theorem runOp_raiseTransport {α : Type} {value : α → Value} {op : Op α} {u : State} {n : Nat}
    (h : op s = raiseTransport false k (u.drewAnswers n)) : runOp value op s = .next (u.transportFailed n k) := by
  rw [runOp, h]
  rfl

theorem openSession_open_fails (h : s.answerAt s.drawn.answers = .fail k) :
    openSession cfg s = raiseTransport false (openKind k) (State.drewAnswers { s with cfg := cfg } 1) := by
  have h' : State.answerAt { s with cfg := cfg } s.drawn.answers = .fail k := h
  rw [openSession, run_modify_bind, run_bind_error (e := .raised) (transportOpen_fail h')]
  rfl

theorem openSession_write_fails (hok : s.AnswersOk 1) (h : s.answerAt (s.drawn.answers + 1) = .fail k) :
    openSession cfg s = raiseTransport false (writeKind k) (State.drewAnswers { s with cfg := cfg } 2) := by
  have h0 : answered (State.answerAt { s with cfg := cfg } s.drawn.answers) = true := hok 0 (by omega)
  have h1 : (State.drewAnswers { s with cfg := cfg } 1).answerAt (s.drawn.answers + 1) = .fail k := h
  rw [openSession, run_modify_bind, run_bind_ok (transportOpen_ok h0),
    run_bind_error (e := .raised) (usbWrite_fail h1)]
  rfl

/-- The first failed read loses the TAP and is recorded; the second raises (R250). -/
theorem openSession_reads_fail {k' : FailKind} (hok : s.AnswersOk 2)
    (h : s.answerAt (s.drawn.answers + 2) = .fail k) (h' : s.answerAt (s.drawn.answers + 3) = .fail k') :
    openSession cfg s = raiseTransport false (readKind k') (State.drewAnswers
      { s.lostTap with cfg := cfg, history := s.history ++ [.write infoFrame, .fail .read] } 4) := by
  have h0 : answered (State.answerAt { s with cfg := cfg } s.drawn.answers) = true := hok 0 (by omega)
  have h1 : answered ((State.drewAnswers { s with cfg := cfg } 1).answerAt (s.drawn.answers + 1)) = true :=
    hok 1 (by omega)
  have h2 : (State.drewAnswers { s with cfg := cfg } 1 |>.drewAnswers 1).answerAt (s.drawn.answers + 2) = .fail k := h
  have h3 : (State.drewAnswers { s with cfg := cfg } 1 |>.drewAnswers 1).answerAt (s.drawn.answers + 3) = .fail k' := h'
  rw [openSession, run_modify_bind, run_bind_ok (transportOpen_ok h0), run_bind_ok (usbWrite_ok h1), run_get_bind,
    run_bind_error (e := .raised) (handshakeRead_fails h2 h3)]
  rfl

/-- Settles O37: each of the three failures by the operation's law; the session is not written. -/
theorem openSessionFailuresLeaveItClosed : Obligations.OpenSessionFailuresLeaveItClosed := by
  refine fun s cfg => ⟨fun hs => if_neg hs, fun hs => ?_⟩
  rw [exec_openSession cfg hs]
  refine ⟨fun k hopen => ⟨_, ?openFails, rfl, hs⟩, fun k hok hwrite => ⟨_, ?writeFails, rfl, hs⟩,
    fun k k' hok hread hretry => ⟨_, ?readsFail, rfl, hs⟩⟩
  case openFails => exact runOp_raiseTransport (openSession_open_fails hopen)
  case writeFails => exact runOp_raiseTransport (openSession_write_fails hok hwrite)
  case readsFail => exact runOp_raiseTransport (openSession_reads_fail hok hread hretry)

/-! ### The identification reads -/

theorem readIdcode_raises (h : s.session = .closed) :
    readIdcode s = .error .raised (s.enterError .deviceIdentityError (.session .closed)) := by
  rw [readIdcode, run_get_bind, if_pos h, h]
  rfl

/-- Settles O38: both reads by the law of their scan. -/
theorem identificationReadsReturnTheirWord : Obligations.IdentificationReadsReturnTheirWord := by
  refine fun s => ⟨fun hs ht hok => ?_, fun hs ht hok => ?_, fun hs => ?_⟩
  · exact runOp_ok (readIdcode_ok hs ht hok)
  · exact runOp_ok (readUsercode_ok hs ht hok)
  · exact runOp_raised (readIdcode_raises hs)

end Sys2Proof.Machine

/-!
Configuration (R260): a configuration sequence runs operations of files 40 and 42 as their rows do, and none of them
polls, so none waits.
-/
namespace Sys2Proof.Machine

variable {s t : State}

/-! ### Operations that never wait -/

/-- A result that is not that of an operation waiting for a poll (R217). -/
def Ends {α : Type} : EStateM.Result Exit State α → Prop
  | .error .waiting _ => False
  | _ => True

/-- From every state the operation completes or raises. -/
structure NeverWaits {α : Type} (op : Op α) : Prop where
  ends : ∀ s, Ends (op s)

theorem NeverWaits.ne_waiting {α : Type} {op : Op α} (h : NeverWaits op) : op s ≠ .error .waiting t := by
  intro hw
  have hends := h.ends s
  rw [hw] at hends
  exact hends

theorem neverWaits_pure {α : Type} (a : α) : NeverWaits (pure a : Op α) := ⟨fun _ => trivial⟩
theorem neverWaits_get : NeverWaits (get : Op State) := ⟨fun _ => trivial⟩
theorem neverWaits_modify (g : State → State) : NeverWaits (modify g : Op PUnit) := ⟨fun _ => trivial⟩

theorem NeverWaits.bind {α β : Type} {x : Op α} {f : α → Op β} (hx : NeverWaits x)
    (hf : ∀ a, NeverWaits (f a)) : NeverWaits (x >>= f) := by
  refine ⟨fun s => ?_⟩
  have hends := hx.ends s
  cases hr : x s with
  | ok a u =>
    rw [run_bind_ok hr]
    exact (hf a).ends u
  | error e u =>
    rw [hr] at hends
    rw [run_bind_error hr]
    cases e with
    | raised => trivial
    | waiting => exact hends

theorem NeverWaits.ite {α : Type} {c : Prop} [Decidable c] {x y : Op α} (hx : NeverWaits x)
    (hy : NeverWaits y) : NeverWaits (if c then x else y) := by
  split
  · exact hx
  · exact hy

theorem NeverWaits.ignoring {α : Type} {op : Op α} (h : NeverWaits op) : NeverWaits (ignoring op) :=
  h.bind fun _ => neverWaits_pure _

/-! ### The shared operations do not wait -/

theorem neverWaits_raise {α : Type} (code : ErrorCode) (info : ErrorInfo) :
    NeverWaits (raise code info : Op α) := ⟨fun _ => trivial⟩
theorem neverWaits_raiseTransport {α : Type} (pin : Bool) (k : FailKind) :
    NeverWaits (raiseTransport pin k : Op α) := ⟨fun _ => trivial⟩
theorem neverWaits_drawAnswer : NeverWaits drawAnswer := ⟨fun _ => trivial⟩
theorem neverWaits_drawTdo : NeverWaits drawTdo := ⟨fun _ => trivial⟩
theorem neverWaits_record (events : List Event) : NeverWaits (record events) := ⟨fun _ => trivial⟩
theorem neverWaits_portTick (b tms tdi tdo : Bool) : NeverWaits (portTick b tms tdi tdo) :=
  ⟨fun _ => trivial⟩
theorem neverWaits_setPending (clean : Bool) (instr : BitSeq) : NeverWaits (setPending clean instr) :=
  ⟨fun _ => trivial⟩
theorem neverWaits_enterTestLogicReset : NeverWaits enterTestLogicReset := ⟨fun _ => trivial⟩

theorem neverWaits_drawTdos (n : Nat) : NeverWaits (drawTdos n) := by
  induction n with
  | zero => exact neverWaits_pure _
  | succ n ih => exact neverWaits_drawTdo.bind fun _ => ih.bind fun _ => neverWaits_pure _

theorem neverWaits_portTicks (ticks : List (Bool × Bool × Bool)) : NeverWaits (portTicks ticks) := by
  induction ticks with
  | nil => exact neverWaits_pure _
  | cons tick ticks ih => exact (neverWaits_portTick ..).bind fun _ => ih

theorem neverWaits_usbWrite (pin : Bool) (bytes : Bytes) : NeverWaits (usbWrite pin bytes) := by
  refine neverWaits_drawAnswer.bind fun answer => ?_
  cases answer with
  | ok => exact neverWaits_pure _
  | fail k => exact neverWaits_raiseTransport ..

theorem neverWaits_tryRead (maxlen : Nat) : NeverWaits (tryRead maxlen) := by
  refine neverWaits_drawAnswer.bind fun answer => ?_
  cases answer with
  | ok => exact neverWaits_pure _
  | fail k => exact neverWaits_pure _

theorem neverWaits_usbRead (pin : Bool) (maxlen : Nat) : NeverWaits (usbRead pin maxlen) := by
  refine (neverWaits_tryRead _).bind fun answer => ?_
  cases answer with
  | ok => exact neverWaits_pure _
  | error k => exact neverWaits_raiseTransport ..

/-- A tick is a write, a read and a draw. -/
theorem neverWaits_tickIn (b tms tdi : Bool) : NeverWaits (tickIn b tms tdi) :=
  (neverWaits_usbWrite ..).bind fun _ => neverWaits_get.bind fun _ => (neverWaits_usbRead ..).bind fun _ =>
    neverWaits_drawTdo.bind fun _ => (neverWaits_portTick ..).bind fun _ => neverWaits_pure _

/-- An exchange is a write and a read. -/
theorem neverWaits_exchange (op : Byte) (payload : Bytes) : NeverWaits (exchange op payload) :=
  (neverWaits_usbWrite ..).bind fun _ => neverWaits_get.bind fun _ => (neverWaits_usbRead ..).bind fun _ =>
    (neverWaits_record _).bind fun _ => neverWaits_pure _

theorem neverWaits_portFrame (op : Byte) (payload : Bytes) (ticks : List (Bool × Bool)) :
    NeverWaits (portFrame op payload ticks) :=
  (neverWaits_exchange ..).bind fun _ => (neverWaits_drawTdos _).bind fun _ => (neverWaits_portTicks _).bind fun _ =>
    neverWaits_pure _

/-! ### The TAP operations do not wait -/

theorem neverWaits_goto (seq : BitSeq) : NeverWaits (goto seq) := by
  induction seq with
  | nil => exact neverWaits_pure _
  | cons tms seq ih => exact (neverWaits_tickIn ..).bind fun _ => ih

theorem neverWaits_shiftBits (b : Bool) (bits : BitSeq) : NeverWaits (shiftBits b bits) := by
  match bits with
  | [] => exact neverWaits_pure _
  | [_] => exact (neverWaits_tickIn ..).bind fun _ => neverWaits_pure _
  | _ :: c :: more =>
    exact (neverWaits_tickIn ..).bind fun _ =>
      (neverWaits_shiftBits b (c :: more)).bind fun _ => neverWaits_pure _

theorem neverWaits_assertState (e : TapState) : NeverWaits (assertState e) :=
  neverWaits_get.bind fun _ => (neverWaits_pure _).ite (neverWaits_raise ..)

theorem neverWaits_gotoState (target : TapState) : NeverWaits (gotoState target) := by
  refine neverWaits_get.bind fun s => ?_
  cases s.tap with
  | unknown => exact neverWaits_raise ..
  | known t => exact (neverWaits_goto _).bind fun _ => neverWaits_assertState _

theorem neverWaits_shiftInstruction (instr : BitSeq) : NeverWaits (shiftInstruction instr) :=
  neverWaits_get.bind fun _ => (neverWaits_raise ..).ite <| (neverWaits_raise ..).ite <|
    (neverWaits_shiftBits ..).bind fun _ => neverWaits_setPending ..

theorem neverWaits_shiftData (bits : BitSeq) (receive : Bool) : NeverWaits (shiftData bits receive) :=
  neverWaits_get.bind fun _ => (neverWaits_raise ..).ite <| (neverWaits_raise ..).ite <|
    (neverWaits_shiftBits ..).bind fun _ => neverWaits_pure _

theorem neverWaits_loadData (data : BitSeq) (receive : Bool) : NeverWaits (loadData data receive) :=
  ((neverWaits_tickIn ..).bind fun _ => neverWaits_pure _).ite (neverWaits_shiftData ..)

theorem neverWaits_tapReset : NeverWaits tapReset :=
  (neverWaits_goto _).bind fun _ => neverWaits_enterTestLogicReset.bind fun _ => (neverWaits_tickIn ..).bind fun _ =>
    neverWaits_pure _

theorem neverWaits_loadInstructionThenData (instr data : BitSeq) (receive : Bool) :
    NeverWaits (loadInstructionThenData instr data receive) :=
  (neverWaits_assertState _).bind fun _ => (neverWaits_goto _).bind fun _ => (neverWaits_assertState _).bind fun _ =>
  (neverWaits_shiftInstruction _).bind fun _ => (neverWaits_assertState _).bind fun _ =>
  (neverWaits_goto _).bind fun _ => (neverWaits_assertState _).bind fun _ => (neverWaits_loadData ..).bind fun _ =>
  (neverWaits_assertState _).bind fun _ => (neverWaits_goto _).bind fun _ => (neverWaits_assertState _).bind fun _ =>
    neverWaits_pure _

theorem neverWaits_scanDR (data : BitSeq) (receive : Bool) : NeverWaits (scanDR data receive) :=
  (neverWaits_assertState _).bind fun _ => (neverWaits_goto _).bind fun _ => (neverWaits_assertState _).bind fun _ =>
  (neverWaits_shiftData ..).bind fun _ => (neverWaits_assertState _).bind fun _ => (neverWaits_goto _).bind fun _ =>
  (neverWaits_assertState _).bind fun _ => neverWaits_pure _

/-! ### Frames do not wait -/

theorem neverWaits_fromBytes (bytes : Bytes) (count : Nat) : NeverWaits (fromBytes bytes count) :=
  (neverWaits_pure _).ite (neverWaits_raise ..)

theorem neverWaits_bulkPayload (bits : BitSeq) : NeverWaits (bulkPayload bits) :=
  neverWaits_get.bind fun _ => ((neverWaits_pure _).ite (neverWaits_raise ..)).bind fun _ => neverWaits_pure _

theorem neverWaits_command (op : Byte) (payload : Bytes) : NeverWaits (command op payload) :=
  (neverWaits_raise ..).ite <| neverWaits_get.bind fun _ => (neverWaits_portFrame ..).ite (neverWaits_exchange ..)

/-- No operation of a configuration sequence waits: none polls (R217, R260). -/
theorem neverWaits_seqOp (op : SeqOp) : NeverWaits (seqOp op) := by
  cases op with
  | tick tms tdi => exact (neverWaits_tickIn ..).ignoring
  | goto seq => exact neverWaits_goto seq
  | gotoState target => exact neverWaits_gotoState target
  | assertState expected => exact neverWaits_assertState expected
  | shiftInstruction instr => exact neverWaits_shiftInstruction instr
  | shiftData bits receive => exact (neverWaits_shiftData ..).ignoring
  | reset => exact neverWaits_tapReset
  | loadInstructionThenData instr data receive => exact (neverWaits_loadInstructionThenData ..).ignoring
  | scanDR data receive => exact (neverWaits_scanDR ..).ignoring
  | info payload => exact (neverWaits_exchange ..).ignoring
  | flashOnOff on => exact (neverWaits_exchange ..).bind fun _ => neverWaits_modify _
  | writeEedata addr value => exact (neverWaits_exchange ..).ignoring
  | prog payload => exact (neverWaits_exchange ..).bind fun _ => neverWaits_modify _
  | tmsTdi tms tdi => exact (neverWaits_portFrame ..).ignoring
  | tmsTdiTdo tms tdi => exact ((neverWaits_portFrame ..).bind fun _ => neverWaits_pure _).ignoring
  | tdiTdo bits marked =>
    exact ((neverWaits_raise ..).ite <| (neverWaits_bulkPayload _).bind fun _ =>
      (neverWaits_portFrame ..).bind fun _ => neverWaits_fromBytes ..).ignoring
  | tdi bits marked =>
    exact (neverWaits_raise ..).ite <| (neverWaits_bulkPayload _).bind fun _ => (neverWaits_portFrame ..).ignoring
  | tapSeq seq => exact (neverWaits_pure _).ite (neverWaits_portFrame ..).ignoring
  | command op payload => exact (neverWaits_command ..).ignoring

/-! ### An operation of a sequence and its row -/

theorem execCommand_admitted (op : AdmittedOp) (payload : Bytes) :
    exec (.command (admittedByte op) payload) s = runOp .bytes (command (admittedByte op) payload) s :=
  if_neg (by cases op <;> decide)

theorem ignoring_unit (op : Op Unit) : ignoring op = op :=
  bind_pure_unit

/-- An operation of a sequence is its row's operation, run for its effect (R260). -/
theorem exists_seqRow_operation (op : SeqOp) : ∃ (α : Type) (value : α → Value) (body : Op α),
    seqOp op = ignoring body ∧ ∀ s, exec (seqRow op) s = runOp value body s := by
  cases op with
  | command op payload => exact ⟨_, _, _, rfl, fun _ => execCommand_admitted op payload⟩
  | tick | shiftData | loadInstructionThenData | scanDR | info | tmsTdiTdo | tdiTdo =>
    exact ⟨_, _, _, rfl, fun _ => rfl⟩
  | _ => exact ⟨_, _, _, (ignoring_unit _).symm, fun _ => rfl⟩

theorem ignoring_ok {α : Type} {op : Op α} (h : ignoring op s = .ok () t) : ∃ a, op s = .ok a t := by
  obtain ⟨a, u, hop, hpure⟩ := bind_ok_inv h
  cases hpure
  exact ⟨a, hop⟩

theorem ignoring_error {α : Type} {op : Op α} {e : Exit} (h : ignoring op s = .error e t) : op s = .error e t := by
  cases hop : op s with
  | ok a u => cases (run_bind_ok hop).symm.trans h
  | error e' u => cases (run_bind_error hop).symm.trans h; rfl

/-- An operation that raised, as an instruction (R304). -/
theorem runOp_error {α : Type} {value : α → Value} {op : Op α} (h : op s = .error .raised t) :
    runOp value op s = .next { t with result := .none, ended := true, busy := none } := by
  rw [runOp, h]
  rfl

/-! ### The configuration -/

theorem configureFpga_error {bitstream : Bytes} (hs : s.session = .identified)
    (h : seqOps (configureSeq s.params bitstream) s = .error .raised t) :
    configureFpga bitstream s = .error .raised t := by
  rw [configureFpga, run_bind_ok (requireIdentified_ok hs), run_get_bind, run_bind_error h]

theorem exec_configureFpga_idle {bitstream : Bytes} (hs : s.session = .identified)
    (h : seqOps (configureSeq s.params bitstream) s = .ok () t) (ht : t.tap = .known .runTestIdle) :
    exec (.configureFpga bitstream) s = .next (State.completed { t with caps := none } .none) :=
  runOp_ok ((configureFpga_eq hs h).trans (assertState_ok (s := { t with caps := none }) ht))

theorem exec_configureFpga_astray {bitstream : Bytes} (hs : s.session = .identified)
    (h : seqOps (configureSeq s.params bitstream) s = .ok () t) (ht : t.tap ≠ .known .runTestIdle) :
    exec (.configureFpga bitstream) s = .next (State.failedWith { t with caps := none } .protocolDesyncError
      (.tapMismatch .runTestIdle t.tap)) :=
  runOp_raised ((configureFpga_eq hs h).trans (assertState_raises (s := { t with caps := none }) ht))

/-- Settles O40: the sequence by its own equations, each operation through the operation of its row. -/
theorem configurationForgetsTheCapabilities : Obligations.ConfigurationForgetsTheCapabilities := by
  refine ⟨fun s bitstream hs => ⟨?idle, ?astray, ?empty, ?raised⟩, fun s op more => ⟨?next, ?stop⟩,
    fun s op => ⟨?rowCompletes, ?rowRaises, ?rowWaits⟩⟩
  case idle => exact fun t hseq ht => exec_configureFpga_idle hs hseq ht
  case astray => exact fun t hseq ht => exec_configureFpga_astray hs hseq ht
  case empty => exact fun hnil ht => exec_configureFpga_idle hs (by rw [hnil]; rfl) ht
  case raised => exact fun t hseq => runOp_error (configureFpga_error hs hseq)
  case next => exact fun t hop => run_bind_ok hop
  case stop => exact fun e t hop => run_bind_error hop
  case rowWaits => exact fun t => (neverWaits_seqOp op).ne_waiting
  all_goals obtain ⟨α, value, body, hop, hrow⟩ := exists_seqRow_operation op
  case rowCompletes =>
    intro t ht
    rw [hop] at ht
    obtain ⟨a, hbody⟩ := ignoring_ok ht
    exact ⟨value a, (hrow s).trans (runOp_ok hbody)⟩
  case rowRaises =>
    intro t ht
    rw [hop] at ht
    exact (hrow s).trans (runOp_error (ignoring_error ht))

end Sys2Proof.Machine
